-- ==== Sys2Proof/Word.lean ====
section
/-! DEFINITION. The word types of HGR-v7 (00_scope.md R10, R11): bytes on the wire and in the buffers,
u16 command words, and RGB565 colours, which HGR treats as opaque u16 values (R16). -/

namespace Sys2Proof

/-- A u8. -/
abbrev Byte := BitVec 8

/-- A u16: a command word, or a 16-bit register. -/
abbrev Word := BitVec 16

/-- An RGB565 colour, an opaque u16 (00_scope.md R16). -/
abbrev Color := BitVec 16

end Sys2Proof
end

