-- ==== Sys2Proof/Config.lean ====
section
/-! DEFINITION. What an implementation of HGR-v7 fixes, and the free values. The parameters of 00_scope.md R8 are
plain data in one record, `Params`, that carries the proof that it meets the constraints of R8, 41_config.md R100,
R104 and 20_memory.md R63, so a parameter set the spec refuses cannot be written down. The machine reads them from
`State.par`; `State.reset` holds `Config.params`, about which nothing can be proved but those constraints (log 1). -/

namespace Sys2Proof

/-- The data/command line DC: 0 = command mode, 1 = data mode (10_state.md R32). -/
inductive Line where
  | cmd
  | data
  deriving DecidableEq, Repr, Inhabited

/-- The mode of one transfer piece (42_transfer_window.md R135). -/
inductive XferMode where
  | sync
  | async
  deriving DecidableEq, Repr, Inhabited

/-- Wire events, the engine's output to the transport (42_transfer_window.md R130). -/
inductive WireEvent where
  /-- SEL: select the controller. -/
  | sel
  /-- DESEL: deselect it. -/
  | desel
  /-- DC(CMD) or DC(DATA). -/
  | dc (l : Line)
  /-- XFER(mode, bytes): one transfer piece. -/
  | xfer (mode : XferMode) (bytes : List Byte)
  /-- RST(level): drive the reset line, `false` = 0 = asserted. -/
  | rst (level : Bool)
  /-- DELAY(ms): a marker (R104); not timed (70_reset_and_hazards.md R271). -/
  | delay (ms : Nat)
  deriving DecidableEq, Repr, Inhabited

/-- The codes of STATUS.ERRCODE that are ever written (60_exceptions.md R231). -/
inductive ErrCode where
  /-- 0x00 NONE: no error since the last successful INIT or reset. -/
  | none
  /-- 0x01 ALLOC_ERROR: a result, not a fault (R234). -/
  | allocError
  /-- 0x10 ILLEGAL_COMMAND. -/
  | illegalCommand
  /-- 0x11 RESERVED_FIELD. -/
  | reservedField
  /-- 0x12 TRUNCATED. -/
  | truncated
  /-- 0x13 NOT_READY. -/
  | notReady
  /-- 0x14 BAD_PANEL. -/
  | badPanel
  /-- 0x15 FONT_FAULT. -/
  | fontFault
  deriving DecidableEq, Repr, Inhabited

/-- One glyph record (20_memory.md R62). `xOffset` and `yOffset` are s8 values held as their bits. -/
structure Glyph where
  bitmapOffset : Word
  width : Byte
  height : Byte
  xAdvance : Byte
  xOffset : Byte
  yOffset : Byte
  deriving DecidableEq, Repr, Inhabited

/-- A font asset (20_memory.md R62). -/
structure Font where
  first : Word
  last : Word
  yAdvance : Byte
  glyphs : List Glyph
  bitmap : List Byte
  deriving DecidableEq, Repr, Inhabited

/-- One calibration entry (W, H, XS, YS), each u16 (41_config.md R100). -/
structure Geometry where
  width : Word
  height : Word
  xShift : Word
  yShift : Word
  deriving DecidableEq, Repr, Inhabited

/-- One value for each rotation 0..3. -/
structure PerRot (α : Type) where
  r0 : α
  r1 : α
  r2 : α
  r3 : α
  deriving DecidableEq, Repr, Inhabited

/-- P_CALIB: one `PerRot Geometry` for each panel type 0..2 (00_scope.md R9). -/
structure Calib where
  panel0 : PerRot Geometry
  panel1 : PerRot Geometry
  panel2 : PerRot Geometry
  deriving DecidableEq, Repr, Inhabited

/-- The parameters of 00_scope.md R8, unconstrained. -/
structure RawParams where
  /-- P_CALIB. -/
  calib : Calib
  /-- P_K_LINES. -/
  kLines : Nat
  /-- P_BUF_MIN_BYTES. -/
  bufMinBytes : Nat
  /-- P_MAX_XFER. -/
  maxXfer : Nat
  /-- P_ASYNC_ENABLE. -/
  asyncEnable : Bool
  /-- P_ASYNC_THRESHOLD. -/
  asyncThreshold : Nat
  /-- P_INIT_SEQ. -/
  initSeq : List WireEvent
  /-- P_MADCTL. -/
  madctl : PerRot Byte
  /-- P_TEON_PARAM. -/
  teonParam : Option Byte
  /-- P_FONTS: the fonts present, by id; the first entry of an id is the font of that id. -/
  fonts : List (Byte × Font)
  deriving DecidableEq, Repr, Inhabited

/-- The four entries of a `PerRot`. -/
def perRotList {α : Type} (p : PerRot α) : List α := [p.r0, p.r1, p.r2, p.r3]

/-- The twelve entries of the calibration table. -/
def calibList (c : Calib) : List Geometry :=
  perRotList c.panel0 ++ perRotList c.panel1 ++ perRotList c.panel2

/-- The constraints of 00_scope.md R8 and 41_config.md R100 on one entry, given K and the minimum buffer size. The
last one says that a default buffer's size fits BUF_BYTES, a u32 (10_state.md R29; log 2). -/
def geometryOk (kLines bufMinBytes : Nat) (g : Geometry) : Bool :=
  decide (1 ≤ g.width.toNat) && decide (1 ≤ g.height.toNat)
    && decide (g.width.toNat + g.xShift.toNat ≤ 65536) && decide (g.height.toNat + g.yShift.toNat ≤ 65536)
    && decide (bufMinBytes ≤ g.width.toNat * kLines * 2) && decide (g.width.toNat * kLines * 2 < 4294967296)

/-- "The rotation-2 and rotation-3 calibration entries are identical to each other and both use zero shift"
(41_config.md R100 (b)). -/
def panel1Ok (p : PerRot Geometry) : Bool :=
  decide (p.r2 = p.r3) && decide (p.r2.xShift = 0) && decide (p.r2.yShift = 0)

/-- 20_memory.md R62, R63: first <= last, one glyph for each character of the range, BLEN <= 2^24. -/
def fontOk (f : Font) : Bool :=
  decide (f.first.toNat ≤ f.last.toNat) && decide (f.glyphs.length = f.last.toNat - f.first.toNat + 1)
    && decide (f.bitmap.length ≤ 16777216)

/-- Every XFER lies inside a SEL ... DESEL bracket and the list ends with SEL = 0 (41_config.md R104 (b)); every
XFER is an event of the alphabet of 42_transfer_window.md R130, and asynchronous only if that mode exists (log 3). R104
does not say whether a SEL may come inside an open bracket, or a DESEL outside one: both are admitted (DESIGN CHOICE,
log 21). -/
def bracketedOk (maxXfer : Nat) (asyncEnable : Bool) : Bool → List WireEvent → Bool
  | sel, [] => !sel
  | _, .sel :: es => bracketedOk maxXfer asyncEnable true es
  | _, .desel :: es => bracketedOk maxXfer asyncEnable false es
  | sel, .xfer m bs :: es =>
    sel && decide (1 ≤ bs.length) && decide (bs.length ≤ maxXfer) && (decide (m = .sync) || asyncEnable)
      && bracketedOk maxXfer asyncEnable sel es
  | sel, .dc _ :: es => bracketedOk maxXfer asyncEnable sel es
  | sel, .rst _ :: es => bracketedOk maxXfer asyncEnable sel es
  | sel, .delay _ :: es => bracketedOk maxXfer asyncEnable sel es

/-- 41_config.md R104 (a): the reset-line prefix, with its lower bounds in milliseconds. -/
def resetPrefixOk : List WireEvent → Bool
  | .rst false :: .delay low :: .rst true :: .delay high :: .delay settle :: _ =>
    decide (10 ≤ low) && decide (10 ≤ high) && decide (20 ≤ settle)
  | _ => false

/-- All the constraints on the parameters. -/
def rawParamsOk (p : RawParams) : Bool :=
  (calibList p.calib).all (geometryOk p.kLines p.bufMinBytes) && panel1Ok p.calib.panel1
    && decide (1 ≤ p.kLines) && decide (2 ≤ p.bufMinBytes) && decide (p.bufMinBytes % 2 = 0)
    && decide (1 ≤ p.maxXfer) && resetPrefixOk p.initSeq
    && bracketedOk p.maxXfer p.asyncEnable false p.initSeq && p.fonts.all (fun e => fontOk e.2)

/-- A parameter set the model admits (00_scope.md R8). -/
structure Params where
  raw : RawParams
  ok : rawParamsOk raw = true
  deriving DecidableEq, Repr

namespace Config

/-- The example calibration table of 95_test_vectors.md section 1 (an illustration, not a fact of the source). -/
def exampleCalib : Calib where
  panel0 := ⟨⟨135, 240, 53, 40⟩, ⟨240, 135, 40, 52⟩, ⟨135, 240, 52, 40⟩, ⟨240, 135, 40, 53⟩⟩
  panel1 := ⟨⟨240, 240, 0, 80⟩, ⟨240, 240, 80, 0⟩, ⟨240, 240, 0, 0⟩, ⟨240, 240, 0, 0⟩⟩
  panel2 := ⟨⟨170, 320, 35, 0⟩, ⟨320, 170, 0, 35⟩, ⟨170, 320, 35, 0⟩, ⟨320, 170, 0, 35⟩⟩

/-- The example parameters of 95_test_vectors.md section 1, without fonts. They show that the constraints can be met
and are used in tests. -/
def exampleRaw : RawParams where
  calib := exampleCalib
  kLines := 4
  bufMinBytes := 2
  maxXfer := 65535
  asyncEnable := false
  asyncThreshold := 15
  initSeq := [.rst false, .delay 10, .rst true, .delay 10, .delay 20]
  madctl := ⟨0xC0, 0xA0, 0x00, 0x60⟩
  teonParam := none
  fonts := []

/-- The example parameters meet the constraints. -/
theorem exampleRaw_ok : rawParamsOk exampleRaw = true := by decide

/-- The implementation's parameters, OPEN in the spec (00_scope.md R8): a constant with no body, so no proof can see
any of its values (log 1). -/
opaque rawParams : RawParams

/-- The implementation's parameters, as far as they meet the constraints of R8. Every admitted parameter set is a
possible value of this constant. -/
def params : Params :=
  if h : rawParamsOk rawParams = true then ⟨rawParams, h⟩ else ⟨exampleRaw, exampleRaw_ok⟩

/-- The allocator's answer to the n-th draw (42_transfer_window.md R139, D21): a free value, no law. -/
opaque allocAnswer : Nat → Bool

/-- The transport's answer to the n-th draw: has the outstanding transfer completed? A free value, no law
(42_transfer_window.md R135). -/
opaque transportAnswer : Nat → Bool

/-- Byte i of the buffer allocated at the n-th draw: "BUF_DATA <- any n bytes" (42_transfer_window.md R139). -/
opaque freshByte : Nat → Nat → Byte

end Config

end Sys2Proof
end

