-- ==== Sys2Proof/Syntax.lean ====
section
/-! DEFINITION. The 20 commands of HGR-v7, one constructor per row of spec/opcode_table.json, with the operands of
30_encoding.md R85 in their order. COORD and EXT operands are the operand words themselves; the machine reads them
through `coord` (sext_16, R82). -/

namespace Sys2Proof

/-- A command (30_encoding.md R80, R84, R85). -/
inductive Instr where
  /-- INIT panel, rot, hint (R103). -/
  | init (panel rot : Byte) (hint : BitVec 32)
  /-- DEINIT (R106). -/
  | deinit
  /-- SET_ROTATION rot (R107). -/
  | setRotation (rot : Byte)
  /-- GET_GEOMETRY (R108). -/
  | getGeometry
  /-- INVERT on (R109). -/
  | invert (on : Bool)
  /-- TEARING on (R110). -/
  | tearing (on : Bool)
  /-- FILL_SCREEN c (R165). -/
  | fillScreen (c : Color)
  /-- DRAW_PIXEL x, y, c (R166). -/
  | drawPixel (x y : Word) (c : Color)
  /-- DRAW_LINE x0, y0, x1, y1, c (R167). -/
  | drawLine (x0 y0 x1 y1 : Word) (c : Color)
  /-- DRAW_HLINE x, y, w, c (R168). -/
  | drawHLine (x y w : Word) (c : Color)
  /-- DRAW_VLINE x, y, h, c (R169). -/
  | drawVLine (x y h : Word) (c : Color)
  /-- DRAW_RECT x, y, w, h, c (R170). -/
  | drawRect (x y w h : Word) (c : Color)
  /-- FILL_RECT x, y, w, h, c (R171). -/
  | fillRect (x y w h : Word) (c : Color)
  /-- DRAW_CIRCLE x0, y0, r, c (R172). -/
  | drawCircle (x0 y0 r : Word) (c : Color)
  /-- FILL_CIRCLE x0, y0, r, c (R173). -/
  | fillCircle (x0 y0 r : Word) (c : Color)
  /-- DRAW_TRIANGLE x1, y1, x2, y2, x3, y3, c (R174). -/
  | drawTriangle (x1 y1 x2 y2 x3 y3 : Word) (c : Color)
  /-- FILL_TRIANGLE x1, y1, x2, y2, x3, y3, c (R175). -/
  | fillTriangle (x1 y1 x2 y2 x3 y3 : Word) (c : Color)
  /-- DRAW_CHAR x, y, ch, font, fg, bg (R208). -/
  | drawChar (x y : Word) (ch font : Byte) (fg bg : Color)
  /-- DRAW_STRING x, y, font, fg, bg, characters (R209). -/
  | drawString (x y : Word) (font : Byte) (fg bg : Color) (chars : List Byte)
  /-- GET_TEXT_BOUNDS font, characters (R212). -/
  | getTextBounds (font : Byte) (chars : List Byte)
  deriving DecidableEq, Repr

end Sys2Proof
end

