-- ==== Sys2Proof/WellFormed.lean ====
section
/-! DEFINITION. Which terms of `Instr` are commands: a character list carries its length in a COUNT word, so it has
at most 65535 characters (30_encoding.md R82, R83). Every other operand's type is exactly its encoding's range. -/

namespace Sys2Proof

/-- A character list fits its COUNT word (30_encoding.md R82: 0 <= n <= 65535). -/
def charsFit (chars : List Byte) : Bool := chars.length < 65536

/-- The well-formed commands. -/
def wellFormed : Instr → Bool
  | .init _ _ _ => true
  | .deinit => true
  | .setRotation _ => true
  | .getGeometry => true
  | .invert _ => true
  | .tearing _ => true
  | .fillScreen _ => true
  | .drawPixel _ _ _ => true
  | .drawLine _ _ _ _ _ => true
  | .drawHLine _ _ _ _ => true
  | .drawVLine _ _ _ _ => true
  | .drawRect _ _ _ _ _ => true
  | .fillRect _ _ _ _ _ => true
  | .drawCircle _ _ _ _ => true
  | .fillCircle _ _ _ _ => true
  | .drawTriangle _ _ _ _ _ _ _ => true
  | .fillTriangle _ _ _ _ _ _ _ => true
  | .drawChar _ _ _ _ _ _ => true
  | .drawString _ _ _ _ _ chars => charsFit chars
  | .getTextBounds _ chars => charsFit chars

end Sys2Proof
end

