-- ==== Sys2Proof/Decode.lean ====
section
/-! DEFINITION. The command decoder and encoder (30_encoding.md). `decode` is total on every list of words; it
answers a command, or the fault the words raise, with its FAULT_ARG, in the priority of 60_exceptions.md R236
items 1 to 4. -/

namespace Sys2Proof

/-- `word[7:0]`. -/
def lowByte (w : Word) : Byte := w.extractLsb' 0 8

/-- `word[15:8]`. -/
def highByte (w : Word) : Byte := w.extractLsb' 8 8

/-- A word from its two byte fields, high byte first. -/
def wordOf (hi lo : Byte) : Word := hi ++ lo

/-- `word[15:1]` of a FLAG word, reserved (30_encoding.md R82). -/
def flagReserved (w : Word) : BitVec 15 := w.extractLsb' 1 15

/-- `word[0]` of a FLAG word. -/
def flagBit (w : Word) : Bool := w.getLsbD 0

/-- The FLAG word of a boolean. -/
def flagWord (on : Bool) : Word := if on then 1 else 0

/-- How many words hold n characters: ceil(n/2) (30_encoding.md R83). -/
def charWords (n : Nat) : Nat := (n + 1) / 2

/-- Pack characters two per word, low byte first, padding an odd list with 0x00 (30_encoding.md R83). -/
def packChars : List Byte → List Word
  | [] => []
  | [a] => [wordOf 0 a]
  | a :: b :: rest => wordOf b a :: packChars rest

/-- The first n characters packed in a list of words (30_encoding.md R83). -/
def unpackChars : Nat → List Word → List Byte
  | 0, _ => []
  | _, [] => []
  | 1, w :: _ => [lowByte w]
  | n + 2, w :: ws => lowByte w :: highByte w :: unpackChars n ws

/-- What the decoder answers. -/
inductive Decoded where
  /-- The words begin with this command. -/
  | command (i : Instr)
  /-- The words raise this fault with this FAULT_ARG (60_exceptions.md R231). -/
  | malformed (code : ErrCode) (arg : Word)
  deriving DecidableEq, Repr

/-- TRUNCATED, with FAULT_ARG = trunc_16 of the number of words left from CP (60_exceptions.md R231). -/
def truncatedAt (ws : List Word) : Decoded := .malformed .truncated (BitVec.ofNat 16 ws.length)

/-- RESERVED_FIELD at word index i (60_exceptions.md R231). -/
def reservedAt (i : Nat) : Decoded := .malformed .reservedField (BitVec.ofNat 16 i)

/-- A header whose OPC is listed: RSV must be 0 (30_encoding.md R81). -/
def listed (h : Word) (k : Decoded) : Decoded := if highByte h ≠ 0 then reservedAt 0 else k

/-- The padding byte of an odd character list, if n is odd (30_encoding.md R83). -/
def padByte (n : Nat) (ws : List Word) : Byte := if n % 2 = 1 then highByte (ws.getD (n / 2) 0) else 0

/-- DRAW_STRING's words after the COUNT word (30_encoding.md R86, R88): the whole length, then op[3][15:8], then the
padding byte, lowest word index first. -/
def decodeString (ws : List Word) (x y f : Word) (fg bg : Color) (n : Nat) (rest : List Word) : Decoded :=
  if rest.length < charWords n then truncatedAt ws
  else if highByte f ≠ 0 then reservedAt 3
  else if padByte n rest ≠ 0 then reservedAt (7 + n / 2)
  else .command (.drawString x y (lowByte f) fg bg (unpackChars n rest))

/-- GET_TEXT_BOUNDS's words after the COUNT word (30_encoding.md R86, R88). -/
def decodeBounds (ws : List Word) (f : Word) (n : Nat) (rest : List Word) : Decoded :=
  if rest.length < charWords n then truncatedAt ws
  else if highByte f ≠ 0 then reservedAt 1
  else if padByte n rest ≠ 0 then reservedAt (3 + n / 2)
  else .command (.getTextBounds (lowByte f) (unpackChars n rest))

/-- The command at the head of `h :: ops`, by the header's OPC (30_encoding.md R84, R85, R86). -/
def decodeOps (h : Word) (ops : List Word) : Decoded :=
  match (lowByte h).toNat with
  | 0x01 => listed h <| match ops with
    | p :: lo :: hi :: _ => .command (.init (lowByte p) (highByte p) (hi ++ lo))
    | _ => truncatedAt (h :: ops)
  | 0x02 => listed h <| .command .deinit
  | 0x03 => listed h <| match ops with
    | r :: _ => if highByte r ≠ 0 then reservedAt 1 else .command (.setRotation (lowByte r))
    | _ => truncatedAt (h :: ops)
  | 0x04 => listed h <| .command .getGeometry
  | 0x05 => listed h <| match ops with
    | f :: _ => if flagReserved f ≠ 0 then reservedAt 1 else .command (.invert (flagBit f))
    | _ => truncatedAt (h :: ops)
  | 0x06 => listed h <| match ops with
    | f :: _ => if flagReserved f ≠ 0 then reservedAt 1 else .command (.tearing (flagBit f))
    | _ => truncatedAt (h :: ops)
  | 0x10 => listed h <| match ops with
    | c :: _ => .command (.fillScreen c)
    | _ => truncatedAt (h :: ops)
  | 0x11 => listed h <| match ops with
    | x :: y :: c :: _ => .command (.drawPixel x y c)
    | _ => truncatedAt (h :: ops)
  | 0x12 => listed h <| match ops with
    | x0 :: y0 :: x1 :: y1 :: c :: _ => .command (.drawLine x0 y0 x1 y1 c)
    | _ => truncatedAt (h :: ops)
  | 0x13 => listed h <| match ops with
    | x :: y :: w :: c :: _ => .command (.drawHLine x y w c)
    | _ => truncatedAt (h :: ops)
  | 0x14 => listed h <| match ops with
    | x :: y :: hh :: c :: _ => .command (.drawVLine x y hh c)
    | _ => truncatedAt (h :: ops)
  | 0x15 => listed h <| match ops with
    | x :: y :: w :: hh :: c :: _ => .command (.drawRect x y w hh c)
    | _ => truncatedAt (h :: ops)
  | 0x16 => listed h <| match ops with
    | x :: y :: w :: hh :: c :: _ => .command (.fillRect x y w hh c)
    | _ => truncatedAt (h :: ops)
  | 0x17 => listed h <| match ops with
    | x0 :: y0 :: r :: c :: _ => .command (.drawCircle x0 y0 r c)
    | _ => truncatedAt (h :: ops)
  | 0x18 => listed h <| match ops with
    | x0 :: y0 :: r :: c :: _ => .command (.fillCircle x0 y0 r c)
    | _ => truncatedAt (h :: ops)
  | 0x19 => listed h <| match ops with
    | x1 :: y1 :: x2 :: y2 :: x3 :: y3 :: c :: _ => .command (.drawTriangle x1 y1 x2 y2 x3 y3 c)
    | _ => truncatedAt (h :: ops)
  | 0x1A => listed h <| match ops with
    | x1 :: y1 :: x2 :: y2 :: x3 :: y3 :: c :: _ => .command (.fillTriangle x1 y1 x2 y2 x3 y3 c)
    | _ => truncatedAt (h :: ops)
  | 0x20 => listed h <| match ops with
    | x :: y :: cf :: fg :: bg :: _ => .command (.drawChar x y (lowByte cf) (highByte cf) fg bg)
    | _ => truncatedAt (h :: ops)
  | 0x21 => listed h <| match ops with
    | x :: y :: f :: fg :: bg :: n :: rest => decodeString (h :: ops) x y f fg bg n.toNat rest
    | _ => truncatedAt (h :: ops)
  | 0x22 => listed h <| match ops with
    | f :: n :: rest => decodeBounds (h :: ops) f n.toNat rest
    | _ => truncatedAt (h :: ops)
  | _ => .malformed .illegalCommand h

/-- The command at the head of a list of words, or the fault it raises (30_encoding.md R80 to R88). The engine never
decodes an empty list: it idles there (70_reset_and_hazards.md R272). -/
def decode (ws : List Word) : Decoded :=
  match ws with
  | [] => truncatedAt []
  | h :: ops => decodeOps h ops

/-- The length of a command in words (30_encoding.md R85, R86). -/
def cmdLen : Instr → Nat
  | .init _ _ _ => 4
  | .deinit => 1
  | .setRotation _ => 2
  | .getGeometry => 1
  | .invert _ => 2
  | .tearing _ => 2
  | .fillScreen _ => 2
  | .drawPixel _ _ _ => 4
  | .drawLine _ _ _ _ _ => 6
  | .drawHLine _ _ _ _ => 5
  | .drawVLine _ _ _ _ => 5
  | .drawRect _ _ _ _ _ => 6
  | .fillRect _ _ _ _ _ => 6
  | .drawCircle _ _ _ _ => 5
  | .fillCircle _ _ _ _ => 5
  | .drawTriangle _ _ _ _ _ _ _ => 8
  | .fillTriangle _ _ _ _ _ _ _ => 8
  | .drawChar _ _ _ _ _ _ => 6
  | .drawString _ _ _ _ _ chars => 7 + charWords chars.length
  | .getTextBounds _ chars => 3 + charWords chars.length

/-- The words of a command (30_encoding.md R81, R84, R85). -/
def encode : Instr → List Word
  | .init panel rot hint => [0x0001, wordOf rot panel, hint.extractLsb' 0 16, hint.extractLsb' 16 16]
  | .deinit => [0x0002]
  | .setRotation rot => [0x0003, wordOf 0 rot]
  | .getGeometry => [0x0004]
  | .invert on => [0x0005, flagWord on]
  | .tearing on => [0x0006, flagWord on]
  | .fillScreen c => [0x0010, c]
  | .drawPixel x y c => [0x0011, x, y, c]
  | .drawLine x0 y0 x1 y1 c => [0x0012, x0, y0, x1, y1, c]
  | .drawHLine x y w c => [0x0013, x, y, w, c]
  | .drawVLine x y h c => [0x0014, x, y, h, c]
  | .drawRect x y w h c => [0x0015, x, y, w, h, c]
  | .fillRect x y w h c => [0x0016, x, y, w, h, c]
  | .drawCircle x0 y0 r c => [0x0017, x0, y0, r, c]
  | .fillCircle x0 y0 r c => [0x0018, x0, y0, r, c]
  | .drawTriangle x1 y1 x2 y2 x3 y3 c => [0x0019, x1, y1, x2, y2, x3, y3, c]
  | .fillTriangle x1 y1 x2 y2 x3 y3 c => [0x001A, x1, y1, x2, y2, x3, y3, c]
  | .drawChar x y ch font fg bg => [0x0020, x, y, wordOf font ch, fg, bg]
  | .drawString x y font fg bg chars =>
    [0x0021, x, y, wordOf 0 font, fg, bg, BitVec.ofNat 16 chars.length] ++ packChars chars
  | .getTextBounds font chars => [0x0022, wordOf 0 font, BitVec.ofNat 16 chars.length] ++ packChars chars

/-- The first k words of the bits w, word 0 in bits 15..0. -/
def wordsOfBits : Nat → Nat → List Word
  | 0, _ => []
  | k + 1, w => BitVec.ofNat 16 w :: wordsOfBits k (w / 65536)

/-- The words of an instruction given as an opcode-table number: its low nbits bits, then operand words of zeros up to
eight words, the longest command whose COUNT is zero (30_encoding.md R85). -/
def tableWords (nbits w : Nat) : List Word := wordsOfBits 8 (w % 2 ^ nbits)

/-- The command the decoder reads from an opcode-table number, none where it raises a fault. -/
def decodeTableWord (nbits w : Nat) : Option Instr :=
  match decode (tableWords nbits w) with
  | .command i => some i
  | .malformed _ _ => none

end Sys2Proof
end

