-- ==== Sys2Proof/Machine/State.lean ====
section
/-! DEFINITION. The state of HGR-v7 (10_state.md), as plain data; the reasons a step can stop; the state after reset
(10_state.md R36). INVENTORY.md '## State' lists every field with its rule. -/

namespace Sys2Proof.Machine

/-- STATUS.STATE (10_state.md R28). -/
inductive EngineState where
  /-- 0: after reset and after DEINIT. -/
  | uninit
  /-- 1: after a successful INIT. -/
  | ready
  /-- 2: after an INIT whose buffer request was refused. -/
  | allocFailed
  /-- 3: after a fault; no further command until reset. -/
  | halted
  deriving DecidableEq, Repr

/-- Allocator events (42_transfer_window.md R139). -/
inductive AllocEvent where
  /-- ALLOC(n, ok): a request for n bytes and the allocator's answer. -/
  | alloc (n : Nat) (granted : Bool)
  /-- FREE: the release of the present buffer. -/
  | free
  deriving DecidableEq, Repr

/-- One entry of the paint log: a pixel write in panel coordinates (42_transfer_window.md R146). -/
structure Paint where
  x : Int
  y : Int
  color : Color
  deriving DecidableEq, Repr

/-- The controller pixel memory as the wire tells it (20_memory.md R60, 42_transfer_window.md R147): pairs of a key
and a colour, in strictly rising order of keys; the key of (x, y) is y * 65536 + x; an unlisted key is `unknown`. -/
abbrev Memory := List (Nat × Color)

/-- How a command ends, once its last wire event has been emitted (20_memory.md R73). -/
inductive Ending where
  /-- cp <- cp + len, and nothing else. -/
  | complete (len : Nat)
  /-- INIT succeeded: STATE <- READY, ERRCODE <- 0x00, cp <- cp + len (41_config.md R103); FB restarts (R147). -/
  | initialised (len : Nat)
  /-- SET_ROTATION: cp <- cp + len (41_config.md R107); FB restarts (R147). -/
  | rotated (len : Nat)
  /-- A fault after events: FONT_FAULT in DRAW_STRING (60_exceptions.md R235). -/
  | faulted (code : ErrCode) (arg : Word)
  deriving DecidableEq, Repr

/-- One thing a running command does: it emits a wire event (42_transfer_window.md R130), or writes a buffer. -/
inductive Action where
  /-- `emit e`. -/
  | emit (e : WireEvent)
  /-- `Refresh(c)`, at the start of a StreamFill (42_transfer_window.md R142, R143). -/
  | refresh (c : Color)
  /-- The decoded glyph goes into GLYPH_BUF, before its Txn (44_text.md R206). -/
  | loadGlyph (ks : List Color)
  deriving DecidableEq, Repr

/-- A running command that waits for a transfer (42_transfer_window.md R135): what it has still to do, in order, and
how it ends. -/
structure Running where
  queue : List Action
  ending : Ending
  deriving DecidableEq, Repr

/-- The machine's state. -/
structure State where
  /-- CP (R22). -/
  cp : BitVec 32
  /-- The operand latch op[0..len-1] (R21); empty between commands. -/
  latch : List Word
  /-- STATUS.STATE (R24, R28). -/
  engine : EngineState
  /-- STATUS.ERRCODE (R24). -/
  errCode : ErrCode
  /-- FAULT_CP (R25). -/
  faultCp : BitVec 32
  /-- FAULT_ARG (R25). -/
  faultArg : Word
  /-- RES0..RES3 (R23). -/
  res0 : Word
  res1 : Word
  res2 : Word
  res3 : Word
  /-- CFG_WIDTH, CFG_HEIGHT, CFG_XSHIFT, CFG_YSHIFT (R26). -/
  cfgWidth : Word
  cfgHeight : Word
  cfgXshift : Word
  cfgYshift : Word
  /-- CFG_ROT (R27). -/
  cfgRot : BitVec 2
  /-- CFG_PANEL (R27): the value 3 is never written (log 11). -/
  cfgPanel : Fin 3
  /-- BUF_PRESENT (R29). -/
  bufPresent : Bool
  /-- BUF_BYTES (R29). -/
  bufBytes : BitVec 32
  /-- BUF_DATA (R29). -/
  bufData : List Byte
  /-- BUF_TAG (R29). -/
  bufTag : Option Color
  /-- GLYPH_BUF (R31): 1599 slots; a slot's first wire byte is its [15:8] (log 9). -/
  glyphBuf : List Word
  /-- SEL (R32). -/
  sel : Bool
  /-- DC (R32). -/
  dc : Line
  /-- XFER_BUSY (R33). -/
  xferBusy : Bool
  /-- CMDS (20_memory.md R61). -/
  cmds : List Word
  /-- FB (42_transfer_window.md R147). -/
  fb : Memory
  /-- The wire trace (00_scope.md R14 (a)). -/
  wire : List WireEvent
  /-- The allocator trace (00_scope.md R14 (d)). -/
  alloc : List AllocEvent
  /-- The paint log (00_scope.md R14 (c)). -/
  paintLog : List Paint
  /-- The running command, if one waits for a transfer (42_transfer_window.md R135). -/
  running : Option Running
  /-- The implementation's parameters (00_scope.md R8); written by no step. -/
  par : Params
  /-- The allocator's coming answers, an input (00_scope.md R6 (4)); when empty, `Config.allocAnswer` (log 4). -/
  allocScript : List Bool
  /-- The transport's coming answers, an input (00_scope.md R6 (3)); when empty, `Config.transportAnswer` (log 5). -/
  transportScript : List Bool
  /-- How many draws have been taken (log 7). -/
  draws : Nat
  deriving DecidableEq, Repr

/-- Why a step stops with no next state. HGR's own faults are no such stop: they are taken (60_exceptions.md R233). -/
inductive Fault where
  /-- Raised by `step` when CP lies beyond the end of the command stream, a state the spec gives no meaning and no run
  reaches (log 14). Safe: the model stops where the hardware has no behaviour. -/
  | cpBeyondStream
  deriving DecidableEq, Repr

/-- Why a step or a host move has no meaning. -/
inductive Refusal where
  /-- An arm of `exec` not modelled yet (none is left). Safe. -/
  | notModelled (mnemonic : String)
  /-- Raised by `step` and by a host append: the stream has more than 2^32 - 1 words; "the model refuses such a
  stream" (10_state.md R22). Safe. -/
  | streamTooLong
  /-- Raised by a host append while the engine is not idle at the end of the stream: "the model treats such a stream as
  refused" (20_memory.md R76, D56). Safe. -/
  | streamInUse
  deriving DecidableEq, Repr

/-- The number of slots of GLYPH_BUF, `GLYPH_THRESHOLD - 1` (10_state.md R31). -/
abbrev glyphSlots : Nat := 1599

/-- The state after reset (10_state.md R36, 70_reset_and_hazards.md R260). DC and GLYPH_BUF are unspecified there:
the values here are the model's (log 8, 9). -/
def State.reset : State where
  cp := 0
  latch := []
  engine := .uninit
  errCode := .none
  faultCp := 0
  faultArg := 0
  res0 := 0
  res1 := 0
  res2 := 0
  res3 := 0
  cfgWidth := 0
  cfgHeight := 0
  cfgXshift := 0
  cfgYshift := 0
  cfgRot := 0
  cfgPanel := 0
  bufPresent := false
  bufBytes := 0
  bufData := []
  bufTag := none
  glyphBuf := List.replicate glyphSlots 0
  sel := false
  dc := .cmd
  xferBusy := false
  cmds := []
  fb := []
  wire := []
  alloc := []
  paintLog := []
  running := none
  par := Config.params
  allocScript := []
  transportScript := []
  draws := 0

end Sys2Proof.Machine
end

