-- ==== Sys2Proof/Machine/Flags.lean ====
section
/-! DEFINITION. HGR has no flags (10_state.md R34): STATUS is the only status word. Its layout (R24), the error codes
(60_exceptions.md R231), and which commands each engine state accepts (R232). -/

namespace Sys2Proof.Machine

/-- STATUS.STATE's value (10_state.md R24). -/
def engineBits : EngineState → BitVec 2
  | .uninit => 0
  | .ready => 1
  | .allocFailed => 2
  | .halted => 3

/-- STATUS.ERRCODE's value (60_exceptions.md R231). -/
def errBits : ErrCode → Byte
  | .none => 0x00
  | .allocError => 0x01
  | .illegalCommand => 0x10
  | .reservedField => 0x11
  | .truncated => 0x12
  | .notReady => 0x13
  | .badPanel => 0x14
  | .fontFault => 0x15

/-- STATUS: ERRCODE in [15:8], zero in [7:2], STATE in [1:0] (10_state.md R24). -/
def statusWord (s : State) : Word := errBits s.errCode ++ (0#6 ++ engineBits s.engine)

/-- In which states a command is accepted (60_exceptions.md R232, the table's two rows). -/
inductive Gate where
  /-- INIT, DEINIT, GET_GEOMETRY, GET_TEXT_BOUNDS: in UNINIT, READY and ALLOC_FAILED. -/
  | always
  /-- Every other command: in READY only. -/
  | readyOnly
  deriving DecidableEq, Repr

/-- What a state does with a decoded command. -/
inductive Acceptance where
  | accepted
  | notReady
  /-- HALTED: "not decoded" (60_exceptions.md R232, R237). -/
  | notDecoded
  deriving DecidableEq, Repr

/-- The table of 60_exceptions.md R232. -/
def accepts : Gate → EngineState → Acceptance
  | .always, .uninit => .accepted
  | .always, .ready => .accepted
  | .always, .allocFailed => .accepted
  | .always, .halted => .notDecoded
  | .readyOnly, .uninit => .notReady
  | .readyOnly, .ready => .accepted
  | .readyOnly, .allocFailed => .notReady
  | .readyOnly, .halted => .notDecoded

/-- The row of 60_exceptions.md R232 a command stands in. -/
def gateOf : Instr → Gate
  | .init _ _ _ => .always
  | .deinit => .always
  | .getGeometry => .always
  | .getTextBounds _ _ => .always
  | .setRotation _ => .readyOnly
  | .invert _ => .readyOnly
  | .tearing _ => .readyOnly
  | .fillScreen _ => .readyOnly
  | .drawPixel _ _ _ => .readyOnly
  | .drawLine _ _ _ _ _ => .readyOnly
  | .drawHLine _ _ _ _ => .readyOnly
  | .drawVLine _ _ _ _ => .readyOnly
  | .drawRect _ _ _ _ _ => .readyOnly
  | .fillRect _ _ _ _ _ => .readyOnly
  | .drawCircle _ _ _ _ => .readyOnly
  | .fillCircle _ _ _ _ => .readyOnly
  | .drawTriangle _ _ _ _ _ _ _ => .readyOnly
  | .fillTriangle _ _ _ _ _ _ _ => .readyOnly
  | .drawChar _ _ _ _ _ _ => .readyOnly
  | .drawString _ _ _ _ _ _ => .readyOnly

/-- The OPC of a command (30_encoding.md R84), NOT_READY's FAULT_ARG (60_exceptions.md R231). -/
def opcOf : Instr → Word
  | .init _ _ _ => 0x01
  | .deinit => 0x02
  | .setRotation _ => 0x03
  | .getGeometry => 0x04
  | .invert _ => 0x05
  | .tearing _ => 0x06
  | .fillScreen _ => 0x10
  | .drawPixel _ _ _ => 0x11
  | .drawLine _ _ _ _ _ => 0x12
  | .drawHLine _ _ _ _ => 0x13
  | .drawVLine _ _ _ _ => 0x14
  | .drawRect _ _ _ _ _ => 0x15
  | .fillRect _ _ _ _ _ => 0x16
  | .drawCircle _ _ _ _ => 0x17
  | .fillCircle _ _ _ _ => 0x18
  | .drawTriangle _ _ _ _ _ _ _ => 0x19
  | .fillTriangle _ _ _ _ _ _ _ => 0x1A
  | .drawChar _ _ _ _ _ _ => 0x20
  | .drawString _ _ _ _ _ _ => 0x21
  | .getTextBounds _ _ => 0x22

end Sys2Proof.Machine
end

