-- ==== Sys2Proof/Machine/Operands.lean ====
section
/-! DEFINITION. Operand kinds (30_encoding.md R82), byte order (20_memory.md R65, R66) and width reduction
(00_scope.md R10). -/

namespace Sys2Proof.Machine

/-- COORD and EXT operands: `sext_16(word)` (30_encoding.md R82). -/
def coord (w : Word) : Int := w.toInt

/-- `zext_16` of a register, as an `int`: W, H and the shifts (10_state.md R26). -/
def nat16 (w : Word) : Int := (w.toNat : Int)

/-- `sext_8` of a glyph offset (44_text.md R203). -/
def offset8 (b : Byte) : Int := b.toInt

/-- `zext_8`, as an `int`. -/
def nat8 (b : Byte) : Int := (b.toNat : Int)

/-- `trunc_16(v) = v mod 2^16` (00_scope.md R10). -/
def trunc16 (v : Int) : Word := BitVec.ofInt 16 v

/-- `wire16(c) = [c[15:8], c[7:0]]`, high byte first (20_memory.md R65). -/
def wire16 (c : Word) : List Byte := [c.extractLsb' 8 8, c.extractLsb' 0 8]

/-- The colour of two wire bytes (42_transfer_window.md R146: `p_{2i}*256 + p_{2i+1}`). -/
def colorOf (hi lo : Byte) : Color := hi ++ lo

/-- `NormRot(v)`: v if v is 0..3, else 0 (41_config.md R101). -/
def normRot (v : Byte) : BitVec 2 := if v.toNat < 4 then BitVec.ofNat 2 v.toNat else 0

/-- The entry of a `PerRot` for a rotation. -/
def perRot {α : Type} (p : PerRot α) (r : BitVec 2) : α :=
  match r.toNat with
  | 0 => p.r0
  | 1 => p.r1
  | 2 => p.r2
  | _ => p.r3

/-- `P_CALIB(p, r)` (41_config.md R100). -/
def calibAt (c : Calib) (p : Fin 3) (r : BitVec 2) : Geometry :=
  match p with
  | 0 => perRot c.panel0 r
  | 1 => perRot c.panel1 r
  | 2 => perRot c.panel2 r

/-- `P_FONTS(id)` (20_memory.md R62). -/
def fontAt (fonts : List (Byte × Font)) (id : Byte) : Option Font := fonts.lookup id

/-- The integers a, a+1, ..., b-1 in order. -/
def intRange (a b : Int) : List Int := (List.range (b - a).toNat).map (fun k : Nat => a + (k : Int))

end Sys2Proof.Machine
end

