-- ==== Sys2Proof/Machine/Ops.lean ====
section
/-! DEFINITION. The named operations over the state: the controller pixel memory FB, the views of the wire
(42_transfer_window.md R134, R146), fault entry (60_exceptions.md R233) and the reset that alone leaves HALTED (R237),
the acceptance of a command (R232), and how a command's actions, wire events and buffer writes, are done up to a wait
(42_transfer_window.md R135, R142, 44_text.md R206). -/

namespace Sys2Proof.Machine

/-! ## The controller pixel memory (42_transfer_window.md R147) -/

/-- The key of a visible panel coordinate. -/
def fbKey (x y : Int) : Nat := y.toNat * 65536 + x.toNat

/-- What a key holds; none is `unknown`. -/
def memRead : Memory → Nat → Option Color
  | [], _ => none
  | (k, v) :: m, a => if a = k then some v else memRead m a

/-- Write one key, keeping the keys strictly rising. -/
def memWrite (a : Nat) (c : Color) : Memory → Memory
  | [] => [(a, c)]
  | (k, v) :: m =>
    if a < k then (a, c) :: (k, v) :: m
    else if a = k then (a, c) :: m
    else (k, v) :: memWrite a c m

/-- Write one key unless it is listed. -/
def memAdd (a : Nat) (c : Color) : Memory → Memory
  | [] => [(a, c)]
  | (k, v) :: m =>
    if a < k then (a, c) :: (k, v) :: m
    else if a = k then (k, v) :: m
    else (k, v) :: memAdd a c m

/-- What a list of writes leaves, from the last to the first: the last write of a key wins (R147). -/
def memLatest (ws : List (Nat × Color)) : Memory := ws.foldr (fun e m => memAdd e.1 e.2 m) []

/-- The entries of the first memory over those of the second. -/
def memMerge : Memory → Memory → Memory
  | [], m => m
  | (k, v) :: n, m =>
    m.takeWhile (fun e => decide (e.1 < k)) ++ (k, v) :: memMerge n (m.dropWhile (fun e => decide (e.1 ≤ k)))

/-- The canonical form: keys strictly rising. -/
def memWf : Memory → Bool
  | [] => true
  | [_] => true
  | (k, _) :: (k', v') :: m => decide (k < k') && memWf ((k', v') :: m)

/-- A panel coordinate is visible (00_scope.md R13). -/
def visible (s : State) (x y : Int) : Bool :=
  decide (0 ≤ x) && decide (x < nat16 s.cfgWidth) && decide (0 ≤ y) && decide (y < nat16 s.cfgHeight)

/-- FB(x, y); none is `unknown` (42_transfer_window.md R147). -/
def fbRead (s : State) (x y : Int) : Option Color :=
  if 0 ≤ x ∧ x < 65536 ∧ 0 ≤ y then memRead s.fb (fbKey x y) else none

/-- The writes a list of paint-log entries makes to FB: FB maps visible panel coordinates only (R147). -/
def fbWrites (s : State) (ps : List Paint) : List (Nat × Color) :=
  (ps.filter (fun p => visible s p.x p.y)).map (fun p => (fbKey p.x p.y, p.color))

/-- FB after a list of paint-log entries, each setting FB(x, y) <- color, "the last write wins" (R147):
`Laws.paintFb_eq_foldl` says that this is one `memWrite` after the other. -/
def paintFb (s : State) (ps : List Paint) : Memory := memMerge (memLatest (fbWrites s ps)) s.fb

/-! ## The frame view and the paint log (42_transfer_window.md R134, R146) -/

/-- A frame: the (dc, byte) pairs inside one bracket (00_scope.md R14). -/
abbrev Frame := List (Line × Byte)

/-- The frames a list of wire events closes. `dc` is the DC line before it, `opn` the open frame, if any (R134).
Where a SEL comes inside an open bracket (after a reset that cut one, or in P_INIT_SEQ), R134 does not say which frame
holds the pairs sent before it: here a frame starts at the last SEL before its DESEL, and those pairs are in no frame
(DESIGN CHOICE, log 21). So are the pairs of a bracket that no DESEL has closed. -/
def framesFrom : Line → Option Frame → List WireEvent → List Frame
  | _, _, [] => []
  | dc, _, .sel :: es => framesFrom dc (some []) es
  | dc, some f, .desel :: es => f :: framesFrom dc none es
  | dc, none, .desel :: es => framesFrom dc none es
  | _, opn, .dc l :: es => framesFrom l opn es
  | dc, some f, .xfer _ bs :: es => framesFrom dc (some (f ++ bs.map (fun b => (dc, b)))) es
  | dc, none, .xfer _ _ :: es => framesFrom dc none es
  | dc, opn, .rst _ :: es => framesFrom dc opn es
  | dc, opn, .delay _ :: es => framesFrom dc opn es

/-- DC after a list of events: what its last DC event sets (R130). -/
def dcAfter : Line → List WireEvent → Line
  | l, [] => l
  | _, .dc l :: es => dcAfter l es
  | l, .sel :: es => dcAfter l es
  | l, .desel :: es => dcAfter l es
  | l, .xfer _ _ :: es => dcAfter l es
  | l, .rst _ :: es => dcAfter l es
  | l, .delay _ :: es => dcAfter l es

/-- The open frame after a list of wire events, as `framesFrom` goes through it (R134; log 21). -/
def openAfter : Line → Option Frame → List WireEvent → Option Frame
  | _, opn, [] => opn
  | dc, _, .sel :: es => openAfter dc (some []) es
  | dc, _, .desel :: es => openAfter dc none es
  | _, opn, .dc l :: es => openAfter l opn es
  | dc, opn, .xfer _ bs :: es => openAfter dc (opn.map (· ++ bs.map (fun b => (dc, b)))) es
  | dc, opn, .rst _ :: es => openAfter dc opn es
  | dc, opn, .delay _ :: es => openAfter dc opn es

/-- The frame view of the whole wire trace (00_scope.md R14 (b), 42_transfer_window.md R134). -/
def frameView (s : State) : List Frame := framesFrom State.reset.dc none s.wire

/-- The frames that events close when they join the wire trace: those the frame view gains by them (R134);
`Laws.frameView_emitAll` says so. They are read off the trace, not off SEL and DC, so that a reset inside a bracket,
which emits no event (70_reset_and_hazards.md R261), changes no frame. -/
def newFrames (s : State) (es : List WireEvent) : List Frame :=
  framesFrom (dcAfter State.reset.dc s.wire) (openAfter State.reset.dc none s.wire) es

/-- The data bytes of a list of pairs, none if one of them is a command byte. -/
def dataBytes : Frame → Option (List Byte)
  | [] => some []
  | (.data, b) :: f => (dataBytes f).map (b :: ·)
  | (.cmd, _) :: _ => none

/-- The colours of a byte stream, two bytes each, high byte first; none if the stream has an odd byte. -/
def pairColors : List Byte → Option (List Color)
  | [] => some []
  | [_] => none
  | hi :: lo :: bs => (pairColors bs).map (colorOf hi lo :: ·)

/-- A window transaction as the controller sees it (42_transfer_window.md R146). -/
structure WindowWrite where
  xs : Nat
  xe : Nat
  ys : Nat
  ye : Nat
  colors : List Color
  deriving DecidableEq, Repr

/-- The controller command bytes (42_transfer_window.md R131, from general knowledge there; log 20). -/
def cmdCASET : Byte := 0x2A
def cmdRASET : Byte := 0x2B
def cmdRAMWR : Byte := 0x2C
def cmdMADCTL : Byte := 0x36
def cmdINVOFF : Byte := 0x20
def cmdINVON : Byte := 0x21
def cmdTEOFF : Byte := 0x34
def cmdTEON : Byte := 0x35

/-- The window transaction a frame is, if it has the form of R146. R146 gives an address range that runs downwards
(xs > xe or ys > ye) no pixels: such a frame, which only P_INIT_SEQ can send, is no window here (DESIGN CHOICE,
log 22). -/
def windowOf : Frame → Option WindowWrite
  | (.cmd, c0) :: (.data, a1) :: (.data, a0) :: (.data, b1) :: (.data, b0)
      :: (.cmd, c1) :: (.data, r1) :: (.data, r0) :: (.data, d1) :: (.data, d0) :: (.cmd, c2) :: rest =>
    let xs := a1.toNat * 256 + a0.toNat
    let xe := b1.toNat * 256 + b0.toNat
    let ys := r1.toNat * 256 + r0.toNat
    let ye := d1.toNat * 256 + d0.toNat
    if c0 = cmdCASET ∧ c1 = cmdRASET ∧ c2 = cmdRAMWR ∧ xs ≤ xe ∧ ys ≤ ye then
      ((dataBytes rest).bind pairColors).map (fun ks => ⟨xs, xe, ys, ye, ks⟩)
    else none
  | _ => none

/-- The pixel writes of a window in row-major order, from pixel i on: pixel i goes to
(x0 + i mod wd, y0 + i div wd) (R146). What the controller does with a stream longer than its window, which only
P_INIT_SEQ can send, R146 leaves out: here the formula goes on, past the last row (DESIGN CHOICE, log 22). -/
def windowPixels (x0 y0 : Int) (wd : Nat) : Nat → List Color → List Paint
  | _, [] => []
  | i, c :: cs => ⟨x0 + ((i % wd : Nat) : Int), y0 + ((i / wd : Nat) : Int), c⟩ :: windowPixels x0 y0 wd (i + 1) cs

/-- The pixel writes of one frame in panel coordinates, under the shift in force (R146). -/
def framePaints (xshift yshift : Int) (f : Frame) : List Paint :=
  match windowOf f with
  | some w => windowPixels ((w.xs : Int) - xshift) ((w.ys : Int) - yshift) (w.xe - w.xs + 1) 0 w.colors
  | none => []

/-- The pixel writes that events make when they join the wire trace: those of the frames they close (R146). -/
def paintsOf (s : State) (es : List WireEvent) : List Paint :=
  (newFrames s es).flatMap (framePaints (nat16 s.cfgXshift) (nat16 s.cfgYshift))

/-! ## Fault entry and its only way out (60_exceptions.md R233, R237) -/

/-- `raise F(arg)`: fault entry. CP is not advanced, nothing is emitted, and RES0..RES3, CFG_* and BUF_* keep their
values. The operand latch holds no value between commands (10_state.md R21). -/
def raise (code : ErrCode) (arg : Word) (s : State) : State :=
  { s with engine := .halted, errCode := code, faultCp := s.cp, faultArg := arg, latch := [] }

/-- The engine reset, the only way out of HALTED (60_exceptions.md R237, 70_reset_and_hazards.md R260): every register
takes its reset value. It emits no event (R261), so the traces stand, and with the wire trace the paint log, which is
its view (R146): the frames an abandoned command has closed stay in it, and a bracket the reset cuts is no frame (R134;
log 21). The stream, the parameters and the other agents' coming answers are not the engine's (log 16). FB restarts
(R147). -/
def engineReset (s : State) : State :=
  { State.reset with
    cmds := s.cmds, wire := s.wire, alloc := s.alloc, paintLog := s.paintLog, par := s.par,
    allocScript := s.allocScript, transportScript := s.transportScript, draws := s.draws }

/-! ## Acceptance (60_exceptions.md R232) -/

/-- Run a command's body if the state accepts it; NOT_READY with the OPC if not; in HALTED nothing is decoded. -/
def gated (g : Gate) (opc : Word) (body : State → State) (s : State) : State :=
  match accepts g s.engine with
  | .accepted => body s
  | .notReady => raise .notReady opc s
  | .notDecoded => s

/-- `cp <- cp + len` (10_state.md R22); the latch empties (R21). -/
def advance (len : Nat) (s : State) : State := { s with cp := s.cp + BitVec.ofNat 32 len, latch := [] }

/-! ## Emitting wire events (42_transfer_window.md R130, R135) -/

/-- SEL after a list of events. -/
def selAfter : Bool → List WireEvent → Bool
  | b, [] => b
  | _, .sel :: es => selAfter true es
  | _, .desel :: es => selAfter false es
  | b, .dc _ :: es => selAfter b es
  | b, .xfer _ _ :: es => selAfter b es
  | b, .rst _ :: es => selAfter b es
  | b, .delay _ :: es => selAfter b es

/-- Pixel writes join the paint log and FB (R146, R147). -/
def paint (ps : List Paint) (s : State) : State :=
  { s with paintLog := s.paintLog ++ ps, fb := paintFb s ps }

/-- `emit` a list of events: they join the wire trace and set SEL and DC (R130), and the pixels of the frames they
close join the paint log and FB, which are views of the trace (00_scope.md R14 (c), R146, R147; log 13). -/
def emitAll (es : List WireEvent) (s : State) : State :=
  paint (paintsOf s es) { s with wire := s.wire ++ es, sel := selAfter s.sel es, dc := dcAfter s.dc es }

/-- Is the event an asynchronous transfer? -/
def isAsync : WireEvent → Bool
  | .xfer .async _ => true
  | _ => false

/-! ## The buffers' writes and a command's actions (42_transfer_window.md R142, 44_text.md R206) -/

/-- n slots holding c in wire order (42_transfer_window.md R142). -/
def fillBytes : Nat → Color → List Byte
  | 0, _ => []
  | n + 1, c => wire16 c ++ fillBytes n c

/-- `Refresh(c)`: the buffer holds c in every slot (42_transfer_window.md R142). -/
def refresh (c : Color) (s : State) : State :=
  { s with
    bufData := if s.bufTag = some c then s.bufData else fillBytes (s.bufBytes.toNat / 2) c
    bufTag := some c }

/-- The decoded glyph goes into GLYPH_BUF (44_text.md R206). What GLYPH_BUF holds between commands is unspecified
(10_state.md R31): here the glyph's colours stay in it, and the older contents of the slots after them, until the next
buffered glyph (DESIGN CHOICE, log 23). -/
def loadGlyph (ks : List Color) (s : State) : State :=
  { s with glyphBuf := ks ++ s.glyphBuf.drop ks.length }

/-- The wire events among a list of actions, in order. -/
def eventsOf : List Action → List WireEvent
  | [] => []
  | .emit e :: q => e :: eventsOf q
  | .refresh _ :: q => eventsOf q
  | .loadGlyph _ :: q => eventsOf q

/-- The buffers after a list of actions. -/
def bufferWrites : List Action → State → State
  | [], s => s
  | .emit _ :: q, s => bufferWrites q s
  | .refresh c :: q, s => bufferWrites q (refresh c s)
  | .loadGlyph ks :: q, s => bufferWrites q (loadGlyph ks s)

/-- A stretch of a command's actions, as one step: its events are emitted and its buffer writes done. The two touch
different state, so only the order of each kind shows here. -/
def runActions (q : List Action) (s : State) : State := emitAll (eventsOf q) (bufferWrites q s)

/-- The actions up to and including the first asynchronous transfer, and those after it; none if there is no such
transfer. -/
def splitAsync : List Action → List Action × Option (List Action)
  | [] => ([], none)
  | .emit e :: q =>
    if isAsync e then ([.emit e], some q)
    else (.emit e :: (splitAsync q).1, (splitAsync q).2)
  | .refresh c :: q => (.refresh c :: (splitAsync q).1, (splitAsync q).2)
  | .loadGlyph ks :: q => (.loadGlyph ks :: (splitAsync q).1, (splitAsync q).2)

/-- FB becomes `unknown` everywhere (R147). -/
def forgetFb (s : State) : State := { s with fb := [] }

/-- What a command does once its last event is emitted and its transfers have completed (20_memory.md R73). -/
def finish (e : Ending) (s : State) : State :=
  match e with
  | .complete len => advance len s
  | .initialised len => advance len { forgetFb s with engine := .ready, errCode := .none }
  | .rotated len => advance len (forgetFb s)
  | .faulted code arg => raise code arg s

/-- The engine does a running command's actions: to its end, or to the next asynchronous transfer, where
XFER_BUSY <- 1 and it waits, with every later action still to do (42_transfer_window.md R135, 70_reset_and_hazards.md
R267). -/
def drain (r : Running) (s : State) : State :=
  match splitAsync r.queue with
  | (now, none) => finish r.ending { runActions now s with running := none }
  | (now, some rest) => { runActions now s with xferBusy := true, running := some { r with queue := rest } }

/-- A command sends its wire events and ends (20_memory.md R72, R73). -/
def launch (es : List WireEvent) (e : Ending) (s : State) : State :=
  drain { queue := es.map .emit, ending := e } s

/-! ## The transport's step (42_transfer_window.md R135) -/

/-- The transport's answer to the engine's poll: has the outstanding transfer completed (log 5)? -/
def transportAnswer (s : State) : Bool := s.transportScript.headD (Config.transportAnswer s.draws)

/-- One step of the transport agent: it completes the outstanding transfer (XFER_BUSY <- 0), or it does not. -/
def transportStep (s : State) : State :=
  { s with xferBusy := !transportAnswer s, transportScript := s.transportScript.tail, draws := s.draws + 1 }

/-! ## Fetching (20_memory.md R61, R76) -/

/-- The command words from CP on. -/
def wordsAt (s : State) : List Word := s.cmds.drop s.cp.toNat

/-- The operand latch is loaded with the running command's words (10_state.md R21). -/
def loadLatch (i : Instr) (s : State) : State := { s with latch := (wordsAt s).take (cmdLen i) }

/-- The stream is one the engine can address: at most 2^32 - 1 words (10_state.md R22). -/
def streamOk (ws : List Word) : Bool := decide (ws.length < 4294967296)

/-- The words of a program placed at word index `at`, over what stands there. -/
def placeWords (cmds : List Word) (pos : Nat) (ws : List Word) : List Word :=
  (cmds ++ List.replicate (pos - cmds.length) 0).take pos ++ ws ++ cmds.drop (pos + ws.length)

end Sys2Proof.Machine
end

