-- ==== Sys2Proof/Machine/Pipeline.lean ====
section
/-! DEFINITION. The internal operations of 42_transfer_window.md: the transfer pipeline, the addressing-window encoder,
the buffer manager; and the drawing transactions the commands are built from. -/

namespace Sys2Proof.Machine

/-! ## The transfer pipeline (42_transfer_window.md R133) -/

/-- A byte list cut into pieces of at most k bytes; `fuel` bounds the number of pieces. -/
def pieces (k : Nat) : Nat → List Byte → List (List Byte)
  | 0, _ => []
  | fuel + 1, bs => if bs = [] then [] else bs.take k :: pieces k fuel (bs.drop k)

/-- The mode of a Write of n bytes (42_transfer_window.md R133, R135). -/
def writeMode (p : RawParams) (n : Nat) : XferMode :=
  if p.asyncEnable ∧ n > p.asyncThreshold then .async else .sync

/-- `Write(bytes)` (42_transfer_window.md R133). An empty list emits nothing. -/
def write (p : RawParams) (bs : List Byte) : List WireEvent :=
  (pieces p.maxXfer bs.length bs).map (.xfer (writeMode p bs.length))

/-- `WriteCmd(c, params)` (42_transfer_window.md R132). -/
def writeCmd (p : RawParams) (c : Byte) (args : List Byte) : List WireEvent :=
  .sel :: .dc .cmd :: write p [c] ++ (if args = [] then [] else .dc .data :: write p args) ++ [.desel]

/-! ## The addressing-window encoder (42_transfer_window.md R136, R137) -/

/-- A window in panel coordinates, corners inclusive. -/
structure Window where
  x0 : Int
  y0 : Int
  x1 : Int
  y1 : Int
  deriving DecidableEq, Repr

/-- `SetWindow(x0, y0, x1, y1)` (42_transfer_window.md R136). -/
def setWindow (s : State) (w : Window) : List WireEvent :=
  .dc .cmd :: write s.par.raw [cmdCASET]
    ++ .dc .data :: write s.par.raw
        (wire16 (trunc16 (w.x0 + nat16 s.cfgXshift)) ++ wire16 (trunc16 (w.x1 + nat16 s.cfgXshift)))
    ++ .dc .cmd :: write s.par.raw [cmdRASET]
    ++ .dc .data :: write s.par.raw
        (wire16 (trunc16 (w.y0 + nat16 s.cfgYshift)) ++ wire16 (trunc16 (w.y1 + nat16 s.cfgYshift)))
    ++ .dc .cmd :: write s.par.raw [cmdRAMWR]

/-- The frame of a window transaction: the 11 pairs of R136 for the controller window (xs..xe, ys..ye), then the
payload bytes as data. -/
def windowFrame (xs xe ys ye : Word) (bytes : List Byte) : Frame :=
  (.cmd, cmdCASET) :: (wire16 xs ++ wire16 xe).map (fun b => (.data, b))
    ++ (.cmd, cmdRASET) :: (wire16 ys ++ wire16 ye).map (fun b => (.data, b))
    ++ (.cmd, cmdRAMWR) :: bytes.map (fun b => (.data, b))

/-- `Txn(x0, y0, x1, y1, body)` (42_transfer_window.md R137). -/
def txn (s : State) (w : Window) (body : List WireEvent) : List WireEvent :=
  .sel :: setWindow s w ++ .dc .data :: body ++ [.desel]

/-! ## The buffer manager (42_transfer_window.md R139, R142, R143) -/

/-- The size of the request for a hint, in bytes (R139). -/
def allocSize (s : State) (hint : BitVec 32) : Nat :=
  let maxb := s.cfgWidth.toNat * s.par.raw.kLines * 2
  let n := if hint = 0 then maxb else min (max hint.toNat s.par.raw.bufMinBytes) maxb
  n - n % 2

/-- The release of the present buffer, if there is one (R139, 41_config.md R106). -/
def release (s : State) : State :=
  { s with
    alloc := if s.bufPresent then s.alloc ++ [.free] else s.alloc
    bufPresent := false
    bufBytes := if s.bufPresent then 0 else s.bufBytes
    bufData := if s.bufPresent then [] else s.bufData
    bufTag := if s.bufPresent then none else s.bufTag }

/-- The allocator's answer, a draw (R139, D21; log 4). -/
def allocAnswer (s : State) : Bool := s.allocScript.headD (Config.allocAnswer s.draws)

/-- A fresh buffer's contents: any n bytes (R139; log 6). -/
def freshBytes (draw n : Nat) : List Byte := (List.range n).map (Config.freshByte draw)

/-- `Allocate(hint)`; its answer is `allocAnswer s` (R139). -/
def allocate (hint : BitVec 32) (s : State) : State :=
  { release s with
    alloc := (release s).alloc ++ [.alloc (allocSize s hint) (allocAnswer s)]
    bufPresent := allocAnswer s
    bufBytes := if allocAnswer s then BitVec.ofNat 32 (allocSize s hint) else (release s).bufBytes
    bufData := if allocAnswer s then freshBytes s.draws (allocSize s hint) else (release s).bufData
    bufTag := if allocAnswer s then none else (release s).bufTag
    allocScript := s.allocScript.tail
    draws := s.draws + 1 }

/-- The Writes of `StreamFill(c, npix)` from the refreshed buffer (R143). -/
def streamFill (s : State) (npix : Nat) : List WireEvent :=
  let total := 2 * npix
  let full := total / s.bufBytes.toNat
  let rem := total % s.bufBytes.toNat
  (List.replicate full (write s.par.raw (s.bufData.take s.bufBytes.toNat))).flatten
    ++ write s.par.raw (s.bufData.take rem)

/-! ## Drawing transactions -/

/-- One transaction of a drawing command, on its clipped window. -/
inductive Draw where
  /-- One pixel, two bytes sent directly (43_primitives.md R161, 42_transfer_window.md R144). -/
  | pixel (x y : Int) (c : Color)
  /-- A span or box filled through the transfer buffer (R162, R163, R164, R143). -/
  | fill (w : Window) (c : Color)
  /-- A clipped glyph sent from GLYPH_BUF (44_text.md R206). -/
  | blit (w : Window) (colors : List Color)
  deriving DecidableEq, Repr

/-- How many pixels a window holds. -/
def windowArea (w : Window) : Nat := ((w.x1 - w.x0 + 1) * (w.y1 - w.y0 + 1)).toNat

/-- The window of a transaction. -/
def drawWindow : Draw → Window
  | .pixel x y _ => ⟨x, y, x, y⟩
  | .fill w _ => w
  | .blit w _ => w

/-- The colours of a transaction's pixels in order. -/
def drawColors : Draw → List Color
  | .pixel _ _ c => [c]
  | .fill w c => List.replicate (windowArea w) c
  | .blit _ ks => ks

/-- The pixel writes of a transaction in order (42_transfer_window.md R146). -/
def drawPixels (d : Draw) : List Paint :=
  windowPixels (drawWindow d).x0 (drawWindow d).y0 ((drawWindow d).x1 - (drawWindow d).x0 + 1).toNat 0 (drawColors d)

/-- What a transaction writes to the buffers. -/
def prepare (d : Draw) (s : State) : State :=
  match d with
  | .pixel _ _ _ => s
  | .fill _ c => refresh c s
  | .blit _ ks => loadGlyph ks s

/-- The payload of a transaction, from the prepared buffers. -/
def payload (s : State) (d : Draw) : List WireEvent :=
  match d with
  | .pixel _ _ c => write s.par.raw (wire16 c)
  | .fill w _ => streamFill s (windowArea w)
  | .blit _ ks => write s.par.raw ((s.glyphBuf.take ks.length).flatMap wire16)

/-- The buffers after a list of transactions. -/
def settle (ds : List Draw) (s : State) : State := ds.foldl (fun t d => prepare d t) s

/-- What a list of transactions does, in order: a fill refreshes the transfer buffer inside its bracket, after
SetWindow and DC(DATA), at the start of StreamFill (42_transfer_window.md R137, R143), and a glyph goes into GLYPH_BUF
before its transaction (44_text.md R206). -/
def drawActions : List Draw → State → List Action
  | [], _ => []
  | .pixel x y c :: ds, s =>
    (txn s ⟨x, y, x, y⟩ (payload s (.pixel x y c))).map .emit ++ drawActions ds s
  | .fill w c :: ds, s =>
    (WireEvent.sel :: setWindow s w ++ [WireEvent.dc .data]).map .emit
      ++ .refresh c :: (payload (refresh c s) (.fill w c) ++ [WireEvent.desel]).map .emit ++ drawActions ds (refresh c s)
  | .blit w ks :: ds, s =>
    .loadGlyph ks :: (txn (loadGlyph ks s) w (payload (loadGlyph ks s) (.blit w ks))).map .emit
      ++ drawActions ds (loadGlyph ks s)

/-- The wire events of a list of transactions. -/
def drawEvents : List Draw → State → List WireEvent
  | [], _ => []
  | d :: ds, s => txn (prepare d s) (drawWindow d) (payload (prepare d s) d) ++ drawEvents ds (prepare d s)

/-- Perform a list of transactions and end. -/
def perform (ds : List Draw) (e : Ending) (s : State) : State := drain { queue := drawActions ds s, ending := e } s

/-- The frame of a transaction on the wire, under the shift in force (42_transfer_window.md R134, R136, R137). -/
def drawFrame (s : State) (d : Draw) : Frame :=
  windowFrame (trunc16 ((drawWindow d).x0 + nat16 s.cfgXshift)) (trunc16 ((drawWindow d).x1 + nat16 s.cfgXshift))
    (trunc16 ((drawWindow d).y0 + nat16 s.cfgYshift)) (trunc16 ((drawWindow d).y1 + nat16 s.cfgYshift))
    ((drawColors d).flatMap wire16)

/-! ## Clipped shapes (43_primitives.md R161 to R164) -/

/-- `PlotPixel(x, y, c)` (R161). -/
def plotPixel (s : State) (c : Color) (p : Int × Int) : List Draw :=
  if visible s p.1 p.2 then [.pixel p.1 p.2 c] else []

/-- `FillBox(x, y, w, h, c)` (R164). -/
def fillBox (s : State) (x y w h : Int) (c : Color) : List Draw :=
  if w ≤ 0 ∨ h ≤ 0 then []
  else
    let xa := max x 0
    let xb := min (x + w) (nat16 s.cfgWidth)
    let ya := max y 0
    let yb := min (y + h) (nat16 s.cfgHeight)
    if xb ≤ xa ∨ yb ≤ ya then [] else [.fill ⟨xa, ya, xb - 1, yb - 1⟩ c]

/-- `HSpan(x, y, w, c)` (R162). -/
def hSpan (s : State) (x y w : Int) (c : Color) : List Draw :=
  if w ≤ 0 ∨ y < 0 ∨ nat16 s.cfgHeight ≤ y then []
  else
    let xa := max x 0
    let xb := min (x + w) (nat16 s.cfgWidth)
    if xb ≤ xa then [] else [.fill ⟨xa, y, xb - 1, y⟩ c]

/-- `VSpan(x, y, h, c)` (R163). -/
def vSpan (s : State) (x y h : Int) (c : Color) : List Draw :=
  if h ≤ 0 ∨ x < 0 ∨ nat16 s.cfgWidth ≤ x then []
  else
    let ya := max y 0
    let yb := min (y + h) (nat16 s.cfgHeight)
    if yb ≤ ya then [] else [.fill ⟨x, ya, x, yb - 1⟩ c]

end Sys2Proof.Machine
end

