-- ==== Sys2Proof/Machine/Configure.lean ====
section
/-! DEFINITION. The configuration commands (41_config.md): INIT, DEINIT, SET_ROTATION, GET_GEOMETRY, INVERT, TEARING. -/

namespace Sys2Proof.Machine

/-- `ApplyGeometry(p, r)` (41_config.md R102). -/
def applyGeometry (p : Fin 3) (r : BitVec 2) (s : State) : State :=
  { s with
    cfgWidth := (calibAt s.par.raw.calib p r).width
    cfgHeight := (calibAt s.par.raw.calib p r).height
    cfgXshift := (calibAt s.par.raw.calib p r).xShift
    cfgYshift := (calibAt s.par.raw.calib p r).yShift
    cfgRot := r
    cfgPanel := p }

/-- The rotation register write, MADCTL with P_MADCTL(r) (41_config.md R105). -/
def madctlWrite (s : State) (r : BitVec 2) : List WireEvent :=
  writeCmd s.par.raw cmdMADCTL [perRot s.par.raw.madctl r]

/-- INIT for a known panel (41_config.md R103): geometry, then buffer, then P_INIT_SEQ and the rotation write; or
ALLOC_ERROR, a result, with no wire event (60_exceptions.md R234). -/
def initPanel (p : Fin 3) (r : BitVec 2) (hint : BitVec 32) (s : State) : State :=
  let t := allocate hint (applyGeometry p r s)
  if allocAnswer s then launch (t.par.raw.initSeq ++ madctlWrite t r) (.initialised 4) t
  else advance 4 { forgetFb t with engine := .allocFailed, errCode := .allocError }

/-- INIT's body: BAD_PANEL before any state changes (41_config.md R103). -/
def initBody (panel rot : Byte) (hint : BitVec 32) (s : State) : State :=
  if h : panel.toNat < 3 then initPanel ⟨panel.toNat, h⟩ (normRot rot) hint s
  else raise .badPanel (panel.setWidth 16) s

/-- INIT (41_config.md R103). -/
def execInit (panel rot : Byte) (hint : BitVec 32) (s : State) : Host.Outcome State Fault Refusal :=
  .next (gated .always 0x01 (initBody panel rot hint) s)

/-- DEINIT (41_config.md R106): ERRCODE and the CFG registers keep their values; nothing goes to the controller. -/
def execDeinit (s : State) : Host.Outcome State Fault Refusal :=
  .next (gated .always 0x02 (fun t => advance 1 { release t with engine := .uninit }) s)

/-- SET_ROTATION (41_config.md R107): never reallocates (90_conflicts.md C1). -/
def execSetRotation (rot : Byte) (s : State) : Host.Outcome State Fault Refusal :=
  .next (gated .readyOnly 0x03
    (fun t =>
      launch (madctlWrite t (normRot rot)) (.rotated 2) (applyGeometry t.cfgPanel (normRot rot) t)) s)

/-- GET_GEOMETRY (41_config.md R108). -/
def execGetGeometry (s : State) : Host.Outcome State Fault Refusal :=
  .next (gated .always 0x04
    (fun t =>
      advance 1
        { t with
          res0 := t.cfgWidth
          res1 := t.cfgHeight
          res2 := t.cfgRot.setWidth 16
          res3 := BitVec.ofNat 16 t.cfgPanel.val }) s)

/-- INVERT (41_config.md R109): the engine does not remember the inversion state. -/
def execInvert (on : Bool) (s : State) : Host.Outcome State Fault Refusal :=
  .next (gated .readyOnly 0x05
    (fun t => launch (writeCmd t.par.raw (if on then cmdINVON else cmdINVOFF) []) (.complete 2) t) s)

/-- TEARING's wire events (41_config.md R110). -/
def tearingEvents (p : RawParams) (on : Bool) : List WireEvent :=
  if on then writeCmd p cmdTEON p.teonParam.toList else writeCmd p cmdTEOFF []

/-- TEARING (41_config.md R110). -/
def execTearing (on : Bool) (s : State) : Host.Outcome State Fault Refusal :=
  .next (gated .readyOnly 0x06 (fun t => launch (tearingEvents t.par.raw on) (.complete 2) t) s)

end Sys2Proof.Machine
end

