-- ==== Sys2Proof/Machine/Primitives.lean ====
section
/-! DEFINITION. The primitive rasterizer commands (43_primitives.md). Each command computes the list of points or
clipped shapes its rule names, in `Int` and with no overflow (R160 (b)), and performs them in order. -/

namespace Sys2Proof.Machine

/-! ## Lines (43_primitives.md R167) -/

/-- The loop of R167 from the major coordinate x: n steps, each giving (x, y) and updating err. -/
def lineWalk (dx dy ystep : Int) : Nat → Int → Int → Int → List (Int × Int)
  | 0, _, _, _ => []
  | n + 1, x, y, err =>
    (x, y) ::
      (if err - dy < 0 then lineWalk dx dy ystep n (x + 1) (y + ystep) (err - dy + dx)
       else lineWalk dx dy ystep n (x + 1) y (err - dy))

/-- The walk of R167 between endpoints ordered on the major axis, inclusive. -/
def majorWalk (x0 y0 x1 y1 : Int) : List (Int × Int) :=
  lineWalk (x1 - x0) ((y1 - y0).natAbs : Int) (if y0 < y1 then 1 else -1) (x1 - x0 + 1).toNat x0 y0 ((x1 - x0) / 2)

/-- The walk of R167 after the left-to-right normalisation. -/
def orderedWalk (x0 y0 x1 y1 : Int) : List (Int × Int) :=
  if x0 > x1 then majorWalk x1 y1 x0 y0 else majorWalk x0 y0 x1 y1

/-- R167: the slope is steep, so the axes are swapped. -/
def steep (x0 y0 x1 y1 : Int) : Bool := decide ((y1 - y0).natAbs > (x1 - x0).natAbs)

/-- The points of the line (x0, y0)-(x1, y1), in order, before clipping (R167). -/
def linePoints (x0 y0 x1 y1 : Int) : List (Int × Int) :=
  if steep x0 y0 x1 y1 then (orderedWalk y0 x0 y1 x1).map (fun p => (p.2, p.1))
  else orderedWalk x0 y0 x1 y1

/-- A list of points, each through PlotPixel (R161). -/
def plotAll (s : State) (c : Color) (ps : List (Int × Int)) : List Draw := ps.flatMap (plotPixel s c)

/-! ## Circles (43_primitives.md R172, R173) -/

/-- The loop of R172: the (x, y) after each step. `fuel` bounds the steps; r of them are always enough (R91). -/
def circleWalk : Nat → Int → Int → Int → Int → Int → List (Int × Int)
  | 0, _, _, _, _, _ => []
  | fuel + 1, f, ddx, ddy, x, y =>
    if x < y then
      let y' := if 0 ≤ f then y - 1 else y
      let ddy' := if 0 ≤ f then ddy + 2 else ddy
      let f' := if 0 ≤ f then f + ddy' else f
      (x + 1, y') :: circleWalk fuel (f' + (ddx + 2)) (ddx + 2) ddy' (x + 1) y'
    else []

/-- The walk of R172 for a radius r >= 0. -/
def circleSteps (r : Int) : List (Int × Int) := circleWalk r.toNat (1 - r) 1 (-2 * r) 0 r

/-- The eight symmetric points of one step, in the order of R172. -/
def octants (x0 y0 : Int) (p : Int × Int) : List (Int × Int) :=
  [(x0 + p.1, y0 + p.2), (x0 - p.1, y0 + p.2), (x0 + p.1, y0 - p.2), (x0 - p.1, y0 - p.2),
   (x0 + p.2, y0 + p.1), (x0 - p.2, y0 + p.1), (x0 + p.2, y0 - p.1), (x0 - p.2, y0 - p.1)]

/-- The points of R172 in order, before clipping; none for r < 0. -/
def circlePoints (x0 y0 r : Int) : List (Int × Int) :=
  if 0 ≤ r then
    [(x0, y0 + r), (x0, y0 - r), (x0 + r, y0), (x0 - r, y0)] ++ (circleSteps r).flatMap (octants x0 y0)
  else []

/-- A span (x, y, w) of R162, before clipping. -/
structure Span where
  x : Int
  y : Int
  w : Int
  deriving DecidableEq, Repr

/-- The four spans of one step of R173, in order. -/
def discSpansOf (x0 y0 : Int) (p : Int × Int) : List Span :=
  [⟨x0 - p.1, y0 + p.2, 2 * p.1 + 1⟩, ⟨x0 - p.1, y0 - p.2, 2 * p.1 + 1⟩,
   ⟨x0 - p.2, y0 + p.1, 2 * p.2 + 1⟩, ⟨x0 - p.2, y0 - p.1, 2 * p.2 + 1⟩]

/-- The spans of R173 in order, before clipping; none for r < 0. -/
def discSpans (x0 y0 r : Int) : List Span :=
  if 0 ≤ r then ⟨x0 - r, y0, 2 * r + 1⟩ :: (circleSteps r).flatMap (discSpansOf x0 y0) else []

/-- A list of spans, each through HSpan (R162). -/
def spanAll (s : State) (c : Color) (ps : List Span) : List Draw := ps.flatMap (fun p => hSpan s p.x p.y p.w c)

/-! ## Rectangles (43_primitives.md R170) -/

/-- The four segments of R170: top, bottom, left, right. -/
def rectDraws (s : State) (x y w h : Int) (c : Color) : List Draw :=
  if 0 < w ∧ 0 < h then
    hSpan s x y w c ++ hSpan s x (y + h - 1) w c ++ vSpan s x y h c ++ vSpan s (x + w - 1) y h c
  else []

/-! ## Triangles (43_primitives.md R174, R175) -/

/-- The edges v1-v2, v2-v3, v3-v1 (R174). -/
def trianglePoints (x1 y1 x2 y2 x3 y3 : Int) : List (Int × Int) :=
  linePoints x1 y1 x2 y2 ++ linePoints x2 y2 x3 y3 ++ linePoints x3 y3 x1 y1

/-- The constants of R175's walk: the two increment pairs, den and nadd. -/
structure EdgeStep where
  xi1 : Int
  yi1 : Int
  xi2 : Int
  yi2 : Int
  den : Int
  nadd : Int
  deriving DecidableEq, Repr

/-- The loop of R175: n points of the edge v1-v2 from (x, y). -/
def edgeWalk (k : EdgeStep) : Nat → Int → Int → Int → List (Int × Int)
  | 0, _, _, _ => []
  | n + 1, x, y, num =>
    (x, y) ::
      (if num + k.nadd ≥ k.den then edgeWalk k n (x + k.xi1 + k.xi2) (y + k.yi1 + k.yi2) (num + k.nadd - k.den)
       else edgeWalk k n (x + k.xi2) (y + k.yi2) (num + k.nadd))

/-- The points of R175's walk along v1-v2, npix + 1 of them. -/
def edgePoints (x1 y1 x2 y2 : Int) : List (Int × Int) :=
  let dx : Int := (x2 - x1).natAbs
  let dy : Int := (y2 - y1).natAbs
  let sx : Int := if x2 ≥ x1 then 1 else -1
  let sy : Int := if y2 ≥ y1 then 1 else -1
  if dx ≥ dy then edgeWalk ⟨0, sy, sx, 0, dx, dy⟩ (dx.toNat + 1) x1 y1 (dx / 2)
  else edgeWalk ⟨sx, 0, 0, sy, dy, dx⟩ (dy.toNat + 1) x1 y1 (dy / 2)

/-- The points of R175: the line from each walk point to v3. -/
def fanPoints (x1 y1 x2 y2 x3 y3 : Int) : List (Int × Int) :=
  (edgePoints x1 y1 x2 y2).flatMap (fun p => linePoints p.1 p.2 x3 y3)

/-! ## The commands -/

/-- FILL_SCREEN (43_primitives.md R165). -/
def execFillScreen (c : Color) (s : State) : Host.Outcome State Fault Refusal :=
  .next (gated .readyOnly 0x10
    (fun t => perform (fillBox t 0 0 (nat16 t.cfgWidth) (nat16 t.cfgHeight) c) (.complete 2) t) s)

/-- DRAW_PIXEL (43_primitives.md R166). -/
def execDrawPixel (x y : Word) (c : Color) (s : State) : Host.Outcome State Fault Refusal :=
  .next (gated .readyOnly 0x11 (fun t => perform (plotPixel t c (coord x, coord y)) (.complete 4) t) s)

/-- DRAW_LINE (43_primitives.md R167). -/
def execDrawLine (x0 y0 x1 y1 : Word) (c : Color) (s : State) : Host.Outcome State Fault Refusal :=
  .next (gated .readyOnly 0x12
    (fun t => perform (plotAll t c (linePoints (coord x0) (coord y0) (coord x1) (coord y1))) (.complete 6) t) s)

/-- DRAW_HLINE (43_primitives.md R168). -/
def execDrawHLine (x y w : Word) (c : Color) (s : State) : Host.Outcome State Fault Refusal :=
  .next (gated .readyOnly 0x13 (fun t => perform (hSpan t (coord x) (coord y) (coord w) c) (.complete 5) t) s)

/-- DRAW_VLINE (43_primitives.md R169). -/
def execDrawVLine (x y h : Word) (c : Color) (s : State) : Host.Outcome State Fault Refusal :=
  .next (gated .readyOnly 0x14 (fun t => perform (vSpan t (coord x) (coord y) (coord h) c) (.complete 5) t) s)

/-- DRAW_RECT (43_primitives.md R170). -/
def execDrawRect (x y w h : Word) (c : Color) (s : State) : Host.Outcome State Fault Refusal :=
  .next (gated .readyOnly 0x15
    (fun t => perform (rectDraws t (coord x) (coord y) (coord w) (coord h) c) (.complete 6) t) s)

/-- FILL_RECT (43_primitives.md R171). -/
def execFillRect (x y w h : Word) (c : Color) (s : State) : Host.Outcome State Fault Refusal :=
  .next (gated .readyOnly 0x16
    (fun t => perform (fillBox t (coord x) (coord y) (coord w) (coord h) c) (.complete 6) t) s)

/-- DRAW_CIRCLE (43_primitives.md R172). -/
def execDrawCircle (x0 y0 r : Word) (c : Color) (s : State) : Host.Outcome State Fault Refusal :=
  .next (gated .readyOnly 0x17
    (fun t => perform (plotAll t c (circlePoints (coord x0) (coord y0) (coord r))) (.complete 5) t) s)

/-- FILL_CIRCLE (43_primitives.md R173). -/
def execFillCircle (x0 y0 r : Word) (c : Color) (s : State) : Host.Outcome State Fault Refusal :=
  .next (gated .readyOnly 0x18
    (fun t => perform (spanAll t c (discSpans (coord x0) (coord y0) (coord r))) (.complete 5) t) s)

/-- DRAW_TRIANGLE (43_primitives.md R174). -/
def execDrawTriangle (x1 y1 x2 y2 x3 y3 : Word) (c : Color) (s : State) : Host.Outcome State Fault Refusal :=
  .next (gated .readyOnly 0x19
    (fun t =>
      perform (plotAll t c (trianglePoints (coord x1) (coord y1) (coord x2) (coord y2) (coord x3) (coord y3)))
        (.complete 8) t) s)

/-- FILL_TRIANGLE (43_primitives.md R175; 90_conflicts.md C4). -/
def execFillTriangle (x1 y1 x2 y2 x3 y3 : Word) (c : Color) (s : State) : Host.Outcome State Fault Refusal :=
  .next (gated .readyOnly 0x1A
    (fun t =>
      perform (plotAll t c (fanPoints (coord x1) (coord y1) (coord x2) (coord y2) (coord x3) (coord y3)))
        (.complete 8) t) s)

end Sys2Proof.Machine
end

