-- ==== Sys2Proof/Machine/Text.lean ====
section
/-! DEFINITION. The font glyph unpacker and the text commands (44_text.md). -/

namespace Sys2Proof.Machine

/-! ## The glyph unpacker (44_text.md R200 to R207) -/

/-- `CharLookup(f, c)` (R200). -/
def charLookup (f : Font) (c : Byte) : Option Glyph :=
  if c.toNat < f.first.toNat ∨ f.last.toNat < c.toNat then none else f.glyphs[c.toNat - f.first.toNat]?

/-- The bit offset of a glyph's pixel (R201). -/
def glyphBitIndex (g : Glyph) (row col : Nat) : Nat := g.bitmapOffset.toNat * 8 + row * g.width.toNat + col

/-- `BitmapByte(f, i)` (20_memory.md R64); called only within the bitmap. -/
def bitmapByte (f : Font) (i : Nat) : Byte := f.bitmap.getD i 0

/-- `Bit(g, row, col)`: most significant bit first, 1 = foreground (R201). -/
def glyphBit (f : Font) (g : Glyph) (row col : Nat) : Bool :=
  (bitmapByte f (glyphBitIndex g row col / 8)).getLsbD (7 - glyphBitIndex g row col % 8)

/-- The range check of R202: true if every bit of the glyph lies in the bitmap. -/
def glyphInRange (f : Font) (g : Glyph) : Bool :=
  !(decide (g.width.toNat * g.height.toNat > 0)
    && decide ((g.bitmapOffset.toNat * 8 + g.width.toNat * g.height.toNat - 1) / 8 ≥ f.bitmap.length))

/-- The clipped rectangle of a glyph at a baseline cursor, none if it has no visible pixel (R203). -/
def glyphWindow (s : State) (g : Glyph) (cx cy : Int) : Option Window :=
  let gx := cx + offset8 g.xOffset
  let gy := cy + offset8 g.yOffset
  let xa := max gx 0
  let xb := min (gx + nat8 g.width) (nat16 s.cfgWidth)
  let ya := max gy 0
  let yb := min (gy + nat8 g.height) (nat16 s.cfgHeight)
  if xb ≤ xa ∨ yb ≤ ya then none else some ⟨xa, ya, xb - 1, yb - 1⟩

/-- The pixels of a window in row-major order (R204). -/
def windowPoints (w : Window) : List (Int × Int) :=
  (intRange w.y0 (w.y1 + 1)).flatMap (fun y => (intRange w.x0 (w.x1 + 1)).map (fun x => (x, y)))

/-- The colour of a glyph's pixel at panel coordinate p (R204). -/
def glyphColor (f : Font) (g : Glyph) (cx cy : Int) (fg bg : Color) (p : Int × Int) : Color :=
  if glyphBit f g (p.2 - (cy + offset8 g.yOffset)).toNat (p.1 - (cx + offset8 g.xOffset)).toNat then fg else bg

/-- GLYPH_THRESHOLD (00_scope.md R7, 44_text.md R205). -/
def glyphThreshold : Nat := 1600

/-- `DrawGlyph` after its range check: nothing, the buffered path, or the per-pixel path (R205 to R208). -/
def glyphDraws (s : State) (f : Font) (g : Glyph) (cx cy : Int) (fg bg : Color) : List Draw :=
  match glyphWindow s g cx cy with
  | none => []
  | some w =>
    if windowArea w < glyphThreshold then [.blit w ((windowPoints w).map (glyphColor f g cx cy fg bg))]
    else (windowPoints w).flatMap (fun p => plotPixel s (glyphColor f g cx cy fg bg p) p)

/-- FONT_FAULT's FAULT_ARG for an absent font (60_exceptions.md R231). -/
def absentFont : Word := 0xFFFF

/-! ## Strings (44_text.md R209 to R211) -/

/-- What a string draws, and the character a glyph fault stopped it at, if any. -/
structure StringWalk where
  draws : List Draw
  fault : Option Word
  deriving DecidableEq, Repr

/-- The character loop of R209, from the cursor (cx, cy). -/
def stringWalk (s : State) (f : Font) (fg bg : Color) : Int → Int → List Byte → StringWalk
  | _, _, [] => ⟨[], none⟩
  | cx, cy, c :: cs =>
    match charLookup f c with
    | none => stringWalk s f fg bg cx cy cs
    | some g =>
      let wraps : Bool := decide (nat16 s.cfgWidth < cx + nat8 g.xAdvance)
      let cx' := if wraps then 0 else cx
      let cy' := if wraps then cy + nat8 f.yAdvance else cy
      if nat16 s.cfgHeight < cy' then ⟨[], none⟩
      else if wraps ∧ c = 0x20 then stringWalk s f fg bg cx' cy' cs
      else if glyphInRange f g then
        let w := stringWalk s f fg bg (cx' + nat8 g.xAdvance) cy' cs
        ⟨glyphDraws s f g cx' cy' fg bg ++ w.draws, w.fault⟩
      else ⟨[], some (c.setWidth 16)⟩

/-- How a string command ends (60_exceptions.md R235). -/
def stringEnding (len : Nat) : Option Word → Ending
  | none => .complete len
  | some arg => .faulted .fontFault arg

/-! ## Bounds (44_text.md R212) -/

/-- A rectangle with exclusive far ends. -/
structure Box where
  mnx : Int
  mny : Int
  mxx : Int
  mxy : Int
  deriving DecidableEq, Repr

/-- The offset rectangle of a glyph at cursor cx (R212). -/
def glyphBox (g : Glyph) (cx : Int) : Box :=
  ⟨cx + offset8 g.xOffset, offset8 g.yOffset, cx + offset8 g.xOffset + nat8 g.width, offset8 g.yOffset + nat8 g.height⟩

/-- The union of what was measured so far and a rectangle (R212). -/
def growBox : Option Box → Box → Box
  | none, b => b
  | some a, b => ⟨min a.mnx b.mnx, min a.mny b.mny, max a.mxx b.mxx, max a.mxy b.mxy⟩

/-- The character loop of R212, from cursor cx. -/
def boundsWalk (f : Font) : Int → Option Box → List Byte → Option Box
  | _, acc, [] => acc
  | cx, acc, c :: cs =>
    match charLookup f c with
    | none => boundsWalk f cx acc cs
    | some g =>
      let acc' := if 0 < g.width.toNat ∧ 0 < g.height.toNat then some (growBox acc (glyphBox g cx)) else acc
      boundsWalk f (cx + nat8 g.xAdvance) acc' cs

/-- RES0 and RES1 of a measure (R212). -/
def boundsResult : Option Box → Word × Word
  | none => (0, 0)
  | some b => (trunc16 (b.mxx - b.mnx), trunc16 (b.mxy - b.mny))

/-! ## The commands -/

/-- DRAW_CHAR's body (R208). -/
def drawCharBody (x y : Word) (ch font : Byte) (fg bg : Color) (s : State) : State :=
  match fontAt s.par.raw.fonts font with
  | none => raise .fontFault absentFont s
  | some f =>
    match charLookup f ch with
    | none => launch [] (.complete 6) s
    | some g =>
      if glyphInRange f g then perform (glyphDraws s f g (coord x) (coord y) fg bg) (.complete 6) s
      else raise .fontFault (ch.setWidth 16) s

/-- DRAW_CHAR (44_text.md R208). -/
def execDrawChar (x y : Word) (ch font : Byte) (fg bg : Color) (s : State) : Host.Outcome State Fault Refusal :=
  .next (gated .readyOnly 0x20 (drawCharBody x y ch font fg bg) s)

/-- DRAW_STRING's body (R209). -/
def drawStringBody (x y : Word) (font : Byte) (fg bg : Color) (chars : List Byte) (s : State) : State :=
  match fontAt s.par.raw.fonts font with
  | none => raise .fontFault absentFont s
  | some f =>
    let w := stringWalk s f fg bg (coord x) (coord y) chars
    perform w.draws (stringEnding (7 + charWords chars.length) w.fault) s

/-- DRAW_STRING (44_text.md R209). -/
def execDrawString (x y : Word) (font : Byte) (fg bg : Color) (chars : List Byte) (s : State) :
    Host.Outcome State Fault Refusal :=
  .next (gated .readyOnly 0x21 (drawStringBody x y font fg bg chars) s)

/-- GET_TEXT_BOUNDS's body (R212): the bitmap is not read; RES2 and RES3 are unchanged. -/
def textBoundsBody (font : Byte) (chars : List Byte) (s : State) : State :=
  match fontAt s.par.raw.fonts font with
  | none => raise .fontFault absentFont s
  | some f =>
    advance (3 + charWords chars.length)
      { s with
        res0 := (boundsResult (boundsWalk f 0 none chars)).1
        res1 := (boundsResult (boundsWalk f 0 none chars)).2 }

/-- GET_TEXT_BOUNDS (44_text.md R212). -/
def execGetTextBounds (font : Byte) (chars : List Byte) (s : State) : Host.Outcome State Fault Refusal :=
  .next (gated .always 0x22 (textBoundsBody font chars) s)

end Sys2Proof.Machine
end

