-- ==== Sys2Proof/Machine/Dispatch.lean ====
section
/-! DEFINITION. One arm per command: a direct call of its meaning. -/

namespace Sys2Proof.Machine

/-- Run one decoded command. -/
def exec (i : Instr) (s : State) : Host.Outcome State Fault Refusal :=
  match i with
  | .init panel rot hint => Sys2Proof.Machine.execInit panel rot hint s
  | .deinit => Sys2Proof.Machine.execDeinit s
  | .setRotation rot => Sys2Proof.Machine.execSetRotation rot s
  | .getGeometry => Sys2Proof.Machine.execGetGeometry s
  | .invert on => Sys2Proof.Machine.execInvert on s
  | .tearing on => Sys2Proof.Machine.execTearing on s
  | .fillScreen c => Sys2Proof.Machine.execFillScreen c s
  | .drawPixel x y c => Sys2Proof.Machine.execDrawPixel x y c s
  | .drawLine x0 y0 x1 y1 c => Sys2Proof.Machine.execDrawLine x0 y0 x1 y1 c s
  | .drawHLine x y w c => Sys2Proof.Machine.execDrawHLine x y w c s
  | .drawVLine x y h c => Sys2Proof.Machine.execDrawVLine x y h c s
  | .drawRect x y w h c => Sys2Proof.Machine.execDrawRect x y w h c s
  | .fillRect x y w h c => Sys2Proof.Machine.execFillRect x y w h c s
  | .drawCircle x0 y0 r c => Sys2Proof.Machine.execDrawCircle x0 y0 r c s
  | .fillCircle x0 y0 r c => Sys2Proof.Machine.execFillCircle x0 y0 r c s
  | .drawTriangle x1 y1 x2 y2 x3 y3 c => Sys2Proof.Machine.execDrawTriangle x1 y1 x2 y2 x3 y3 c s
  | .fillTriangle x1 y1 x2 y2 x3 y3 c => Sys2Proof.Machine.execFillTriangle x1 y1 x2 y2 x3 y3 c s
  | .drawChar x y ch font fg bg => Sys2Proof.Machine.execDrawChar x y ch font fg bg s
  | .drawString x y font fg bg chars => Sys2Proof.Machine.execDrawString x y font fg bg chars s
  | .getTextBounds font chars => Sys2Proof.Machine.execGetTextBounds font chars s

end Sys2Proof.Machine
end

