-- ==== Sys2Proof/Machine/Fetch.lean ====
section
/-! DEFINITION. The engine between commands: HALTED, idle, or fetching and decoding the next command. -/

namespace Sys2Proof.Machine

/-- The engine's step when no command is running: it stays in HALTED (60_exceptions.md R237), idles at the end of the
stream (70_reset_and_hazards.md R272), or decodes the command at CP and runs it, or takes the fault its words raise. -/
def fetchStep (s : State) : Host.Outcome State Fault Refusal :=
  if s.engine = .halted then .next s
  else if streamOk s.cmds = false then .refused .streamTooLong
  else if s.cp.toNat = s.cmds.length then .next s
  else if s.cmds.length < s.cp.toNat then .fault .cpBeyondStream
  else
    match decode (wordsAt s) with
    | .command i => exec i (loadLatch i s)
    | .malformed code arg => .next (raise code arg s)

end Sys2Proof.Machine
end

