-- ==== Sys2Proof/Machine/Step.lean ====
section
/-! DEFINITION. One step of the machine. Plain data says which agent moves: the transport while XFER_BUSY = 1
(42_transfer_window.md R135), else the engine with a suspended command, else the engine fetches the next one. -/

namespace Sys2Proof.Machine

/-- One step. -/
def step (s : State) : Host.Outcome State Fault Refusal :=
  if s.xferBusy then .next (transportStep s)
  else
    match s.running with
    | some r => .next (drain r s)
    | none => fetchStep s

/-- `s` with an opcode-table instruction stored where `step` fetches its next command: the words of the stream at CP. -/
def State.withFetchWord (s : State) (nbits w : Nat) : State :=
  { s with cmds := placeWords s.cmds s.cp.toNat (tableWords nbits w) }

end Sys2Proof.Machine
end

