-- ==== Sys2Proof/Machine/HostPort.lean ====
section
/-! DEFINITION. The host agent's moves (00_scope.md R6 (1), 10_state.md R35): appending words to the stream,
asserting reset, reading registers. They stand outside `step` (log 16): a run is any interleaving of `step` and host
moves. The host writes no register. -/

namespace Sys2Proof.Machine

/-- What the host can do to the engine (10_state.md R35). -/
inductive HostMove where
  /-- Append words to the command stream (20_memory.md R61). -/
  | append (ws : List Word)
  /-- Assert the engine's reset (70_reset_and_hazards.md R260). -/
  | reset
  deriving DecidableEq, Repr

/-- The engine idles at the end of the stream (70_reset_and_hazards.md R272). -/
def idle (s : State) : Bool :=
  !s.xferBusy && s.running.isNone && decide (s.engine ≠ .halted) && decide (s.cp.toNat = s.cmds.length)

/-- One move of the host. Words join the stream only while the engine idles at its end (20_memory.md R76, D56), and
only up to the length CP can address (10_state.md R22). A reset may come in any state, so between two steps: where a
command waits for an asynchronous piece it cuts that command, but a stretch of events that one step emits, a whole
synchronous command among them, is never cut inside. R261 leaves it to the platform whether a reset may cut a running
command (DESIGN CHOICE, log 16). -/
def hostMove (m : HostMove) (s : State) : Host.Outcome State Fault Refusal :=
  match m with
  | .reset => .next (engineReset s)
  | .append ws =>
    if idle s = false then .refused .streamInUse
    else if streamOk (s.cmds ++ ws) = false then .refused .streamTooLong
    else .next { s with cmds := s.cmds ++ ws }

/-- The registers the host can read (10_state.md R35). -/
inductive HostReg where
  | status
  | faultCp
  | faultArg
  | res0
  | res1
  | res2
  | res3
  deriving DecidableEq, Repr

/-- A readable register's value, zero-extended to 32 bits. -/
def hostReg (r : HostReg) (s : State) : BitVec 32 :=
  match r with
  | .status => (statusWord s).setWidth 32
  | .faultCp => s.faultCp
  | .faultArg => s.faultArg.setWidth 32
  | .res0 => s.res0.setWidth 32
  | .res1 => s.res1.setWidth 32
  | .res2 => s.res2.setWidth 32
  | .res3 => s.res3.setWidth 32

/-- The state a running command ends in, as far as the readable registers tell it. -/
def settled (s : State) : State :=
  match s.running with
  | none => s
  | some r => finish r.ending s

/-- What a host read gives (10_state.md R35): "A host read while a command is running returns the value before or
after that command". Which of the two, `late`, is an input (log 17); between commands it makes no difference. -/
def hostRead (late : Bool) (r : HostReg) (s : State) : BitVec 32 := hostReg r (if late then settled s else s)

end Sys2Proof.Machine
end

