-- ==== Sys2Proof/Safety.lean ====
section
/-! DEFINITION. What counts as a safe run, in the terms the claims use: the obligations on windows
(42_transfer_window.md R148), what a drawing command leaves, the invariant of every state a run reaches (10_state.md
R30, R32, R33, R38, 42_transfer_window.md R147), and how a run ends (70_reset_and_hazards.md R272). -/

namespace Sys2Proof.Machine

/-! ## Lengths -/

/-- The words of a command up to its COUNT word, or all of them if it has none, by OPC (30_encoding.md R84, R85);
none for an OPC outside R84. -/
def baseLen (opc : Nat) : Option Nat :=
  match opc with
  | 0x01 => some 4
  | 0x02 => some 1
  | 0x03 => some 2
  | 0x04 => some 1
  | 0x05 => some 2
  | 0x06 => some 2
  | 0x10 => some 2
  | 0x11 => some 4
  | 0x12 => some 6
  | 0x13 => some 5
  | 0x14 => some 5
  | 0x15 => some 6
  | 0x16 => some 6
  | 0x17 => some 5
  | 0x18 => some 5
  | 0x19 => some 8
  | 0x1A => some 8
  | 0x20 => some 6
  | 0x21 => some 7
  | 0x22 => some 3
  | _ => none

/-! ## The transactions of a command -/

/-- The bytes of a list of events' transfers, in order. -/
def xferBytes : List WireEvent → List Byte
  | [] => []
  | .xfer _ bs :: es => bs ++ xferBytes es
  | .sel :: es => xferBytes es
  | .desel :: es => xferBytes es
  | .dc _ :: es => xferBytes es
  | .rst _ :: es => xferBytes es
  | .delay _ :: es => xferBytes es

/-- The window obligations of one transaction (42_transfer_window.md R148): its window is non-empty and visible, and
it has one colour for each pixel of it. -/
def drawOk (s : State) (d : Draw) : Prop :=
  0 ≤ (drawWindow d).x0 ∧ (drawWindow d).x0 ≤ (drawWindow d).x1 ∧ (drawWindow d).x1 < nat16 s.cfgWidth
    ∧ 0 ≤ (drawWindow d).y0 ∧ (drawWindow d).y0 ≤ (drawWindow d).y1 ∧ (drawWindow d).y1 < nat16 s.cfgHeight
    ∧ (drawColors d).length = windowArea (drawWindow d)

/-- Every controller address fits 16 bits (41_config.md R100). -/
def cfgFits (s : State) : Prop :=
  s.cfgWidth.toNat + s.cfgXshift.toNat ≤ 65536 ∧ s.cfgHeight.toNat + s.cfgYshift.toNat ≤ 65536

/-- The transfer buffer can be filled and replayed: whole pixels, at least one, and BUF_TAG tells the truth
(10_state.md R29, 20_memory.md R78). -/
def bufUsable (s : State) : Prop :=
  2 ≤ s.bufBytes.toNat ∧ s.bufBytes.toNat % 2 = 0
    ∧ ∀ c, s.bufTag = some c → s.bufData = fillBytes (s.bufBytes.toNat / 2) c

/-- The Writes of `StreamFill(c, npix)` (42_transfer_window.md R143): as many full chunks of BUF_BYTES bytes as go into
the 2 x npix bytes, then one remainder of the bytes left, and no empty chunk; each holds whole pixels of c. -/
def fillChunks (s : State) (c : Color) (npix : Nat) : List WireEvent :=
  let n := s.bufBytes.toNat
  (List.replicate (2 * npix / n) (write s.par.raw (List.replicate (n / 2) (wire16 c)).flatten)).flatten
    ++ (if 2 * npix % n = 0 then []
        else write s.par.raw (List.replicate (2 * npix % n / 2) (wire16 c)).flatten)

/-- No event of the list is an asynchronous transfer. -/
def allSync (es : List WireEvent) : Prop := ∀ e ∈ es, isAsync e = false

/-- What a drawing command leaves when it runs to its end: its transactions' events on the wire, and with them their
pixels in the paint log and in FB, the buffers they filled, CP past the command. -/
def drawn (ds : List Draw) (len : Nat) (s : State) : State :=
  advance len { emitAll (drawEvents ds s) (settle ds s) with running := none }

/-- A drawing command has its meaning here: STATE = READY, no command running, the bus free, a usable buffer
(43_primitives.md R160, 60_exceptions.md R232). It says nothing of the operand latch, which a step loads first. -/
def drawReady (s : State) : Prop :=
  s.engine = .ready ∧ s.running = none ∧ s.xferBusy = false ∧ s.sel = false ∧ s.bufPresent = true ∧ bufUsable s
    ∧ cfgFits s ∧ s.glyphBuf.length = glyphSlots ∧ memWf s.fb = true

/-- The asynchronous mode does not exist (00_scope.md R8: P_ASYNC_ENABLE is false), so a command ends in one step. -/
def syncOnly (s : State) : Prop := s.par.raw.asyncEnable = false

/-- The points of the rectangle (x, y, w, h) in row-major order; none if w <= 0 or h <= 0. -/
def rectPoints (x y w h : Int) : List (Int × Int) := windowPoints ⟨x, y, x + w - 1, y + h - 1⟩

/-- The visible ones of a list of points, in order, each painted c: what clipping leaves (43_primitives.md R160 (c)). -/
def clipped (s : State) (c : Color) (pts : List (Int × Int)) : List Paint :=
  (pts.filter (fun p => visible s p.1 p.2)).map (fun p => ⟨p.1, p.2, c⟩)

/-- The colour a list of pixel writes leaves at (x, y), if it writes there: the last write wins (R147). -/
def paintedAt : List Paint → Int → Int → Option Color
  | [], _, _ => none
  | p :: ps, x, y => (paintedAt ps x y).or (if p.x = x ∧ p.y = y then some p.color else none)

/-- A drawing command of `len` words that starts in s has ended in t and has painted ps: its pixel writes are in the
paint log and in FB, and are those its frames make; DC is what its last DC event set (R130); nothing else has changed but CP, the wire, and what a bulk fill or
a glyph leaves in its buffer (10_state.md R22, R23, R25, R26, 42_transfer_window.md R146, R147). -/
structure Drawing (s t : State) (len : Nat) (ps : List Paint) : Prop where
  cp : t.cp = s.cp + BitVec.ofNat 32 len
  paintLog : t.paintLog = s.paintLog ++ ps
  fb : ∀ x y, fbRead t x y = if visible s x y = true then (paintedAt ps x y).or (fbRead s x y) else fbRead s x y
  wire : ∃ es fs, t.wire = s.wire ++ es ∧ t.dc = dcAfter s.dc es ∧ selAfter false es = false
    ∧ framesFrom s.dc none es = fs
    ∧ frameView t = frameView s ++ fs ∧ fs.flatMap (framePaints (nat16 s.cfgXshift) (nat16 s.cfgYshift)) = ps
  same : t = { s with
    cp := t.cp, latch := [], paintLog := t.paintLog, fb := t.fb, wire := t.wire, dc := t.dc, bufData := t.bufData
    bufTag := t.bufTag, glyphBuf := t.glyphBuf }

/-- The frame of the visible part of the rectangle (x, y, w, h) filled with c: one window transaction with 2 bytes a
pixel, none if nothing of it is visible (43_primitives.md R161 to R164, 42_transfer_window.md R137, R148). -/
def boxFrame (s : State) (x y w h : Int) (c : Color) : List Frame :=
  let xa := max x 0
  let xb := min (x + w) s.cfgWidth.toNat
  let ya := max y 0
  let yb := min (y + h) s.cfgHeight.toNat
  if xa < xb ∧ ya < yb then
    [windowFrame (BitVec.ofInt 16 (xa + s.cfgXshift.toNat)) (BitVec.ofInt 16 (xb - 1 + s.cfgXshift.toNat))
      (BitVec.ofInt 16 (ya + s.cfgYshift.toNat)) (BitVec.ofInt 16 (yb - 1 + s.cfgYshift.toNat))
      (List.replicate ((xb - xa) * (yb - ya)).toNat (wire16 c)).flatten]
  else []

/-- The frames of a list of points: one window transaction a visible point, in order (43_primitives.md R161). -/
def pointFrames (s : State) (c : Color) (pts : List (Int × Int)) : List Frame :=
  pts.flatMap (fun p => boxFrame s p.1 p.2 1 1 c)

/-- No bulk fill and no glyph: the transfer buffer and the glyph buffer stand (42_transfer_window.md R144). -/
def buffersKept (s t : State) : Prop := t.bufData = s.bufData ∧ t.bufTag = s.bufTag ∧ t.glyphBuf = s.glyphBuf

/-- What a bulk fill with c that painted ps leaves in the buffers: the transfer buffer holds c, unless nothing was
painted; the glyph buffer stands (42_transfer_window.md R142, R143, R144). -/
def buffersFilled (s t : State) (c : Color) (ps : List Paint) : Prop :=
  (ps = [] → t.bufData = s.bufData ∧ t.bufTag = s.bufTag)
    ∧ (ps ≠ [] → t.bufData = fillBytes (s.bufBytes.toNat / 2) c ∧ t.bufTag = some c)
    ∧ t.glyphBuf = s.glyphBuf

/-- The visible pixels of a glyph at a baseline cursor in row-major order, foreground or background by its bits
(44_text.md R203, R204). -/
def glyphPaints (s : State) (f : Font) (g : Glyph) (cx cy : Int) (fg bg : Color) : List Paint :=
  ((rectPoints (cx + offset8 g.xOffset) (cy + offset8 g.yOffset) (nat8 g.width) (nat8 g.height)).filter
      (fun p => visible s p.1 p.2)).map
    (fun p => ⟨p.1, p.2, glyphColor f g cx cy fg bg p⟩)

/-- The frames of a glyph at a baseline cursor: none if no pixel of it is visible (44_text.md R205), one window
transaction of its visible rectangle below 1600 visible pixels (R206), and one for each visible pixel from 1600 on
(R207). -/
def glyphFrames (s : State) (f : Font) (g : Glyph) (cx cy : Int) (fg bg : Color) : List Frame :=
  let ps := glyphPaints s f g cx cy fg bg
  let gx := cx + g.xOffset.toInt
  let gy := cy + g.yOffset.toInt
  let xb := min (gx + g.width.toNat) s.cfgWidth.toNat
  let yb := min (gy + g.height.toNat) s.cfgHeight.toNat
  if ps.length = 0 then []
  else if ps.length < 1600 then
    [windowFrame (BitVec.ofInt 16 (max gx 0 + s.cfgXshift.toNat)) (BitVec.ofInt 16 (xb - 1 + s.cfgXshift.toNat))
      (BitVec.ofInt 16 (max gy 0 + s.cfgYshift.toNat)) (BitVec.ofInt 16 (yb - 1 + s.cfgYshift.toNat))
      (ps.flatMap (fun p => wire16 p.color))]
  else ps.flatMap (fun p => boxFrame s p.x p.y 1 1 p.color)

/-- The pixels a string paints from a cursor (44_text.md R209). -/
def stringPaints (s : State) (f : Font) (fg bg : Color) (cx cy : Int) (cs : List Byte) : List Paint :=
  (stringWalk s f fg bg cx cy cs).draws.flatMap drawPixels

/-- The frames of a string from a cursor (44_text.md R209). -/
def stringFrames (s : State) (f : Font) (fg bg : Color) (cx cy : Int) (cs : List Byte) : List Frame :=
  (stringWalk s f fg bg cx cy cs).draws.map (drawFrame s)

/-! ## What a command does, in order -/

/-- What one transaction of a command that starts in s does, in order, told from s alone: a pixel's Txn has one Write
(43_primitives.md R161); a fill's Txn refreshes the buffer at the start of its body, after SetWindow and DC(DATA), and
then sends StreamFill's Writes (42_transfer_window.md R137, R143); a glyph goes into GLYPH_BUF before its Txn, which
has one Write (44_text.md R206). -/
def drawOrder (s : State) : Draw → List Action
  | .pixel x y c => (txn s ⟨x, y, x, y⟩ (write s.par.raw (wire16 c))).map .emit
  | .fill w c =>
    .emit .sel :: (setWindow s w).map .emit ++ .emit (.dc .data) :: .refresh c
      :: (fillChunks s c (windowArea w)).map .emit ++ [.emit .desel]
  | .blit w ks => .loadGlyph ks :: (txn s w (write s.par.raw (ks.flatMap wire16))).map .emit

/-- What DrawGlyph of a glyph in range does, in order: nothing if no pixel of it is visible; below 1600 visible pixels
their colours go into GLYPH_BUF, and then one Txn of the visible rectangle sends them by one Write (44_text.md R206);
from 1600 on, one Txn a pixel, and no buffer (R207). -/
def glyphActions (s : State) (f : Font) (g : Glyph) (cx cy : Int) (fg bg : Color) : List Action :=
  let ps := glyphPaints s f g cx cy fg bg
  let gx := cx + g.xOffset.toInt
  let gy := cy + g.yOffset.toInt
  let xb := min (gx + g.width.toNat) s.cfgWidth.toNat
  let yb := min (gy + g.height.toNat) s.cfgHeight.toNat
  if ps.length = 0 then []
  else if ps.length < 1600 then
    .loadGlyph (ps.map (fun p => p.color))
      :: (txn s ⟨max gx 0, max gy 0, xb - 1, yb - 1⟩
          (write s.par.raw (ps.flatMap (fun p => wire16 p.color)))).map .emit
  else ps.flatMap (fun p => (txn s ⟨p.x, p.y, p.x, p.y⟩ (write s.par.raw (wire16 p.color))).map .emit)

/-- What a string does from a cursor, in order (44_text.md R209). -/
def stringActions (s : State) (f : Font) (fg bg : Color) (cx cy : Int) (cs : List Byte) : List Action :=
  (stringWalk s f fg bg cx cy cs).draws.flatMap (drawOrder s)

/-- Is the command one of 43_primitives.md? -/
def isPrimitive : Instr → Bool
  | .init _ _ _ => false
  | .deinit => false
  | .setRotation _ => false
  | .getGeometry => false
  | .invert _ => false
  | .tearing _ => false
  | .fillScreen _ => true
  | .drawPixel _ _ _ => true
  | .drawLine _ _ _ _ _ => true
  | .drawHLine _ _ _ _ => true
  | .drawVLine _ _ _ _ => true
  | .drawRect _ _ _ _ _ => true
  | .fillRect _ _ _ _ _ => true
  | .drawCircle _ _ _ _ => true
  | .fillCircle _ _ _ _ => true
  | .drawTriangle _ _ _ _ _ _ _ => true
  | .fillTriangle _ _ _ _ _ _ _ => true
  | .drawChar _ _ _ _ _ _ => false
  | .drawString _ _ _ _ _ _ => false
  | .getTextBounds _ _ => false

/-- The transactions of a drawing or text command that READY accepts, in order (43_primitives.md, 44_text.md R208,
R209); none for another command. -/
def commandDraws (i : Instr) (s : State) : List Draw :=
  match i with
  | .init _ _ _ => []
  | .deinit => []
  | .setRotation _ => []
  | .getGeometry => []
  | .invert _ => []
  | .tearing _ => []
  | .fillScreen c => fillBox s 0 0 (nat16 s.cfgWidth) (nat16 s.cfgHeight) c
  | .drawPixel x y c => plotPixel s c (coord x, coord y)
  | .drawLine x0 y0 x1 y1 c => plotAll s c (linePoints (coord x0) (coord y0) (coord x1) (coord y1))
  | .drawHLine x y w c => hSpan s (coord x) (coord y) (coord w) c
  | .drawVLine x y h c => vSpan s (coord x) (coord y) (coord h) c
  | .drawRect x y w h c => rectDraws s (coord x) (coord y) (coord w) (coord h) c
  | .fillRect x y w h c => fillBox s (coord x) (coord y) (coord w) (coord h) c
  | .drawCircle x0 y0 r c => plotAll s c (circlePoints (coord x0) (coord y0) (coord r))
  | .fillCircle x0 y0 r c => spanAll s c (discSpans (coord x0) (coord y0) (coord r))
  | .drawTriangle x1 y1 x2 y2 x3 y3 c =>
    plotAll s c (trianglePoints (coord x1) (coord y1) (coord x2) (coord y2) (coord x3) (coord y3))
  | .fillTriangle x1 y1 x2 y2 x3 y3 c =>
    plotAll s c (fanPoints (coord x1) (coord y1) (coord x2) (coord y2) (coord x3) (coord y3))
  | .drawChar x y ch font fg bg =>
    match fontAt s.par.raw.fonts font with
    | none => []
    | some f =>
      match charLookup f ch with
      | none => []
      | some g => if glyphInRange f g then glyphDraws s f g (coord x) (coord y) fg bg else []
  | .drawString x y font fg bg chars =>
    match fontAt s.par.raw.fonts font with
    | none => []
    | some f => (stringWalk s f fg bg (coord x) (coord y) chars).draws
  | .getTextBounds _ _ => []

/-- The controller commands of a configuration command that READY accepts (41_config.md R103, R105, R107, R109, R110;
INIT's if its request is granted); none for another command. -/
def configEvents (i : Instr) (s : State) : List WireEvent :=
  match i with
  | .init _ rot _ => s.par.raw.initSeq ++ writeCmd s.par.raw 0x36 [perRot s.par.raw.madctl (normRot rot)]
  | .deinit => []
  | .setRotation rot => writeCmd s.par.raw 0x36 [perRot s.par.raw.madctl (normRot rot)]
  | .getGeometry => []
  | .invert on => writeCmd s.par.raw (if on then 0x21 else 0x20) []
  | .tearing on => if on then writeCmd s.par.raw 0x35 s.par.raw.teonParam.toList else writeCmd s.par.raw 0x34 []
  | .fillScreen _ => []
  | .drawPixel _ _ _ => []
  | .drawLine _ _ _ _ _ => []
  | .drawHLine _ _ _ _ => []
  | .drawVLine _ _ _ _ => []
  | .drawRect _ _ _ _ _ => []
  | .fillRect _ _ _ _ _ => []
  | .drawCircle _ _ _ _ => []
  | .fillCircle _ _ _ _ => []
  | .drawTriangle _ _ _ _ _ _ _ => []
  | .fillTriangle _ _ _ _ _ _ _ => []
  | .drawChar _ _ _ _ _ _ => []
  | .drawString _ _ _ _ _ _ => []
  | .getTextBounds _ _ => []

/-- The wire events of a command that READY accepts. -/
def commandEvents (i : Instr) (s : State) : List WireEvent :=
  configEvents i s ++ drawEvents (commandDraws i s) s

/-- How many asynchronous pieces a list of events holds. -/
def asyncCount (es : List WireEvent) : Nat := (es.filter isAsync).length

/-- The command i from s ends in u, once the transport has completed each of its asynchronous pieces: one step runs
the command, and two more each piece; u but for the transport's answers taken, which are an input (42_transfer_window.md
R135, 20_memory.md R73; log 5). -/
def endsIn (i : Instr) (s u : State) : Prop :=
  ∀ rest : List Bool, s.transportScript = List.replicate (asyncCount (commandEvents i s)) true ++ rest →
    ∃ t, exec i s = .next t
      ∧ Host.Core.run Sys2Proof.core (2 * asyncCount (commandEvents i s)) t
        = .next { u with transportScript := rest, draws := u.draws + asyncCount (commandEvents i s) }

/-- How far past its first word a command's end moves CP; none if it ends in a fault (10_state.md R22). -/
def endingLen : Ending → Option Nat
  | .complete len => some len
  | .initialised len => some len
  | .rotated len => some len
  | .faulted _ _ => none

/-- What INIT for a known panel leaves when its request is granted and its events are sent: the old buffer freed
first, the geometry, the fresh buffer, P_INIT_SEQ and the MADCTL write on the wire, READY, FB unknown; all else
unchanged (41_config.md R103, 42_transfer_window.md R139, R147). The fresh buffer's bytes are free (log 6); that the
window frames of P_INIT_SEQ join the paint log is the model's reading (log 13). -/
def initEnd (panel : Fin 3) (rot : Byte) (hint : BitVec 32) (s : State) : State :=
  let g := calibAt s.par.raw.calib panel (normRot rot)
  let n := allocSize { s with cfgWidth := g.width } hint
  let es := s.par.raw.initSeq ++ writeCmd s.par.raw 0x36 [perRot s.par.raw.madctl (normRot rot)]
  { s with
    cp := s.cp + 4
    latch := []
    engine := .ready
    errCode := .none
    cfgWidth := g.width
    cfgHeight := g.height
    cfgXshift := g.xShift
    cfgYshift := g.yShift
    cfgRot := normRot rot
    cfgPanel := panel
    bufPresent := true
    bufBytes := BitVec.ofNat 32 n
    bufData := (List.range n).map (Config.freshByte s.draws)
    bufTag := none
    dc := dcAfter s.dc es
    fb := []
    wire := s.wire ++ es
    alloc := (if s.bufPresent then s.alloc ++ [.free] else s.alloc) ++ [.alloc n true]
    paintLog := s.paintLog ++ (newFrames s es).flatMap (framePaints (nat16 g.xShift) (nat16 g.yShift))
    allocScript := s.allocScript.tail
    draws := s.draws + 1 }

/-- What SET_ROTATION leaves when its MADCTL write is sent: the table's geometry for the panel in force, the buffer
kept, FB unknown (41_config.md R107, R105, 42_transfer_window.md R147). -/
def rotationEnd (rot : Byte) (s : State) : State :=
  let g := calibAt s.par.raw.calib s.cfgPanel (normRot rot)
  { s with
    cp := s.cp + 2, latch := [], cfgWidth := g.width, cfgHeight := g.height, cfgXshift := g.xShift
    cfgYshift := g.yShift, cfgRot := normRot rot, dc := .data, fb := []
    wire := s.wire ++ writeCmd s.par.raw 0x36 [perRot s.par.raw.madctl (normRot rot)] }

/-! ## The invariant -/

/-- The geometry in force. -/
def geometryOf (s : State) : Geometry := ⟨s.cfgWidth, s.cfgHeight, s.cfgXshift, s.cfgYshift⟩

/-- 10_state.md R38: the geometry is the table's entry for (CFG_PANEL, CFG_ROT); before the first INIT that passes its
panel check it is the reset value, and there is no buffer. -/
def cfgInv (s : State) : Prop :=
  geometryOf s = calibAt s.par.raw.calib s.cfgPanel s.cfgRot
    ∨ (geometryOf s = ⟨0, 0, 0, 0⟩ ∧ s.cfgRot = 0 ∧ s.cfgPanel = 0 ∧ s.bufPresent = false ∧ s.running = none
        ∧ (s.engine = .uninit ∨ s.engine = .halted))

/-- 10_state.md R29, R30, 20_memory.md R78: a present buffer has an even size from P_BUF_MIN_BYTES up to W x K x 2 for
the W of some entry of the table (the width at its allocation), and BUF_TAG names the fill it holds; an absent one has
size 0. -/
def bufInv (s : State) : Prop :=
  (s.bufPresent = true →
    s.bufData.length = s.bufBytes.toNat ∧ s.bufBytes.toNat % 2 = 0 ∧ s.par.raw.bufMinBytes ≤ s.bufBytes.toNat
      ∧ (calibList s.par.raw.calib).any
          (fun g => decide (s.bufBytes.toNat ≤ g.width.toNat * s.par.raw.kLines * 2)) = true
      ∧ s.bufTag.all (fun c => decide (s.bufData = fillBytes (s.bufBytes.toNat / 2) c)) = true)
    ∧ (s.bufPresent = false → s.bufBytes = 0 ∧ s.bufData = [] ∧ s.bufTag = none)

/-- Is the code a fault's, not NONE or the result ALLOC_ERROR (60_exceptions.md R231)? -/
def isFaultCode : ErrCode → Bool
  | .none => false
  | .allocError => false
  | .illegalCommand => true
  | .reservedField => true
  | .truncated => true
  | .notReady => true
  | .badPanel => true
  | .fontFault => true

/-- 10_state.md R24, R28, 60_exceptions.md R233, R234, R238: what each engine state says of the buffer, ERRCODE and
FAULT_CP. -/
def engineInv (s : State) : Prop :=
  (s.engine = .uninit → (s.errCode = .none ∨ s.errCode = .allocError) ∧ (s.running = none → s.bufPresent = false))
    ∧ (s.engine = .ready → s.errCode = .none ∧ s.bufPresent = true)
    ∧ (s.engine = .allocFailed → s.errCode = .allocError ∧ (s.running = none → s.bufPresent = false))
    ∧ (s.engine = .halted → isFaultCode s.errCode = true ∧ s.faultCp = s.cp ∧ s.running = none)

/-- How a running command may end. -/
def endingOk (s : State) : Ending → Bool
  | .complete len => decide (s.engine = .ready) && decide (s.cp.toNat + len ≤ s.cmds.length)
  | .rotated len => decide (s.engine = .ready) && decide (s.cp.toNat + len ≤ s.cmds.length)
  | .initialised len => decide (s.engine ≠ .halted) && s.bufPresent && decide (s.cp.toNat + len ≤ s.cmds.length)
  | .faulted code _ => decide (s.engine = .ready) && isFaultCode code

/-- An event is one of the alphabet of 42_transfer_window.md R130: a piece has 1 to P_MAX_XFER bytes, and is
asynchronous only if that mode exists (R135). -/
def eventOk (p : RawParams) : WireEvent → Bool
  | .xfer m bs => decide (1 ≤ bs.length) && decide (bs.length ≤ p.maxXfer) && (decide (m = .sync) || p.asyncEnable)
  | .sel => true
  | .desel => true
  | .dc _ => true
  | .rst _ => true
  | .delay _ => true

/-- An action a running command may have: an event of the alphabet, a refresh, or a glyph that fits GLYPH_BUF
(10_state.md R31). -/
def actionOk (p : RawParams) : Action → Bool
  | .emit e => eventOk p e
  | .refresh _ => true
  | .loadGlyph ks => decide (ks.length ≤ glyphSlots)

/-- A running command's coming actions are allowed, its events return SEL to 0 (10_state.md R32), and it may end. -/
def runningOk (s : State) (r : Running) : Bool :=
  r.queue.all (actionOk s.par.raw) && !selAfter s.sel (eventsOf r.queue) && endingOk s r.ending

/-- 10_state.md R21, R32, R33: between commands SEL = 0, XFER_BUSY = 0 and the latch is empty; a running command is
one whose events are still to come. -/
def busInv (s : State) : Prop :=
  (s.running = none → s.sel = false ∧ s.xferBusy = false ∧ s.latch = [])
    ∧ s.running.all (runningOk s) = true ∧ s.wire.all (eventOk s.par.raw) = true

/-- 10_state.md R22: the stream is one CP can address, and CP lies in it or at its end. -/
def streamInv (s : State) : Prop := streamOk s.cmds = true ∧ s.cp.toNat ≤ s.cmds.length

/-- The invariant of every state a run reaches. -/
def Inv (s : State) : Prop :=
  cfgInv s ∧ bufInv s ∧ engineInv s ∧ busInv s ∧ streamInv s ∧ s.glyphBuf.length = glyphSlots ∧ memWf s.fb = true

/-! ## How a run ends (70_reset_and_hazards.md R272) -/

/-- `done`: every command ran and the engine is idle. -/
def done (s : State) : Bool :=
  decide (s.engine ≠ .halted) && decide (s.cp.toNat = s.cmds.length) && !s.sel && !s.xferBusy

/-- `fault`: STATE = HALTED. -/
def faulted (s : State) : Bool := decide (s.engine = .halted)

/-- `hang`: XFER_BUSY = 1 and the transport never completes. -/
def hangs (s : State) : Prop := ∀ n, ∃ t, Host.Core.run Sys2Proof.core n s = .next t ∧ t.xferBusy = true

end Sys2Proof.Machine
end

