-- ==== Sys2Proof/Certificates/Slice0/Obligations.lean ====
section
/-! DEFINITION. The statements about HGR-v7 for the provers. Each docstring names the rules of spec/ it formalises;
`log n` is notes/assumptions/n.md. `syncOnly` says that the transport has no asynchronous mode, so that a command ends
in its own step; `AsyncRunCompletes` says that with that mode every command comes to the same end. -/

section

open Sys2Proof Sys2Proof.Machine

/-! ## Encoding -/

/-- Every well-formed command's words decode to it, whatever follows (30_encoding.md R80 to R86). -/
def Obligations.DecodeEncode : Prop :=
  ∀ (i : Instr) (rest : List Word), wellFormed i = true → decode (encode i ++ rest) = .command i

/-- What decodes is well formed, and its words are the encoder's: each command has one encoding (R80 to R88). -/
def Obligations.EncodeDecode : Prop :=
  ∀ (ws : List Word) (i : Instr), decode ws = .command i →
    wellFormed i = true ∧ cmdLen i ≤ ws.length ∧ encode i = ws.take (cmdLen i)

/-- Words written out from 30_encoding.md R85, one or more a family (95_test_vectors.md E2, E4, E6, E7, E9). -/
def Obligations.SampleWords : Prop :=
  decode [0x0001, 0x6302, 0x0400, 0x0000] = .command (.init 2 99 1024)
    ∧ decode [0x0012, 0xFFFE, 0x0000, 0x0004, 0x0000, 0xF800] = .command (.drawLine 0xFFFE 0 4 0 0xF800)
    ∧ decode [0x0020, 0x000A, 0x0014, 0x0021, 0xFFFF, 0x0000] = .command (.drawChar 10 20 0x21 0 0xFFFF 0)
    ∧ decode [0x0021, 0x0000, 0x000A, 0x0000, 0xFFFF, 0x0000, 0x0003, 0x2221, 0x0021]
        = .command (.drawString 0 10 0 0xFFFF 0 [0x21, 0x22, 0x21])
    ∧ decode [0x0022, 0x0000, 0x0003, 0x4121, 0x0021] = .command (.getTextBounds 0 [0x21, 0x41, 0x21])

/-- 30_encoding.md R87: the illegal OPC values, with FAULT_ARG the header word; they rank before RESERVED_FIELD in the
header and TRUNCATED (60_exceptions.md R236), since the header's high byte and the words after it are arbitrary. -/
def Obligations.IllegalOpcode : Prop :=
  ∀ (h : Word) (ops : List Word),
    ((lowByte h).toNat = 0x00 ∨ (0x07 ≤ (lowByte h).toNat ∧ (lowByte h).toNat ≤ 0x0F)
        ∨ (0x1B ≤ (lowByte h).toNat ∧ (lowByte h).toNat ≤ 0x1F)
        ∨ (0x23 ≤ (lowByte h).toNat ∧ (lowByte h).toNat ≤ 0xFF)) →
      decode (h :: ops) = .malformed .illegalCommand h

/-- 30_encoding.md R86: a command whose stream ends before its COUNT word or its last word raises TRUNCATED, with
FAULT_ARG the number of words left (60_exceptions.md R231), whatever its operand words hold (R236). -/
def Obligations.TruncatedCommand : Prop :=
  ∀ (h : Word) (ops : List Word) (n : Nat), highByte h = 0 → baseLen (lowByte h).toNat = some n →
    (ops.length + 1 < n → decode (h :: ops) = .malformed .truncated (BitVec.ofNat 16 (ops.length + 1)))
      ∧ ((lowByte h).toNat = 0x21 → 7 ≤ ops.length + 1 →
          ops.length + 1 < 7 + ((ops.getD 5 0).toNat + 1) / 2 →
          decode (h :: ops) = .malformed .truncated (BitVec.ofNat 16 (ops.length + 1)))
      ∧ ((lowByte h).toNat = 0x22 → 3 ≤ ops.length + 1 →
          ops.length + 1 < 3 + ((ops.getD 1 0).toNat + 1) / 2 →
          decode (h :: ops) = .malformed .truncated (BitVec.ofNat 16 (ops.length + 1)))

/-- 30_encoding.md R88: every reserved field, with FAULT_ARG the word's index (60_exceptions.md R231); a reserved
header ranks before TRUNCATED, a reserved operand after it (R236). INIT's panel byte and every rotation byte take
every value. -/
def Obligations.ReservedFields : Prop :=
  (∀ (h : Word) (ops : List Word), baseLen (lowByte h).toNat ≠ none → highByte h ≠ 0 →
      decode (h :: ops) = .malformed .reservedField 0)
    ∧ (∀ (w : Word) (rest : List Word), highByte w ≠ 0 →
        decode (0x0003 :: w :: rest) = .malformed .reservedField 1)
    ∧ (∀ (w : Word) (rest : List Word), flagReserved w ≠ 0 →
        decode (0x0005 :: w :: rest) = .malformed .reservedField 1
          ∧ decode (0x0006 :: w :: rest) = .malformed .reservedField 1)
    ∧ (∀ (x y f fg bg n : Word) (rest : List Word), (n.toNat + 1) / 2 ≤ rest.length →
        (highByte f ≠ 0 → decode (0x0021 :: x :: y :: f :: fg :: bg :: n :: rest) = .malformed .reservedField 3)
          ∧ (highByte f = 0 → n.toNat % 2 = 1 → highByte (rest.getD (n.toNat / 2) 0) ≠ 0 →
              decode (0x0021 :: x :: y :: f :: fg :: bg :: n :: rest)
                = .malformed .reservedField (BitVec.ofNat 16 (7 + n.toNat / 2))))
    ∧ (∀ (f n : Word) (rest : List Word), (n.toNat + 1) / 2 ≤ rest.length →
        (highByte f ≠ 0 → decode (0x0022 :: f :: n :: rest) = .malformed .reservedField 1)
          ∧ (highByte f = 0 → n.toNat % 2 = 1 → highByte (rest.getD (n.toNat / 2) 0) ≠ 0 →
              decode (0x0022 :: f :: n :: rest) = .malformed .reservedField (BitVec.ofNat 16 (3 + n.toNat / 2))))
    ∧ (∀ (w lo hi : Word) (rest : List Word),
        decode (0x0001 :: w :: lo :: hi :: rest) = .command (.init (lowByte w) (highByte w) (hi ++ lo)))
    ∧ ∀ (w : Word) (rest : List Word), highByte w = 0 →
        decode (0x0003 :: w :: rest) = .command (.setRotation (lowByte w))

/-! ## The step -/

/-- The bridge from the meanings to a run: where the words at CP decode to a command, the step is that command's
meaning, after the operand latch is loaded with its words (10_state.md R21; 70_reset_and_hazards.md R272). -/
def Obligations.StepRunsDecoded : Prop :=
  ∀ (s : State) (i : Instr), s.xferBusy = false → s.running = none → s.engine ≠ .halted → streamOk s.cmds = true →
    s.cp.toNat < s.cmds.length → decode (s.cmds.drop s.cp.toNat) = .command i →
      step s = exec i { s with latch := (s.cmds.drop s.cp.toNat).take (cmdLen i) }

/-- 60_exceptions.md R233: a decode fault in any state but HALTED, as a next state with every register it writes; it
ranks before NOT_READY (R236), since STATE is arbitrary. -/
def Obligations.StepTakesDecodeFault : Prop :=
  ∀ (s : State) (code : ErrCode) (arg : Word), s.xferBusy = false → s.running = none → s.engine ≠ .halted →
    streamOk s.cmds = true → s.cp.toNat < s.cmds.length →
    decode (s.cmds.drop s.cp.toNat) = .malformed code arg →
      step s = .next
        { s with engine := .halted, errCode := code, faultCp := s.cp, faultArg := arg, latch := [] }

/-- 70_reset_and_hazards.md R272, 60_exceptions.md R237: the engine idles at the end of the stream, emitting nothing,
and in HALTED it takes no further command. That such a step answers the same state is the model's (log 14). -/
def Obligations.IdleAndHaltedStay : Prop :=
  ∀ s : State, s.xferBusy = false → s.running = none →
    (s.engine = .halted ∨ (streamOk s.cmds = true ∧ s.cp.toNat = s.cmds.length)) → step s = .next s

/-- 60_exceptions.md R237, R232: in HALTED no step changes anything (log 14), no command is decoded, and the only host
move that has a meaning is the reset, which leaves UNINIT (the refusal of an append is the model's, log 17). -/
def Obligations.OnlyResetLeavesHalted : Prop :=
  ∀ s : State, Inv s → s.engine = .halted →
    step s = .next s ∧ (∀ i : Instr, exec i s = .next s) ∧ (∀ ws : List Word, hostMove (.append ws) s = .refused .streamInUse)
      ∧ ∃ t, hostMove .reset s = .next t ∧ t.engine = .uninit

/-- 60_exceptions.md R235: a command but DRAW_STRING that faults has no effect except the fault entry itself. -/
def Obligations.FaultsArePrecise : Prop :=
  ∀ (i : Instr) (s t : State), s.engine ≠ .halted → (∀ x y font fg bg chars, i ≠ .drawString x y font fg bg chars) →
    exec i s = .next t → t.engine = .halted →
      t = { s with engine := .halted, errCode := t.errCode, faultCp := s.cp, faultArg := t.faultArg, latch := [] }

/-- 60_exceptions.md R231, R232: in UNINIT and ALLOC_FAILED every command but INIT, DEINIT, GET_GEOMETRY and
GET_TEXT_BOUNDS raises NOT_READY, with FAULT_ARG its OPC, the value of its header word. -/
def Obligations.NotReadyFaults : Prop :=
  ∀ (i : Instr) (s : State), (s.engine = .uninit ∨ s.engine = .allocFailed) → (∀ p r h, i ≠ .init p r h) →
    i ≠ .deinit → i ≠ .getGeometry → (∀ f cs, i ≠ .getTextBounds f cs) →
      exec i s = .next
        { s with
          engine := .halted, errCode := .notReady, faultCp := s.cp, faultArg := (encode i).headD 0, latch := [] }

/-- 60_exceptions.md R231, R236: BAD_PANEL with the panel byte, in every state that accepts INIT; FONT_FAULT with
0xFFFF for an absent font, where the text command is accepted. -/
def Obligations.OperandFaults : Prop :=
  (∀ (panel rot : Byte) (hint : BitVec 32) (s : State), s.engine ≠ .halted → 3 ≤ panel.toNat →
      exec (.init panel rot hint) s = .next
        { s with
          engine := .halted, errCode := .badPanel, faultCp := s.cp, faultArg := panel.setWidth 16, latch := [] })
    ∧ (∀ (x y : Word) (ch font : Byte) (fg bg : Color) (chars : List Byte) (s : State), s.engine = .ready →
        fontAt s.par.raw.fonts font = none →
          exec (.drawChar x y ch font fg bg) s = .next
              { s with engine := .halted, errCode := .fontFault, faultCp := s.cp, faultArg := 0xFFFF, latch := [] }
            ∧ exec (.drawString x y font fg bg chars) s = .next
                { s with engine := .halted, errCode := .fontFault, faultCp := s.cp, faultArg := 0xFFFF, latch := [] })
    ∧ ∀ (font : Byte) (chars : List Byte) (s : State), s.engine ≠ .halted → fontAt s.par.raw.fonts font = none →
        exec (.getTextBounds font chars) s = .next
          { s with engine := .halted, errCode := .fontFault, faultCp := s.cp, faultArg := 0xFFFF, latch := [] }

/-! ## Reset and the host -/

/-- 10_state.md R36: the values the spec gives for reset. DC and GLYPH_BUF, unspecified there, are not stated. -/
def Obligations.ResetValues : Prop :=
  State.reset.cp = 0 ∧ statusWord State.reset = 0x0000 ∧ State.reset.engine = .uninit
    ∧ State.reset.errCode = .none ∧ State.reset.faultCp = 0 ∧ State.reset.faultArg = 0 ∧ State.reset.res0 = 0
    ∧ State.reset.res1 = 0 ∧ State.reset.res2 = 0 ∧ State.reset.res3 = 0 ∧ State.reset.cfgWidth = 0
    ∧ State.reset.cfgHeight = 0 ∧ State.reset.cfgXshift = 0 ∧ State.reset.cfgYshift = 0 ∧ State.reset.cfgRot = 0
    ∧ State.reset.cfgPanel = 0 ∧ State.reset.bufPresent = false ∧ State.reset.bufBytes = 0
    ∧ State.reset.bufData = [] ∧ State.reset.bufTag = none ∧ State.reset.sel = false
    ∧ State.reset.xferBusy = false ∧ State.reset.latch = [] ∧ State.reset.running = none
    ∧ State.reset.wire = [] ∧ State.reset.alloc = []

/-- 70_reset_and_hazards.md R260, R261, 10_state.md R36: the reset the host asserts: the registers take their reset
values, FB is unknown (42_transfer_window.md R147), and no wire or allocator event is emitted, so the frames and the
paint log stand too. That it may come in any state, also while a command waits, is the model's (log 16, DESIGN CHOICE:
R261 leaves it to the platform; it never comes inside a step, so it cuts a command only where one waits), and so is
that the traces go on from there (log 16, DEDUCED). -/
def Obligations.EngineReset : Prop :=
  ∀ s : State, ∃ t, hostMove .reset s = .next t ∧ t.wire = s.wire ∧ t.alloc = s.alloc ∧ frameView t = frameView s
    ∧ t.paintLog = s.paintLog ∧ t.cp = 0
    ∧ statusWord t = 0x0000 ∧ t.faultCp = 0 ∧ t.faultArg = 0
    ∧ t.res0 = 0 ∧ t.res1 = 0 ∧ t.res2 = 0 ∧ t.res3 = 0 ∧ geometryOf t = ⟨0, 0, 0, 0⟩ ∧ t.cfgRot = 0
    ∧ t.cfgPanel = 0 ∧ t.bufPresent = false ∧ t.bufBytes = 0 ∧ t.bufTag = none ∧ t.sel = false
    ∧ t.xferBusy = false ∧ t.running = none ∧ t.latch = [] ∧ ∀ x y, fbRead t x y = none

/-- 10_state.md R24, R35, 60_exceptions.md R231: the layout of STATUS and its values; what the host reads: the register
between commands, and the value before or after a command that waits; and that words may be appended only while the
engine idles at the end of the stream, and only up to what CP can address (20_memory.md R76, 10_state.md R22). The
refusals are the model's (log 17). -/
def Obligations.HostPort : Prop :=
  (∀ s : State, (statusWord s).extractLsb' 0 2 = engineBits s.engine ∧ (statusWord s).extractLsb' 2 6 = 0
      ∧ (statusWord s).extractLsb' 8 8 = errBits s.errCode)
    ∧ (engineBits .uninit = 0 ∧ engineBits .ready = 1 ∧ engineBits .allocFailed = 2 ∧ engineBits .halted = 3)
    ∧ (errBits .none = 0x00 ∧ errBits .allocError = 0x01 ∧ errBits .illegalCommand = 0x10
      ∧ errBits .reservedField = 0x11 ∧ errBits .truncated = 0x12 ∧ errBits .notReady = 0x13
      ∧ errBits .badPanel = 0x14 ∧ errBits .fontFault = 0x15)
    ∧ (∀ (late : Bool) (s : State), s.running = none →
        (hostRead late .status s).toNat = (statusWord s).toNat ∧ hostRead late .faultCp s = s.faultCp
          ∧ (hostRead late .faultArg s).toNat = s.faultArg.toNat ∧ (hostRead late .res0 s).toNat = s.res0.toNat
          ∧ (hostRead late .res1 s).toNat = s.res1.toNat ∧ (hostRead late .res2 s).toNat = s.res2.toNat
          ∧ (hostRead late .res3 s).toNat = s.res3.toNat)
    ∧ (∀ (r : Running) (reg : HostReg) (s : State), s.running = some r → allSync (eventsOf r.queue) →
        hostRead false reg s = hostReg reg s ∧ hostRead true reg s = hostReg reg (drain r s))
    ∧ ∀ (s : State) (ws : List Word),
        (idle s = true → (s.cmds ++ ws).length < 4294967296 →
            hostMove (.append ws) s = .next { s with cmds := s.cmds ++ ws })
          ∧ (idle s = true → 4294967296 ≤ (s.cmds ++ ws).length →
              hostMove (.append ws) s = .refused .streamTooLong)
          ∧ (idle s = false → hostMove (.append ws) s = .refused .streamInUse)

/-! ## The invariant -/

/-- The invariant holds after reset. It rests on the model's GLYPH_BUF of 1599 slots at reset (log 9). -/
def Obligations.ResetInv : Prop := Inv State.reset

/-- Every step keeps the invariant: the geometry is the table's entry (10_state.md R38), the buffer's size and tag
(R29, R30, 20_memory.md R78), what each engine state means (R28), SEL and XFER_BUSY between commands (R32, R33), the
alphabet of the wire (42_transfer_window.md R130), CP in the stream (R22), the form of FB. -/
def Obligations.StepKeepsInv : Prop := ∀ s t : State, Inv s → step s = .next t → Inv t

/-- Every move of the host keeps the invariant. -/
def Obligations.HostMoveKeepsInv : Prop := ∀ (m : HostMove) (s t : State), Inv s → hostMove m s = .next t → Inv t

/-- A machine in a state that meets the invariant never stops with a model fault or a refusal: every step, the one
that takes a fault of 60_exceptions.md R231 among them, has a next state. That a step in HALTED and one at the end of
the stream answer a state, the same one, is the model's (log 14, DESIGN CHOICE). -/
def Obligations.StepNeverStops : Prop := ∀ s : State, Inv s → ∃ t, step s = .next t

/-- In READY between commands, the invariant gives what the statements about drawing commands assume, also after the
latch is loaded. -/
def Obligations.InvGivesDrawReady : Prop :=
  ∀ (s : State) (ws : List Word), Inv s → s.engine = .ready → s.running = none → drawReady { s with latch := ws }

/-! ## What a command leaves unchanged -/

/-- 10_state.md R23, R26, R27: only GET_GEOMETRY and GET_TEXT_BOUNDS write result registers, the latter RES0 and RES1
alone; only INIT and SET_ROTATION write the configuration registers; and a step that takes up a suspended command, or
waits for it, writes none of them. -/
def Obligations.RegisterOwners : Prop :=
  (∀ (i : Instr) (s t : State), exec i s = .next t →
      (i ≠ .getGeometry → t.res2 = s.res2 ∧ t.res3 = s.res3)
        ∧ (i ≠ .getGeometry → (∀ f cs, i ≠ .getTextBounds f cs) → t.res0 = s.res0 ∧ t.res1 = s.res1)
        ∧ ((∀ p r h, i ≠ .init p r h) → (∀ r, i ≠ .setRotation r) →
            geometryOf t = geometryOf s ∧ t.cfgRot = s.cfgRot)
        ∧ ((∀ p r h, i ≠ .init p r h) → t.cfgPanel = s.cfgPanel))
    ∧ ∀ (r : Running) (s t : State), s.running = some r → step s = .next t →
        t.res0 = s.res0 ∧ t.res1 = s.res1 ∧ t.res2 = s.res2 ∧ t.res3 = s.res3 ∧ geometryOf t = geometryOf s
          ∧ t.cfgRot = s.cfgRot ∧ t.cfgPanel = s.cfgPanel

/-- 10_state.md R25: FAULT_CP and FAULT_ARG are written only at fault entry, FAULT_CP with CP; both keep their value
otherwise. -/
def Obligations.FaultRegisterOwners : Prop :=
  ∀ s t : State, step s = .next t →
    (t.faultCp = s.faultCp ∧ t.faultArg = s.faultArg) ∨ (t.engine = .halted ∧ t.faultCp = s.cp)

/-- 10_state.md R29, R31, 42_transfer_window.md R144: only INIT and DEINIT take or release the transfer buffer or move
the allocator; only they, FILL_SCREEN, FILL_RECT, DRAW_HLINE, DRAW_VLINE, DRAW_RECT and FILL_CIRCLE write its contents
or tag, or, where they wait, have a Refresh still to do; only DRAW_CHAR and DRAW_STRING write GLYPH_BUF, or have a glyph
still to load. 70_reset_and_hazards.md R267: while a transfer is outstanding nothing is written. The step that then
takes a command up does an initial part of what the command has still to do and leaves the rest; it writes the buffers
as that part does, so BUF_DATA and BUF_TAG only if that part has a Refresh, and GLYPH_BUF only if it has a glyph. -/
def Obligations.BufferOwners : Prop :=
  (∀ (i : Instr) (s t : State), exec i s = .next t →
      ((∀ p r h, i ≠ .init p r h) → i ≠ .deinit →
          t.bufPresent = s.bufPresent ∧ t.bufBytes = s.bufBytes ∧ t.alloc = s.alloc ∧ t.allocScript = s.allocScript)
        ∧ ((∀ p r h, i ≠ .init p r h) → i ≠ .deinit → (∀ c, i ≠ .fillScreen c) →
            (∀ x y w h c, i ≠ .fillRect x y w h c) → (∀ x y w c, i ≠ .drawHLine x y w c) →
            (∀ x y h c, i ≠ .drawVLine x y h c) → (∀ x y w h c, i ≠ .drawRect x y w h c) →
            (∀ x y r c, i ≠ .fillCircle x y r c) → t.bufData = s.bufData ∧ t.bufTag = s.bufTag
              ∧ ∀ r c, s.running = none → t.running = some r → Action.refresh c ∉ r.queue)
        ∧ ((∀ x y ch f fg bg, i ≠ .drawChar x y ch f fg bg) → (∀ x y f fg bg cs, i ≠ .drawString x y f fg bg cs) →
            t.glyphBuf = s.glyphBuf
              ∧ ∀ r ks, s.running = none → t.running = some r → Action.loadGlyph ks ∉ r.queue))
    ∧ ∀ (r : Running) (s t : State), s.running = some r → step s = .next t →
        t.bufPresent = s.bufPresent ∧ t.bufBytes = s.bufBytes ∧ t.alloc = s.alloc ∧ t.allocScript = s.allocScript
          ∧ (s.xferBusy = true →
              t.bufData = s.bufData ∧ t.bufTag = s.bufTag ∧ t.glyphBuf = s.glyphBuf ∧ t.running = s.running)
          ∧ (s.xferBusy = false → ∃ now rest, r.queue = now ++ rest
              ∧ t.bufData = (bufferWrites now s).bufData ∧ t.bufTag = (bufferWrites now s).bufTag
              ∧ t.glyphBuf = (bufferWrites now s).glyphBuf
              ∧ ((∀ c, Action.refresh c ∉ now) → t.bufData = s.bufData ∧ t.bufTag = s.bufTag)
              ∧ ((∀ ks, Action.loadGlyph ks ∉ now) → t.glyphBuf = s.glyphBuf)
              ∧ ∀ r', t.running = some r' → r'.queue = rest)

/-- 20_memory.md R61, R70, R77: no step writes the stream or the parameters; wire events, allocator events and pixel
writes are only ever appended. 00_scope.md R14 (c), 42_transfer_window.md R134, R146, R147: the paint log is a view of
the wire trace at every step, also where a command waits: it gains the pixels of exactly the frames that the step's
events close, under the shift in force, and FB takes them, the last write winning, unless the step forgets it. That a
frame's pixels join both when it closes, under the shift then in force, those of P_INIT_SEQ's window frames too, and
where FB is forgotten, is the model's reading (log 13, DEDUCED). A host move changes no trace (log 16). -/
def Obligations.TracesOnlyGrow : Prop :=
  (∀ s t : State, step s = .next t →
      t.cmds = s.cmds ∧ t.par = s.par ∧ (∃ es, t.wire = s.wire ++ es) ∧ (∃ es, t.alloc = s.alloc ++ es)
        ∧ ∃ fs ps, frameView t = frameView s ++ fs ∧ t.paintLog = s.paintLog ++ ps
          ∧ ps = fs.flatMap (framePaints (nat16 t.cfgXshift) (nat16 t.cfgYshift))
          ∧ (memWf s.fb = true → t.fb ≠ [] → ∀ x y,
              fbRead t x y = if visible t x y = true then (paintedAt ps x y).or (fbRead s x y) else fbRead s x y))
    ∧ ∀ (m : HostMove) (s t : State), hostMove m s = .next t →
        t.wire = s.wire ∧ t.alloc = s.alloc ∧ t.paintLog = s.paintLog

/-- 10_state.md R22, 30_encoding.md R91: a command that ends sets CP past itself or, if it faults, leaves CP; one that
waits has not moved CP, and will move it by its own length. The step that takes it up, or waits for it, moves CP by
that length if the command ends there, and leaves CP if it does not end or ends in a fault. -/
def Obligations.CommandPointer : Prop :=
  (∀ (i : Instr) (s t : State), s.running = none → s.engine ≠ .halted → exec i s = .next t →
      (t.running = none → t.engine ≠ .halted → t.cp = s.cp + BitVec.ofNat 32 (cmdLen i))
        ∧ (t.running = none → t.engine = .halted → t.cp = s.cp)
        ∧ ∀ r, t.running = some r → t.cp = s.cp ∧ ∀ n, endingLen r.ending = some n → n = cmdLen i)
    ∧ ∀ (r : Running) (s t : State), s.running = some r → step s = .next t →
        (∀ r', t.running = some r' → t.cp = s.cp ∧ r'.ending = r.ending)
          ∧ (t.running = none → ∀ n, endingLen r.ending = some n → t.cp = s.cp + BitVec.ofNat 32 n)
          ∧ (t.running = none → endingLen r.ending = none → t.cp = s.cp ∧ t.engine = .halted ∧ t.faultCp = s.cp)

/-! ## Configuration commands -/

/-- 41_config.md R101: NormRot, and that a rotation byte above 3 gives exactly what rotation 0 gives, in the engine
and on the wire. -/
def Obligations.RotationNormalised : Prop :=
  (∀ v : Byte, (v.toNat < 4 → (normRot v).toNat = v.toNat) ∧ (4 ≤ v.toNat → normRot v = 0))
    ∧ ∀ (v panel : Byte) (hint : BitVec 32) (s : State), 4 ≤ v.toNat →
        exec (.init panel v hint) s = exec (.init panel 0 hint) s
          ∧ exec (.setRotation v) s = exec (.setRotation 0) s

/-- 42_transfer_window.md R139: the size of the request. In a table geometry it lies between the minimum and W x K x 2
(10_state.md R30), it is that maximum for hint 0, and a hint in range is taken, rounded down to even. -/
def Obligations.AllocationSize : Prop :=
  ∀ (s : State) (hint : BitVec 32) (p : Fin 3) (r : BitVec 2), geometryOf s = calibAt s.par.raw.calib p r →
    s.par.raw.bufMinBytes ≤ allocSize s hint ∧ allocSize s hint % 2 = 0
      ∧ allocSize s hint ≤ s.cfgWidth.toNat * s.par.raw.kLines * 2
      ∧ (hint = 0 → allocSize s hint = s.cfgWidth.toNat * s.par.raw.kLines * 2)
      ∧ (hint ≠ 0 → hint.toNat ≤ s.par.raw.bufMinBytes → allocSize s hint = s.par.raw.bufMinBytes)
      ∧ (s.par.raw.bufMinBytes ≤ hint.toNat → hint.toNat ≤ s.cfgWidth.toNat * s.par.raw.kLines * 2 →
          allocSize s hint = hint.toNat - hint.toNat % 2)
      ∧ (s.cfgWidth.toNat * s.par.raw.kLines * 2 ≤ hint.toNat →
          allocSize s hint = s.cfgWidth.toNat * s.par.raw.kLines * 2)

/-- 41_config.md R103, 42_transfer_window.md R139: INIT for a known panel whose request is granted, in any accepted
state, leaves `initEnd`: the old buffer freed first, the geometry, the fresh buffer, P_INIT_SEQ, the MADCTL write,
READY; FB unknown (R147); all else unchanged; and its pixel writes are those of the frames its events close. The fresh
buffer's bytes are free (log 6), and the allocator's answer is an input (log 4); that window frames of P_INIT_SEQ join
the paint log is the model's reading (log 13). -/
def Obligations.InitGranted : Prop :=
  ∀ (panel rot : Byte) (hint : BitVec 32) (s : State) (hp : panel.toNat < 3), s.engine ≠ .halted →
    s.running = none → s.sel = false → syncOnly s → allocAnswer s = true →
      exec (.init panel rot hint) s = .next (initEnd ⟨panel.toNat, hp⟩ rot hint s)
        ∧ ∃ fs, frameView (initEnd ⟨panel.toNat, hp⟩ rot hint s) = frameView s ++ fs
          ∧ (initEnd ⟨panel.toNat, hp⟩ rot hint s).paintLog
            = s.paintLog ++ fs.flatMap
                (framePaints (nat16 (calibAt s.par.raw.calib ⟨panel.toNat, hp⟩ (normRot rot)).xShift)
                  (nat16 (calibAt s.par.raw.calib ⟨panel.toNat, hp⟩ (normRot rot)).yShift))

/-- 41_config.md R103, 60_exceptions.md R234: INIT whose request is refused completes with ALLOC_ERROR: no wire event,
the new geometry, no buffer, FAULT_CP and FAULT_ARG not written. The allocator's answer is an input (log 4). That FB is
`unknown` after it is the model's reading (log 13, DEDUCED) of "unknown everywhere ... after every INIT"
(42_transfer_window.md R147). -/
def Obligations.InitRefused : Prop :=
  ∀ (panel rot : Byte) (hint : BitVec 32) (s : State) (hp : panel.toNat < 3), s.engine ≠ .halted →
    (s.bufPresent = false → s.bufBytes = 0 ∧ s.bufData = [] ∧ s.bufTag = none) → allocAnswer s = false →
      exec (.init panel rot hint) s = .next
        (let g := calibAt s.par.raw.calib ⟨panel.toNat, hp⟩ (normRot rot)
         let n := allocSize { s with cfgWidth := g.width } hint
         { s with
           cp := s.cp + 4
           latch := []
           engine := .allocFailed
           errCode := .allocError
           cfgWidth := g.width
           cfgHeight := g.height
           cfgXshift := g.xShift
           cfgYshift := g.yShift
           cfgRot := normRot rot
           cfgPanel := ⟨panel.toNat, hp⟩
           bufPresent := false
           bufBytes := 0
           bufData := []
           bufTag := none
           fb := []
           alloc := (if s.bufPresent then s.alloc ++ [.free] else s.alloc) ++ [.alloc n false]
           allocScript := s.allocScript.tail
           draws := s.draws + 1 })

/-- 41_config.md R106: DEINIT in every state but HALTED: FREE and no buffer if there was one, UNINIT, ERRCODE and the
CFG registers kept, nothing on the wire. -/
def Obligations.Deinit : Prop :=
  ∀ s : State, s.engine ≠ .halted →
    (s.bufPresent = true → exec .deinit s = .next
        { s with
          cp := s.cp + 1, latch := [], engine := .uninit, bufPresent := false, bufBytes := 0, bufData := []
          bufTag := none, alloc := s.alloc ++ [.free] })
      ∧ (s.bufPresent = false → exec .deinit s = .next { s with cp := s.cp + 1, latch := [], engine := .uninit })

/-- 41_config.md R107, R105: SET_ROTATION leaves `rotationEnd`: the table's geometry for the panel in force, the MADCTL
frame, the buffer kept, FB unknown (42_transfer_window.md R147). -/
def Obligations.SetRotation : Prop :=
  ∀ (rot : Byte) (s : State), s.engine = .ready → s.running = none → s.sel = false → syncOnly s →
    let m := perRot s.par.raw.madctl (normRot rot)
    exec (.setRotation rot) s = .next (rotationEnd rot s)
      ∧ framesFrom s.dc none (writeCmd s.par.raw 0x36 [m]) = [[(.cmd, 0x36), (.data, m)]]
      ∧ frameView (rotationEnd rot s) = frameView s ++ [[(.cmd, 0x36), (.data, m)]]

/-- 41_config.md R108: GET_GEOMETRY in every state but HALTED, and nothing else changes. -/
def Obligations.GetGeometry : Prop :=
  ∀ s : State, s.engine ≠ .halted →
    exec .getGeometry s = .next
      { s with
        cp := s.cp + 1, latch := [], res0 := s.cfgWidth, res1 := s.cfgHeight, res2 := s.cfgRot.setWidth 16
        res3 := BitVec.ofNat 16 s.cfgPanel.val }

/-- 41_config.md R109, R110: INVERT and TEARING send one frame and change nothing in the engine but CP and DC. -/
def Obligations.InvertAndTearing : Prop :=
  ∀ (on : Bool) (s : State), s.engine = .ready → s.running = none → s.sel = false → syncOnly s →
    (∃ t es, exec (.invert on) s = .next t ∧ t = { s with cp := s.cp + 2, latch := [], dc := .cmd, wire := s.wire ++ es }
        ∧ framesFrom s.dc none es = [[(.cmd, if on then 0x21 else 0x20)]]
        ∧ frameView t = frameView s ++ [[(.cmd, if on then 0x21 else 0x20)]])
      ∧ ∃ t es fs, exec (.tearing on) s = .next t
        ∧ t = { s with
          cp := s.cp + 2, latch := [], wire := s.wire ++ es
          dc := if on = true ∧ s.par.raw.teonParam ≠ none then .data else .cmd }
        ∧ fs = [if on then (.cmd, 0x35) :: s.par.raw.teonParam.toList.map (fun b => (.data, b)) else [(.cmd, 0x34)]]
        ∧ framesFrom s.dc none es = fs ∧ frameView t = frameView s ++ fs

/-! ## The wire and the transfer pipeline -/

/-- 42_transfer_window.md R133, R135: a Write of n bytes is the pieces [iK, iK + K) of its bytes for K = P_MAX_XFER,
in order, each of the mode chosen from n; their bytes are the list's, and each has 1 to K bytes. -/
def Obligations.WritePieces : Prop :=
  ∀ (p : Params) (bs : List Byte),
    write p.raw bs
        = (List.range ((bs.length + p.raw.maxXfer - 1) / p.raw.maxXfer)).map
            (fun i => .xfer (if p.raw.asyncEnable = true ∧ p.raw.asyncThreshold < bs.length then .async else .sync)
              ((bs.drop (i * p.raw.maxXfer)).take p.raw.maxXfer))
      ∧ xferBytes (write p.raw bs) = bs
      ∧ ∀ m q, WireEvent.xfer m q ∈ write p.raw bs → 1 ≤ q.length ∧ q.length ≤ p.raw.maxXfer

/-- 42_transfer_window.md R136, R137, R146: the frame of a window transaction of a visible window: the eleven pairs of
R136 with the shifted corners, high byte first and never truncated, then the payload as data. -/
def Obligations.WindowFrame : Prop :=
  ∀ (s : State) (x0 y0 x1 y1 : Nat) (bs : List Byte) (dc : Line), cfgFits s → x0 ≤ x1 → x1 < s.cfgWidth.toNat →
    y0 ≤ y1 → y1 < s.cfgHeight.toNat →
      let xs := x0 + s.cfgXshift.toNat
      let xe := x1 + s.cfgXshift.toNat
      let ys := y0 + s.cfgYshift.toNat
      let ye := y1 + s.cfgYshift.toNat
      xe < 65536 ∧ ye < 65536
        ∧ framesFrom dc none (txn s ⟨x0, y0, x1, y1⟩ (write s.par.raw bs))
            = [[(.cmd, 0x2A), (.data, BitVec.ofNat 8 (xs / 256)), (.data, BitVec.ofNat 8 xs),
                (.data, BitVec.ofNat 8 (xe / 256)), (.data, BitVec.ofNat 8 xe), (.cmd, 0x2B),
                (.data, BitVec.ofNat 8 (ys / 256)), (.data, BitVec.ofNat 8 ys),
                (.data, BitVec.ofNat 8 (ye / 256)), (.data, BitVec.ofNat 8 ye), (.cmd, 0x2C)]
              ++ bs.map (fun b => (.data, b))]

/-- 20_memory.md R65, 42_transfer_window.md R142, R143: wire16 sends the high byte first; after Refresh(c) the buffer
holds wire16(c) in every slot, whether or not it was rewritten, and StreamFill(c, npix) sends wire16(c) npix times: as
Writes of exactly BUF_BYTES bytes, as many as go into the 2 x npix bytes, and one of the bytes left over, if any. And
the order (R137, R143, 70_reset_and_hazards.md R267): every primitive does its transactions one after the other as
`drawOrder` says, a Refresh only at the start of its StreamFill, after that transaction's SetWindow and DC(DATA). -/
def Obligations.BufferFill : Prop :=
  (∀ c : Color, wire16 c = [BitVec.ofNat 8 (c.toNat / 256), BitVec.ofNat 8 c.toNat])
    ∧ (∀ (s : State) (c : Color) (npix : Nat), bufUsable s →
        (refresh c s).bufData = (List.replicate (s.bufBytes.toNat / 2) (wire16 c)).flatten
          ∧ (refresh c s).bufTag = some c
          ∧ xferBytes (streamFill (refresh c s) npix) = (List.replicate npix (wire16 c)).flatten
          ∧ streamFill (refresh c s) npix = fillChunks s c npix
          ∧ ((List.replicate (s.bufBytes.toNat / 2) (wire16 c)).flatten).length = s.bufBytes.toNat
          ∧ ((List.replicate (2 * npix % s.bufBytes.toNat / 2) (wire16 c)).flatten).length
            = 2 * npix % s.bufBytes.toNat)
    ∧ ∀ (i : Instr) (s : State), isPrimitive i = true → drawReady s →
        exec i s = .next (drain ⟨(commandDraws i s).flatMap (drawOrder s), .complete (cmdLen i)⟩ s)

/-- 42_transfer_window.md R135, 10_state.md R33: where a command does not end in its step, the last event on the wire
is an asynchronous piece and XFER_BUSY is 1; the steps that follow are the transport's until it completes, and they
touch nothing but XFER_BUSY and the transport's own answers. While it does not complete, that lasts: the engine emits
nothing and changes nothing (70_reset_and_hazards.md R272). That the transport answers each step by yes or no, from a
list of answers (an input) or a free value and a counter of draws, and that a `no` is a step, is the model's (log 5,
DESIGN CHOICE). Where a command goes on it does what it has still to do in order, events and buffer writes, up to and
including the next asynchronous piece, or to its end, and nothing that comes after that piece (R135). -/
def Obligations.SuspendsAtAsyncPiece : Prop :=
  (∀ s t : State, Inv s → s.xferBusy = false → step s = .next t → t.running ≠ none →
      t.xferBusy = true ∧ ∃ bs, t.wire.getLast? = some (.xfer .async bs))
    ∧ (∀ s : State, s.xferBusy = true →
        step s = .next
          { s with
            xferBusy := !transportAnswer s, transportScript := s.transportScript.tail, draws := s.draws + 1 })
    ∧ (∀ (n : Nat) (s : State) (rest : List Bool), s.xferBusy = true →
        s.transportScript = List.replicate n false ++ rest →
          Host.Core.run Sys2Proof.core n s = .next { s with transportScript := rest, draws := s.draws + n })
    ∧ ∀ (r : Running) (s : State),
        (s.running = some r → s.xferBusy = false → step s = .next (drain r s))
          ∧ ∃ now rest, r.queue = now ++ rest ∧ (drain r s).wire = s.wire ++ eventsOf now
            ∧ (drain r s).bufData = (bufferWrites now s).bufData ∧ (drain r s).bufTag = (bufferWrites now s).bufTag
            ∧ (drain r s).glyphBuf = (bufferWrites now s).glyphBuf ∧ allSync (eventsOf now.dropLast)
            ∧ ((drain r s).running = none → rest = [] ∧ allSync (eventsOf now))
            ∧ ∀ r', (drain r s).running = some r' → r' = ⟨rest, r.ending⟩ ∧ (drain r s).xferBusy = true
              ∧ ∃ bs, now.getLast? = some (.emit (.xfer .async bs))

/-- 20_memory.md R73, 42_transfer_window.md R135: every command that sends events, in either mode: once the transport
completes each asynchronous piece, the command has ended after two steps a piece, in the state the synchronous one ends
in but for the modes on the wire: the drawing commands and DRAW_CHAR (R160, R208), DRAW_STRING, with its fault too
(R209, 60_exceptions.md R235; `drawn` is the whole state, and its wire events, DC, frames and buffers are said beside
it, GLYPH_BUF as log 23 chooses), INIT with a granted request (41_config.md R103), SET_ROTATION (R107), INVERT (R109),
TEARING (R110). The transport's answers are an input, and that a completion is a step of its own is the model's (log 5,
DESIGN CHOICE). As in InitGranted, the allocator's answer is an input (log 4), the fresh buffer's bytes are free (log
6), and that window frames of P_INIT_SEQ join the paint log is the model's reading (log 13, DEDUCED). -/
def Obligations.AsyncRunCompletes : Prop :=
  (∀ (i : Instr) (s : State), isPrimitive i = true → drawReady s →
      endsIn i s (drawn (commandDraws i s) (cmdLen i) s)
        ∧ Drawing s (drawn (commandDraws i s) (cmdLen i) s) (cmdLen i) ((commandDraws i s).flatMap drawPixels))
    ∧ (∀ (x y : Word) (ch font : Byte) (fg bg : Color) (f : Font) (g : Glyph) (i : Instr) (s : State), drawReady s →
        i = .drawChar x y ch font fg bg → fontAt s.par.raw.fonts font = some f → charLookup f ch = some g →
        glyphInRange f g = true →
          ∃ t ps, endsIn i s t ∧ t = drawn (commandDraws i s) 6 s ∧ ps = glyphPaints s f g x.toInt y.toInt fg bg
            ∧ Drawing s t 6 ps ∧ t.wire = s.wire ++ commandEvents i s ∧ t.dc = dcAfter s.dc (commandEvents i s)
            ∧ frameView t = frameView s ++ glyphFrames s f g x.toInt y.toInt fg bg
            ∧ t.bufData = s.bufData ∧ t.bufTag = s.bufTag
            ∧ (ps.length < 1600 → t.glyphBuf = ps.map (fun p => p.color) ++ s.glyphBuf.drop ps.length)
            ∧ (1600 ≤ ps.length → t.glyphBuf = s.glyphBuf))
    ∧ (∀ (x y : Word) (font : Byte) (fg bg : Color) (chars : List Byte) (f : Font) (i : Instr) (s : State),
        drawReady s → i = .drawString x y font fg bg chars → fontAt s.par.raw.fonts font = some f →
          let fault := (stringWalk s f fg bg x.toInt y.toInt chars).fault
          let n := if fault = none then 7 + (chars.length + 1) / 2 else 0
          ∃ t, t = drawn (commandDraws i s) n s ∧ Drawing s t n (stringPaints s f fg bg x.toInt y.toInt chars)
            ∧ t.wire = s.wire ++ commandEvents i s ∧ t.dc = dcAfter s.dc (commandEvents i s)
            ∧ frameView t = frameView s ++ stringFrames s f fg bg x.toInt y.toInt chars
            ∧ t.bufData = s.bufData ∧ t.bufTag = s.bufTag ∧ (fault = none → endsIn i s t)
            ∧ ∀ arg, fault = some arg →
                endsIn i s { t with engine := .halted, errCode := .fontFault, faultCp := s.cp, faultArg := arg })
    ∧ (∀ (panel rot : Byte) (hint : BitVec 32) (s : State) (hp : panel.toNat < 3), s.engine ≠ .halted →
        s.running = none → s.xferBusy = false → s.sel = false → memWf s.fb = true → allocAnswer s = true →
          endsIn (.init panel rot hint) s (initEnd ⟨panel.toNat, hp⟩ rot hint s))
    ∧ ∀ (on : Bool) (rot : Byte) (s : State), s.engine = .ready → s.running = none → s.xferBusy = false →
        s.sel = false → memWf s.fb = true →
          endsIn (.setRotation rot) s (rotationEnd rot s)
            ∧ endsIn (.invert on) s
                { s with
                  cp := s.cp + 2, latch := [], dc := .cmd
                  wire := s.wire ++ writeCmd s.par.raw (if on then 0x21 else 0x20) [] }
            ∧ endsIn (.tearing on) s
                { s with
                  cp := s.cp + 2, latch := []
                  dc := if on = true ∧ s.par.raw.teonParam ≠ none then .data else .cmd
                  wire := s.wire
                    ++ writeCmd s.par.raw (if on then 0x35 else 0x34) (if on then s.par.raw.teonParam.toList else []) }

/-- 00_scope.md R14: two engines with the same geometry in force, the same calibration, fonts and controller parameter
bytes, but any P_MAX_XFER, P_ASYNC_ENABLE, P_ASYNC_THRESHOLD, P_BUF_MIN_BYTES, buffer size and buffer contents: once
the transport has completed each asynchronous piece (its answers are an input, log 5), a command of READY, INIT aside,
has added the same frames to the frame view and the same pixels to the paint log of both. INIT is left out, since its
P_INIT_SEQ is itself a parameter that gives every piece and mode. -/
def Obligations.FramesIgnoreTransport : Prop :=
  ∀ (i : Instr) (s t : State) (as bs : List Bool), (∀ p r h, i ≠ .init p r h) → drawReady s → drawReady t →
    geometryOf s = geometryOf t → s.cfgPanel = t.cfgPanel → s.par.raw.calib = t.par.raw.calib →
    s.par.raw.fonts = t.par.raw.fonts → s.par.raw.madctl = t.par.raw.madctl →
    s.par.raw.teonParam = t.par.raw.teonParam →
    s.transportScript = List.replicate (asyncCount (commandEvents i s)) true ++ as →
    t.transportScript = List.replicate (asyncCount (commandEvents i t)) true ++ bs →
      ∃ s1 t1 s2 t2 fs ps, exec i s = .next s1 ∧ exec i t = .next t1
        ∧ Host.Core.run Sys2Proof.core (2 * asyncCount (commandEvents i s)) s1 = .next s2
        ∧ Host.Core.run Sys2Proof.core (2 * asyncCount (commandEvents i t)) t1 = .next t2
        ∧ s2.running = none ∧ t2.running = none
        ∧ frameView s2 = frameView s ++ fs ∧ frameView t2 = frameView t ++ fs
        ∧ s2.paintLog = s.paintLog ++ ps ∧ t2.paintLog = t.paintLog ++ ps

/-! ## Primitives -/

/-- 43_primitives.md R161, R166: DRAW_PIXEL paints its pixel if it is visible, by one window transaction of that pixel,
through no buffer; if it is not, it emits nothing at all. -/
def Obligations.DrawPixel : Prop :=
  ∀ (x y : Word) (c : Color) (s : State), drawReady s → syncOnly s →
    (∃ t, exec (.drawPixel x y c) s = .next t ∧ Drawing s t 4 (clipped s c [(x.toInt, y.toInt)]) ∧ buffersKept s t
        ∧ frameView t = frameView s ++ pointFrames s c [(x.toInt, y.toInt)])
      ∧ ((x.toInt < 0 ∨ y.toInt < 0 ∨ (s.cfgWidth.toNat : Int) ≤ x.toInt ∨ (s.cfgHeight.toNat : Int) ≤ y.toInt) →
          exec (.drawPixel x y c) s = .next { s with cp := s.cp + 4, latch := [] })

/-- 43_primitives.md R161, R167, R172, R174, R175: the commands that plot points: each paints the visible points of its
walk, in order, by one window transaction a visible point, and writes no buffer. -/
def Obligations.PointCommands : Prop :=
  ∀ (x1 y1 x2 y2 x3 y3 r : Word) (c : Color) (s : State), drawReady s → syncOnly s →
    (∃ t pts, exec (.drawLine x1 y1 x2 y2 c) s = .next t ∧ pts = linePoints x1.toInt y1.toInt x2.toInt y2.toInt
        ∧ Drawing s t 6 (clipped s c pts) ∧ buffersKept s t ∧ frameView t = frameView s ++ pointFrames s c pts)
      ∧ (∃ t pts, exec (.drawCircle x1 y1 r c) s = .next t ∧ pts = circlePoints x1.toInt y1.toInt r.toInt
          ∧ Drawing s t 5 (clipped s c pts) ∧ buffersKept s t ∧ frameView t = frameView s ++ pointFrames s c pts)
      ∧ (∃ t pts, exec (.drawTriangle x1 y1 x2 y2 x3 y3 c) s = .next t
          ∧ pts
            = linePoints x1.toInt y1.toInt x2.toInt y2.toInt ++ linePoints x2.toInt y2.toInt x3.toInt y3.toInt
              ++ linePoints x3.toInt y3.toInt x1.toInt y1.toInt
          ∧ Drawing s t 8 (clipped s c pts) ∧ buffersKept s t ∧ frameView t = frameView s ++ pointFrames s c pts)
      ∧ ∃ t pts, exec (.fillTriangle x1 y1 x2 y2 x3 y3 c) s = .next t
          ∧ pts
            = (edgePoints x1.toInt y1.toInt x2.toInt y2.toInt).flatMap
                (fun p => linePoints p.1 p.2 x3.toInt y3.toInt)
          ∧ Drawing s t 8 (clipped s c pts) ∧ buffersKept s t ∧ frameView t = frameView s ++ pointFrames s c pts

/-- 43_primitives.md R162, R163, R168, R169, R170: the commands made of spans: each paints the visible points of its
row, its column, or the outline's top, bottom, left and right, by one window transaction a span with visible points; a
non-positive extent gives nothing. -/
def Obligations.SpanCommands : Prop :=
  ∀ (x y w h : Word) (c : Color) (s : State), drawReady s → syncOnly s →
    (∃ t ps, exec (.drawHLine x y w c) s = .next t ∧ ps = clipped s c (rectPoints x.toInt y.toInt w.toInt 1)
        ∧ Drawing s t 5 ps ∧ buffersFilled s t c ps
        ∧ frameView t = frameView s ++ boxFrame s x.toInt y.toInt w.toInt 1 c)
      ∧ (∃ t ps, exec (.drawVLine x y h c) s = .next t ∧ ps = clipped s c (rectPoints x.toInt y.toInt 1 h.toInt)
          ∧ Drawing s t 5 ps ∧ buffersFilled s t c ps
          ∧ frameView t = frameView s ++ boxFrame s x.toInt y.toInt 1 h.toInt c)
      ∧ ∃ t ps fs, exec (.drawRect x y w h c) s = .next t
          ∧ ps
            = (if 0 < w.toInt ∧ 0 < h.toInt then
                clipped s c
                  (rectPoints x.toInt y.toInt w.toInt 1 ++ rectPoints x.toInt (y.toInt + h.toInt - 1) w.toInt 1
                    ++ rectPoints x.toInt y.toInt 1 h.toInt ++ rectPoints (x.toInt + w.toInt - 1) y.toInt 1 h.toInt)
              else [])
          ∧ fs
            = (if 0 < w.toInt ∧ 0 < h.toInt then
                boxFrame s x.toInt y.toInt w.toInt 1 c ++ boxFrame s x.toInt (y.toInt + h.toInt - 1) w.toInt 1 c
                  ++ boxFrame s x.toInt y.toInt 1 h.toInt c ++ boxFrame s (x.toInt + w.toInt - 1) y.toInt 1 h.toInt c
              else [])
          ∧ Drawing s t 6 ps ∧ buffersFilled s t c ps ∧ frameView t = frameView s ++ fs

/-- 43_primitives.md R164, R165, R171: FILL_RECT paints the visible points of its rectangle in row-major order, and
FILL_SCREEN every visible point, each by one window transaction. -/
def Obligations.BoxCommands : Prop :=
  ∀ (x y w h : Word) (c : Color) (s : State), drawReady s → syncOnly s →
    (∃ t ps, exec (.fillRect x y w h c) s = .next t
        ∧ ps = clipped s c (rectPoints x.toInt y.toInt w.toInt h.toInt)
        ∧ Drawing s t 6 ps ∧ buffersFilled s t c ps
        ∧ frameView t = frameView s ++ boxFrame s x.toInt y.toInt w.toInt h.toInt c)
      ∧ ∃ t ps, exec (.fillScreen c) s = .next t
          ∧ ps = (rectPoints 0 0 s.cfgWidth.toNat s.cfgHeight.toNat).map (fun p => ⟨p.1, p.2, c⟩)
          ∧ Drawing s t 2 ps ∧ buffersFilled s t c ps
          ∧ frameView t = frameView s ++ boxFrame s 0 0 s.cfgWidth.toNat s.cfgHeight.toNat c

/-- 43_primitives.md R162, R173: FILL_CIRCLE paints the visible points of its spans, in order, by one window
transaction a span with visible points. -/
def Obligations.FillCircle : Prop :=
  ∀ (x0 y0 r : Word) (c : Color) (s : State), drawReady s → syncOnly s →
    ∃ t ps, exec (.fillCircle x0 y0 r c) s = .next t
      ∧ ps = (discSpans x0.toInt y0.toInt r.toInt).flatMap (fun p => clipped s c (rectPoints p.x p.y p.w 1))
      ∧ Drawing s t 5 ps ∧ buffersFilled s t c ps
      ∧ frameView t
        = frameView s ++ (discSpans x0.toInt y0.toInt r.toInt).flatMap (fun p => boxFrame s p.x p.y p.w 1 c)

/-- 43_primitives.md R171, 42_transfer_window.md R137, R143, R148: an in-bounds rectangle is one window transaction that
streams exactly w x h x 2 bytes, wire16(c) for each pixel, in the Writes of `fillChunks`; in either mode the command
does SEL, SetWindow, DC(DATA), Refresh, those Writes and DESEL in that order (70_reset_and_hazards.md R267). -/
def Obligations.FillRectStreams : Prop :=
  ∀ (x y w h : Word) (c : Color) (s : State), drawReady s → 0 ≤ x.toInt → 0 ≤ y.toInt → 0 < w.toInt →
    0 < h.toInt → x.toInt + w.toInt ≤ s.cfgWidth.toNat → y.toInt + h.toInt ≤ s.cfgHeight.toNat →
      let win : Window := ⟨x.toInt, y.toInt, x.toInt + w.toInt - 1, y.toInt + h.toInt - 1⟩
      let body := fillChunks s c (w.toNat * h.toNat)
      exec (.fillRect x y w h c) s
          = .next (drain
            ⟨.emit .sel :: (setWindow s win).map .emit ++ .emit (.dc .data) :: .refresh c :: body.map .emit
              ++ [.emit .desel], .complete 6⟩ s)
        ∧ (syncOnly s → ∃ t es, exec (.fillRect x y w h c) s = .next t ∧ t.wire = s.wire ++ es ∧ es = txn s win body
          ∧ framesFrom s.dc none es
            = [windowFrame (x + s.cfgXshift) (x + w - 1 + s.cfgXshift) (y + s.cfgYshift) (y + h - 1 + s.cfgYshift)
                (List.replicate (w.toNat * h.toNat) (wire16 c)).flatten])

/-- 30_encoding.md R93: FILL_SCREEN has the effect of FILL_RECT 0, 0, W, H where W and H are at most 32767; the two
commands' lengths alone differ. -/
def Obligations.FillScreenIsFillRect : Prop :=
  ∀ (c : Color) (s : State), drawReady s → syncOnly s → s.cfgWidth.toNat ≤ 32767 → s.cfgHeight.toNat ≤ 32767 →
    ∃ t, exec (.fillScreen c) s = .next t
      ∧ exec (.fillRect 0 0 s.cfgWidth s.cfgHeight c) s = .next { t with cp := t.cp + 4 }

/-- 43_primitives.md R177, R160: no operand value of a primitive raises an exception: from READY every one of them has
a next state, in READY, whatever its operands, the transport and the rest of the state. -/
def Obligations.NoGeometryErrors : Prop :=
  ∀ (i : Instr) (s : State), isPrimitive i = true → s.engine = .ready →
    ∃ t, exec i s = .next t ∧ t.engine = .ready ∧ t.errCode = s.errCode ∧ t.faultCp = s.faultCp
      ∧ t.faultArg = s.faultArg

/-- 43_primitives.md R176: the two directions of a line are one command, wire trace, pixels and all. -/
def Obligations.LineSymmetry : Prop :=
  ∀ (x0 y0 x1 y1 : Word) (c : Color) (s : State),
    exec (.drawLine x0 y0 x1 y1 c) s = exec (.drawLine x1 y1 x0 y0 c) s

/-- 43_primitives.md R167, R176: the walk has max(|dx|, |dy|) + 1 points, both endpoints among them, and each lies
within half a pixel of the true line, along the minor axis. Either direction gives the same list. From the endpoint that
is lower on the major axis, point k is k steps along that axis and, along the other, as many steps towards the far
endpoint as the true line has gone, rounded to the nearest, half a step down (the initial error dx div 2). -/
def Obligations.LineShape : Prop :=
  ∀ x0 y0 x1 y1 : Int,
    let dx := (x1 - x0).natAbs
    let dy := (y1 - y0).natAbs
    (linePoints x0 y0 x1 y1).length = max dx dy + 1
      ∧ (x0, y0) ∈ linePoints x0 y0 x1 y1 ∧ (x1, y1) ∈ linePoints x0 y0 x1 y1
      ∧ (∀ p ∈ linePoints x0 y0 x1 y1,
          2 * ((x1 - x0) * (p.2 - y0) - (y1 - y0) * (p.1 - x0)).natAbs ≤ max dx dy)
      ∧ linePoints x1 y1 x0 y0 = linePoints x0 y0 x1 y1
      ∧ (dy ≤ dx → x0 ≤ x1 → ∀ k : Nat, k ≤ dx →
          (linePoints x0 y0 x1 y1)[k]?
            = some (x0 + k, y0 + (y1 - y0).sign * ((k * dy + (dx - 1) / 2) / dx : Nat)))
      ∧ (dx < dy → y0 ≤ y1 → ∀ k : Nat, k ≤ dy →
          (linePoints x0 y0 x1 y1)[k]?
            = some (x0 + (x1 - x0).sign * ((k * dx + (dy - 1) / 2) / dy : Nat), y0 + k))

/-- 43_primitives.md R172: the walk's loop ends by its own test (more fuel gives no more points; 30_encoding.md R91),
takes one step right a round, from x = 1 to the first x >= y, stays in the first octant, and every point lies within
the midpoint bound of the true circle (f >= 0 moves inwards, so the outer bound is strict while x <= y); and the circle
is the four axis points and the eight octant points of every step, in that order, and nothing for a negative radius. -/
def Obligations.CircleWalk : Prop :=
  (∀ r : Int, 0 ≤ r →
      (∀ k : Nat, circleWalk (r.toNat + k) (1 - r) 1 (-2 * r) 0 r = circleSteps r)
        ∧ (∀ (k : Nat) (p : Int × Int), (circleSteps r)[k]? = some p → p.1 = k + 1)
        ∧ (0 < r → ∃ p, (circleSteps r).getLast? = some p ∧ p.2 ≤ p.1)
        ∧ ∀ p ∈ circleSteps r, 0 < p.1 ∧ p.1 ≤ p.2 + 1 ∧ 0 ≤ p.2 ∧ p.2 ≤ r
            ∧ -p.2 ≤ p.1 * p.1 + p.2 * p.2 - r * r ∧ p.1 * p.1 + p.2 * p.2 - r * r ≤ p.2
            ∧ (p.1 ≤ p.2 → p.1 * p.1 + p.2 * p.2 - r * r < p.2))
    ∧ ∀ x0 y0 r : Int,
        (r < 0 → circlePoints x0 y0 r = [])
          ∧ (0 ≤ r → ∀ q, q ∈ circlePoints x0 y0 r ↔
              q = (x0, y0 + r) ∨ q = (x0, y0 - r) ∨ q = (x0 + r, y0) ∨ q = (x0 - r, y0)
                ∨ ∃ p ∈ circleSteps r,
                    (q.1 - x0).natAbs = p.1.natAbs ∧ (q.2 - y0).natAbs = p.2.natAbs
                      ∨ (q.1 - x0).natAbs = p.2.natAbs ∧ (q.2 - y0).natAbs = p.1.natAbs)
          ∧ (0 ≤ r → (circlePoints x0 y0 r).length = 8 * (circleSteps r).length + 4
              ∧ (circlePoints x0 y0 r).take 4 = [(x0, y0 + r), (x0, y0 - r), (x0 + r, y0), (x0 - r, y0)]
              ∧ ∀ (k : Nat) (p : Int × Int), (circleSteps r)[k]? = some p →
                  ((circlePoints x0 y0 r).drop (8 * k + 4)).take 8
                    = [(x0 + p.1, y0 + p.2), (x0 - p.1, y0 + p.2), (x0 + p.1, y0 - p.2), (x0 - p.1, y0 - p.2),
                       (x0 + p.2, y0 + p.1), (x0 - p.2, y0 + p.1), (x0 + p.2, y0 - p.1), (x0 - p.2, y0 - p.1)])

/-- 43_primitives.md R173: no span of the disc reaches a row or a column beyond the radius, every span is symmetric
about the centre, and the circle of R172 lies on the disc, (x0, y0 + r) and (x0, y0 - r) included; the spans are the
centre row's and the four of every step of R172's walk, in that order, and no other; none for a negative radius. -/
def Obligations.DiscShape : Prop :=
  ∀ x0 y0 r : Int,
    (∀ p ∈ discSpans x0 y0 r, y0 - r ≤ p.y ∧ p.y ≤ y0 + r ∧ x0 - r ≤ p.x ∧ 1 ≤ p.w ∧ p.x + p.w = 2 * x0 - p.x + 1)
      ∧ (∀ q ∈ circlePoints x0 y0 r, ∃ p ∈ discSpans x0 y0 r, p.y = q.2 ∧ p.x ≤ q.1 ∧ q.1 < p.x + p.w)
      ∧ (r < 0 → discSpans x0 y0 r = [])
      ∧ (0 ≤ r → (discSpans x0 y0 r).length = 4 * (circleSteps r).length + 1
          ∧ (discSpans x0 y0 r).head? = some ⟨x0 - r, y0, 2 * r + 1⟩
          ∧ (∀ (k : Nat) (p : Int × Int), (circleSteps r)[k]? = some p →
              ((discSpans x0 y0 r).drop (4 * k + 1)).take 4
                = [⟨x0 - p.1, y0 + p.2, 2 * p.1 + 1⟩, ⟨x0 - p.1, y0 - p.2, 2 * p.1 + 1⟩,
                   ⟨x0 - p.2, y0 + p.1, 2 * p.2 + 1⟩, ⟨x0 - p.2, y0 - p.1, 2 * p.2 + 1⟩])
          ∧ ∀ q, q ∈ discSpans x0 y0 r ↔
              q = ⟨x0 - r, y0, 2 * r + 1⟩
                ∨ ∃ p ∈ circleSteps r,
                    q = ⟨x0 - p.1, y0 + p.2, 2 * p.1 + 1⟩ ∨ q = ⟨x0 - p.1, y0 - p.2, 2 * p.1 + 1⟩
                      ∨ q = ⟨x0 - p.2, y0 + p.1, 2 * p.2 + 1⟩ ∨ q = ⟨x0 - p.2, y0 - p.1, 2 * p.2 + 1⟩)

/-- 43_primitives.md R175: the walk along v1-v2 has max(|dx|, |dy|) + 1 points from v1 to v2, each within half a pixel
of the true edge along the minor axis; point k is k steps from v1 along the major axis and, along the other, as many as
the edge has gone, rounded to the nearest, half a step up (num starts at den div 2 and acts from num >= den on). All of
them and the lines v1-v3 and v2-v3 are among the points drawn. -/
def Obligations.TriangleEdges : Prop :=
  ∀ x1 y1 x2 y2 x3 y3 : Int,
    let dx := (x2 - x1).natAbs
    let dy := (y2 - y1).natAbs
    (edgePoints x1 y1 x2 y2).length = max dx dy + 1
      ∧ (edgePoints x1 y1 x2 y2).head? = some (x1, y1) ∧ (edgePoints x1 y1 x2 y2).getLast? = some (x2, y2)
      ∧ (∀ p ∈ edgePoints x1 y1 x2 y2,
          2 * ((x2 - x1) * (p.2 - y1) - (y2 - y1) * (p.1 - x1)).natAbs ≤ max dx dy)
      ∧ (dy ≤ dx → ∀ k : Nat, k ≤ dx →
          (edgePoints x1 y1 x2 y2)[k]?
            = some (x1 + (x2 - x1).sign * k, y1 + (y2 - y1).sign * ((k * dy + dx / 2) / dx : Nat)))
      ∧ (dx < dy → ∀ k : Nat, k ≤ dy →
          (edgePoints x1 y1 x2 y2)[k]?
            = some (x1 + (x2 - x1).sign * ((k * dx + dy / 2) / dy : Nat), y1 + (y2 - y1).sign * k))
      ∧ (∀ p ∈ edgePoints x1 y1 x2 y2, p ∈ fanPoints x1 y1 x2 y2 x3 y3)
      ∧ (∀ p ∈ linePoints x1 y1 x3 y3, p ∈ fanPoints x1 y1 x2 y2 x3 y3)
      ∧ ∀ p ∈ linePoints x2 y2 x3 y3, p ∈ fanPoints x1 y1 x2 y2 x3 y3

/-! ## Text -/

/-- 44_text.md R200, R201: which glyph a character has, and which bit of the bitmap, most significant bit first, gives
a pixel its foreground or background. R203 to R208, R213 (d): DRAW_CHAR of a glyph in range paints its visible pixels
in row-major order with those colours, on either path, by the frames of `glyphFrames`: none if no pixel is visible, one
window below 1600 visible pixels, one a pixel from 1600 on; below the threshold they pass through GLYPH_BUF, and the
transfer buffer stands in any case. What GLYPH_BUF holds after the command is the model's choice (log 23, DESIGN
CHOICE: 10_state.md R31 leaves it unspecified): the glyph's colours, and the older contents after them. In either mode
the command does `glyphActions` in order: below the threshold GLYPH_BUF holds the glyph before its Txn begins (R206). -/
def Obligations.DrawChar : Prop :=
  (∀ (f : Font) (c : Byte) (g : Glyph), charLookup f c = some g ↔
      f.first.toNat ≤ c.toNat ∧ c.toNat ≤ f.last.toNat ∧ f.glyphs[c.toNat - f.first.toNat]? = some g)
    ∧ (∀ (f : Font) (g : Glyph) (cx cy : Int) (fg bg : Color) (row col : Nat),
        let b := g.bitmapOffset.toNat * 8 + row * g.width.toNat + col
        glyphColor f g cx cy fg bg (cx + g.xOffset.toInt + col, cy + g.yOffset.toInt + row)
          = if (f.bitmap.getD (b / 8) 0).toNat / 2 ^ (7 - b % 8) % 2 = 1 then fg else bg)
    ∧ (∀ (x y : Word) (ch font : Byte) (fg bg : Color) (f : Font) (g : Glyph) (s : State), drawReady s → syncOnly s →
        fontAt s.par.raw.fonts font = some f → charLookup f ch = some g → glyphInRange f g = true →
          ∃ t ps, exec (.drawChar x y ch font fg bg) s = .next t ∧ ps = glyphPaints s f g x.toInt y.toInt fg bg
            ∧ Drawing s t 6 ps ∧ frameView t = frameView s ++ glyphFrames s f g x.toInt y.toInt fg bg
            ∧ t.bufData = s.bufData ∧ t.bufTag = s.bufTag
            ∧ (ps.length < 1600 → t.glyphBuf = ps.map (fun p => p.color) ++ s.glyphBuf.drop ps.length)
            ∧ (1600 ≤ ps.length → t.glyphBuf = s.glyphBuf))
    ∧ ∀ (x y : Word) (ch font : Byte) (fg bg : Color) (f : Font) (g : Glyph) (s : State), drawReady s →
        fontAt s.par.raw.fonts font = some f → charLookup f ch = some g → glyphInRange f g = true →
          exec (.drawChar x y ch font fg bg) s
            = .next (drain ⟨glyphActions s f g x.toInt y.toInt fg bg, .complete 6⟩ s)

/-- 44_text.md R205, R206, R207: how many window transactions a glyph takes: none if no pixel is visible, one below
1600 visible pixels, one a pixel from 1600 on. -/
def Obligations.GlyphPaths : Prop :=
  ∀ (f : Font) (g : Glyph) (cx cy : Int) (fg bg : Color) (s : State), drawReady s →
    (framesFrom s.dc none (drawEvents (glyphDraws s f g cx cy fg bg) s)).length
      = (if (glyphPaints s f g cx cy fg bg).length = 0 then 0
        else if (glyphPaints s f g cx cy fg bg).length < 1600 then 1
        else (glyphPaints s f g cx cy fg bg).length)

/-- 44_text.md R202, R208: a glyph whose bits pass the end of the bitmap faults, before any event, also where it is
clipped away. -/
def Obligations.GlyphFault : Prop :=
  ∀ (x y : Word) (ch font : Byte) (fg bg : Color) (f : Font) (g : Glyph) (s : State), s.engine = .ready →
    fontAt s.par.raw.fonts font = some f → charLookup f ch = some g → 0 < g.width.toNat → 0 < g.height.toNat →
    f.bitmap.length ≤ (g.bitmapOffset.toNat * 8 + g.width.toNat * g.height.toNat - 1) / 8 →
      exec (.drawChar x y ch font fg bg) s = .next
        { s with
          engine := .halted, errCode := .fontFault, faultCp := s.cp, faultArg := ch.setWidth 16, latch := [] }

/-- 44_text.md R200, R213 (c): DRAW_CHAR of a character outside the font and DRAW_STRING of such characters emit
nothing and complete. -/
def Obligations.NoGlyphNoEvent : Prop :=
  ∀ (x y : Word) (ch font : Byte) (fg bg : Color) (f : Font) (chars : List Byte) (s : State), s.engine = .ready →
    s.running = none → fontAt s.par.raw.fonts font = some f →
      ((ch.toNat < f.first.toNat ∨ f.last.toNat < ch.toNat) →
          exec (.drawChar x y ch font fg bg) s = .next { s with cp := s.cp + 6, latch := [] })
        ∧ ((∀ c ∈ chars, c.toNat < f.first.toNat ∨ f.last.toNat < c.toNat) →
            exec (.drawString x y font fg bg chars) s
              = .next { s with cp := s.cp + BitVec.ofNat 32 (7 + (chars.length + 1) / 2), latch := [] })

/-- 44_text.md R209, 60_exceptions.md R235: DRAW_STRING paints its string and completes; or, at a glyph past the
bitmap, it keeps what the characters before it painted, on the wire, in the paint log and in FB (42_transfer_window.md
R147), and takes FONT_FAULT with that character, CP unmoved. In either mode the command does `stringActions` in order
(R209, R206): `StringLoop` says what they are, and `SuspendsAtAsyncPiece` what a wait among them leaves. -/
def Obligations.DrawString : Prop :=
  (∀ (x y : Word) (font : Byte) (fg bg : Color) (chars : List Byte) (f : Font) (s : State), drawReady s → syncOnly s →
    fontAt s.par.raw.fonts font = some f →
      ((stringWalk s f fg bg x.toInt y.toInt chars).fault = none →
          ∃ t, exec (.drawString x y font fg bg chars) s = .next t
            ∧ Drawing s t (7 + (chars.length + 1) / 2) (stringPaints s f fg bg x.toInt y.toInt chars)
            ∧ frameView t = frameView s ++ stringFrames s f fg bg x.toInt y.toInt chars
            ∧ t.bufData = s.bufData ∧ t.bufTag = s.bufTag)
        ∧ ∀ arg, (stringWalk s f fg bg x.toInt y.toInt chars).fault = some arg →
            ∃ t es ps, exec (.drawString x y font fg bg chars) s = .next t ∧ t.engine = .halted
              ∧ t.errCode = .fontFault ∧ t.faultCp = s.cp ∧ t.faultArg = arg ∧ t.cp = s.cp
              ∧ ps = stringPaints s f fg bg x.toInt y.toInt chars
              ∧ t.paintLog = s.paintLog ++ ps ∧ t.wire = s.wire ++ es
              ∧ t.dc = dcAfter s.dc es
              ∧ (framesFrom s.dc none es).flatMap (framePaints (nat16 s.cfgXshift) (nat16 s.cfgYshift)) = ps
              ∧ framesFrom s.dc none es = stringFrames s f fg bg x.toInt y.toInt chars
              ∧ frameView t = frameView s ++ framesFrom s.dc none es
              ∧ (∀ x y, fbRead t x y
                  = if visible s x y = true then (paintedAt ps x y).or (fbRead s x y) else fbRead s x y)
              ∧ t.sel = false ∧ t.res0 = s.res0 ∧ t.res1 = s.res1 ∧ geometryOf t = geometryOf s
              ∧ t.bufData = s.bufData ∧ t.bufTag = s.bufTag ∧ t.alloc = s.alloc)
    ∧ ∀ (x y : Word) (font : Byte) (fg bg : Color) (chars : List Byte) (f : Font) (s : State), drawReady s →
        fontAt s.par.raw.fonts font = some f →
          let q := stringActions s f fg bg x.toInt y.toInt chars
          ((stringWalk s f fg bg x.toInt y.toInt chars).fault = none →
              exec (.drawString x y font fg bg chars) s
                = .next (drain ⟨q, .complete (7 + (chars.length + 1) / 2)⟩ s))
            ∧ ∀ arg, (stringWalk s f fg bg x.toInt y.toInt chars).fault = some arg →
                exec (.drawString x y font fg bg chars) s = .next (drain ⟨q, .faulted .fontFault arg⟩ s)

/-- 44_text.md R200, R209, R210, R211: one round of the character loop: a character without a glyph is skipped with no
advance; the wrap test; the stop below the display; the space that a wrap swallows; the range check; the glyph and the
advance. What one glyph does, its load into GLYPH_BUF and its Txn, comes before all that the next one does. -/
def Obligations.StringLoop : Prop :=
  ∀ (s : State) (f : Font) (fg bg : Color) (cx cy : Int) (c : Byte) (cs : List Byte),
    (charLookup f c = none → stringWalk s f fg bg cx cy (c :: cs) = stringWalk s f fg bg cx cy cs)
      ∧ ∀ (g : Glyph) (x y : Int) (wrapped : Bool), charLookup f c = some g →
          wrapped = decide ((s.cfgWidth.toNat : Int) < cx + g.xAdvance.toNat) →
          x = (if wrapped then 0 else cx) → y = (if wrapped then cy + f.yAdvance.toNat else cy) →
            ((s.cfgHeight.toNat : Int) < y →
                stringPaints s f fg bg cx cy (c :: cs) = [] ∧ stringFrames s f fg bg cx cy (c :: cs) = []
                  ∧ stringActions s f fg bg cx cy (c :: cs) = [] ∧ (stringWalk s f fg bg cx cy (c :: cs)).fault = none)
              ∧ (y ≤ s.cfgHeight.toNat → wrapped = true → c = 0x20 →
                  stringWalk s f fg bg cx cy (c :: cs) = stringWalk s f fg bg x y cs)
              ∧ (y ≤ s.cfgHeight.toNat → (wrapped = false ∨ c ≠ 0x20) → glyphInRange f g = false →
                  stringPaints s f fg bg cx cy (c :: cs) = [] ∧ stringFrames s f fg bg cx cy (c :: cs) = []
                    ∧ stringActions s f fg bg cx cy (c :: cs) = []
                    ∧ (stringWalk s f fg bg cx cy (c :: cs)).fault = some (c.setWidth 16))
              ∧ (y ≤ s.cfgHeight.toNat → (wrapped = false ∨ c ≠ 0x20) → glyphInRange f g = true →
                  stringPaints s f fg bg cx cy (c :: cs)
                      = glyphPaints s f g x y fg bg ++ stringPaints s f fg bg (x + g.xAdvance.toNat) y cs
                    ∧ stringFrames s f fg bg cx cy (c :: cs)
                      = glyphFrames s f g x y fg bg ++ stringFrames s f fg bg (x + g.xAdvance.toNat) y cs
                    ∧ stringActions s f fg bg cx cy (c :: cs)
                      = glyphActions s f g x y fg bg ++ stringActions s f fg bg (x + g.xAdvance.toNat) y cs
                    ∧ (stringWalk s f fg bg cx cy (c :: cs)).fault
                      = (stringWalk s f fg bg (x + g.xAdvance.toNat) y cs).fault)

/-- 44_text.md R212, R213 (a), (b): GET_TEXT_BOUNDS in every state but HALTED writes RES0, RES1 and CP alone, emits
nothing; one round of its loop: a character without a glyph is skipped with no advance, an empty glyph only advances,
another one joins the union at the cursor and advances; the result is the union's size. So it gives (0, 0) for a string
with no non-empty glyph, the glyph's size for a single one, and for two glyphs side by side the size of the union of
their rectangles. -/
def Obligations.TextBounds : Prop :=
  (∀ (font : Byte) (chars : List Byte) (f : Font) (s : State), s.engine ≠ .halted →
      fontAt s.par.raw.fonts font = some f →
        ∃ w h, exec (.getTextBounds font chars) s = .next
            { s with
              cp := s.cp + BitVec.ofNat 32 (3 + (chars.length + 1) / 2), latch := [], res0 := w, res1 := h }
          ∧ (w, h) = boundsResult (boundsWalk f 0 none chars))
    ∧ (∀ (f : Font) (cx : Int) (a : Option Box) (c : Byte) (cs : List Byte),
        (charLookup f c = none → boundsWalk f cx a (c :: cs) = boundsWalk f cx a cs)
          ∧ ∀ g, charLookup f c = some g →
              (g.width = 0 ∨ g.height = 0 →
                  boundsWalk f cx a (c :: cs) = boundsWalk f (cx + g.xAdvance.toNat) a cs)
                ∧ (0 < g.width.toNat → 0 < g.height.toNat →
                    let x := cx + g.xOffset.toInt
                    let y := g.yOffset.toInt
                    (a = none → boundsWalk f cx a (c :: cs)
                        = boundsWalk f (cx + g.xAdvance.toNat)
                            (some ⟨x, y, x + g.width.toNat, y + g.height.toNat⟩) cs)
                      ∧ ∀ b, a = some b → boundsWalk f cx a (c :: cs)
                        = boundsWalk f (cx + g.xAdvance.toNat)
                            (some ⟨min b.mnx x, min b.mny y, max b.mxx (x + g.width.toNat),
                              max b.mxy (y + g.height.toNat)⟩) cs))
    ∧ (∀ (f : Font) (cx : Int) (b : Box),
        boundsResult (boundsWalk f cx none []) = (0, 0)
          ∧ boundsResult (boundsWalk f cx (some b) [])
            = (BitVec.ofInt 16 (b.mxx - b.mnx), BitVec.ofInt 16 (b.mxy - b.mny)))
    ∧ (∀ (f : Font) (chars : List Byte),
        (∀ c ∈ chars, ∀ g, charLookup f c = some g → g.width = 0 ∨ g.height = 0) →
          boundsResult (boundsWalk f 0 none chars) = (0, 0))
    ∧ (∀ (f : Font) (c : Byte) (g : Glyph), charLookup f c = some g → 0 < g.width.toNat → 0 < g.height.toNat →
        boundsResult (boundsWalk f 0 none [c]) = (g.width.setWidth 16, g.height.setWidth 16))
    ∧ ∀ (f : Font) (c d : Byte) (g k : Glyph), charLookup f c = some g → charLookup f d = some k →
        0 < g.width.toNat → 0 < g.height.toNat → 0 < k.width.toNat → 0 < k.height.toNat →
          let a := g.xOffset.toInt
          let b := g.xAdvance.toNat + k.xOffset.toInt
          boundsResult (boundsWalk f 0 none [c, d])
            = (BitVec.ofInt 16 (max (a + g.width.toNat) (b + k.width.toNat) - min a b),
               BitVec.ofInt 16 (max (g.yOffset.toInt + g.height.toNat) (k.yOffset.toInt + k.height.toNat)
                 - min g.yOffset.toInt k.yOffset.toInt))

end
end

