-- ==== Sys2Proof/Laws/Memory.lean ====
section
/-! SUPPORT. The laws of the controller pixel memory (42_transfer_window.md R147): a read after a write, the canonical
form, equal reads of canonical memories are equal data, and painting is one write after the other. -/

namespace Sys2Proof.Machine

/-- The canonical form, as a pairwise order of the keys. -/
theorem memWf_iff (m : Memory) : memWf m = true ↔ m.Pairwise (fun a b => a.1 < b.1) := by
  induction m with
  | nil => simp [memWf]
  | cons e m ih =>
    cases m with
    | nil => simp [memWf]
    | cons e' m =>
      obtain ⟨k, v⟩ := e
      obtain ⟨k', v'⟩ := e'
      rw [memWf, Bool.and_eq_true, ih, decide_eq_true_eq, List.pairwise_cons (a := (k, v))]
      constructor
      · rintro ⟨h, hp⟩
        refine ⟨fun b hb => ?_, hp⟩
        rcases List.mem_cons.mp hb with rfl | hb
        · exact h
        · exact Nat.lt_trans h ((List.pairwise_cons.mp hp).1 b hb)
      · rintro ⟨h, hp⟩
        exact ⟨h _ List.mem_cons_self, hp⟩

/-- A read of a concatenation reads the first part first. -/
theorem memRead_append (m n : Memory) (a : Nat) : memRead (m ++ n) a = (memRead m a).or (memRead n a) := by
  induction m with
  | nil => simp [memRead]
  | cons e m ih =>
    obtain ⟨k, v⟩ := e
    simp only [List.cons_append, memRead]
    split <;> simp_all

/-- A key that is read is listed. -/
theorem memRead_mem {m : Memory} {a : Nat} {c : Color} (h : memRead m a = some c) : (a, c) ∈ m := by
  induction m with
  | nil => simp [memRead] at h
  | cons e m ih =>
    obtain ⟨k, v⟩ := e
    simp only [memRead] at h
    split at h
    · cases h; simp_all
    · exact List.mem_cons_of_mem _ (ih h)

/-- A key below or above every listed key reads as unknown. -/
theorem memRead_none {m : Memory} {a : Nat} (h : ∀ e ∈ m, e.1 ≠ a) : memRead m a = none := by
  cases hr : memRead m a with
  | none => rfl
  | some c => exact absurd rfl (h _ (memRead_mem hr))

/-- A read after a write gives the value written; every other key reads as before. -/
theorem memRead_write (m : Memory) (a b : Nat) (c : Color) :
    memRead (memWrite a c m) b = if b = a then some c else memRead m b := by
  induction m with
  | nil => simp [memWrite, memRead]
  | cons e m ih =>
    obtain ⟨k, v⟩ := e
    simp only [memWrite]
    split
    · simp only [memRead]
    · split
      · subst_vars; simp only [memRead]; split <;> rfl
      · simp only [memRead, ih]
        by_cases hb : b = k
        · subst hb; rw [if_pos rfl, if_neg (by omega), if_pos rfl]
        · rw [if_neg hb, if_neg hb]

/-- The listed keys after a write. -/
theorem memWrite_mem {m : Memory} {a : Nat} {c : Color} {e : Nat × Color} (h : e ∈ memWrite a c m) :
    e = (a, c) ∨ e ∈ m := by
  induction m with
  | nil => simpa [memWrite] using h
  | cons x m ih =>
    obtain ⟨k, v⟩ := x
    simp only [memWrite] at h
    split at h
    · simpa using h
    · split at h
      · rcases List.mem_cons.mp h with h | h
        · exact .inl h
        · exact .inr (List.mem_cons_of_mem _ h)
      · rcases List.mem_cons.mp h with h | h
        · exact .inr (h ▸ List.mem_cons_self)
        · exact (ih h).imp_right (List.mem_cons_of_mem _)

/-- A write keeps the canonical form. -/
theorem memWf_write {m : Memory} (a : Nat) (c : Color) (h : memWf m = true) : memWf (memWrite a c m) = true := by
  rw [memWf_iff] at *
  induction m with
  | nil => simp [memWrite]
  | cons e m ih =>
    obtain ⟨k, v⟩ := e
    have hp := List.pairwise_cons.mp h
    simp only [memWrite]
    split
    · rename_i hlt
      refine List.pairwise_cons.mpr ⟨fun b hb => ?_, h⟩
      rcases List.mem_cons.mp hb with rfl | hb
      · exact hlt
      · exact Nat.lt_trans hlt (hp.1 b hb)
    · split
      · subst_vars
        exact List.pairwise_cons.mpr ⟨hp.1, hp.2⟩
      · refine List.pairwise_cons.mpr ⟨fun b hb => ?_, ih hp.2⟩
        rcases memWrite_mem hb with rfl | hb
        · simp only; omega
        · exact hp.1 b hb

/-- A read after `memAdd`: the listed value, or the added one. -/
theorem memRead_add (m : Memory) (a b : Nat) (c : Color) (h : memWf m = true) :
    memRead (memAdd a c m) b = (memRead m b).or (if b = a then some c else none) := by
  rw [memWf_iff] at h
  induction m with
  | nil => simp [memAdd, memRead]
  | cons e m ih =>
    obtain ⟨k, v⟩ := e
    have hp := List.pairwise_cons.mp h
    simp only [memAdd]
    split
    · rename_i hlt
      by_cases hb : b = a
      · subst hb
        have hn : memRead m b = none := memRead_none (fun e he => by have := hp.1 e he; simp only at this; omega)
        simp [memRead, hn, Nat.ne_of_lt hlt]
      · simp only [memRead, if_neg hb]; split <;> simp
    · split
      · subst_vars
        simp only [memRead]
        by_cases hb : b = k
        · simp [hb]
        · simp [hb]
      · simp only [memRead, ih hp.2]
        by_cases hb : b = k
        · simp [hb]
        · simp [hb]

/-- The listed keys after `memAdd`. -/
theorem memAdd_mem {m : Memory} {a : Nat} {c : Color} {e : Nat × Color} (h : e ∈ memAdd a c m) :
    e = (a, c) ∨ e ∈ m := by
  induction m with
  | nil => simpa [memAdd] using h
  | cons x m ih =>
    obtain ⟨k, v⟩ := x
    simp only [memAdd] at h
    split at h
    · simpa using h
    · split at h
      · exact .inr h
      · rcases List.mem_cons.mp h with h | h
        · exact .inr (h ▸ List.mem_cons_self)
        · exact (ih h).imp_right (List.mem_cons_of_mem _)

/-- `memAdd` keeps the canonical form. -/
theorem memWf_add {m : Memory} (a : Nat) (c : Color) (h : memWf m = true) : memWf (memAdd a c m) = true := by
  rw [memWf_iff] at *
  induction m with
  | nil => simp [memAdd]
  | cons e m ih =>
    obtain ⟨k, v⟩ := e
    have hp := List.pairwise_cons.mp h
    simp only [memAdd]
    split
    · rename_i hlt
      refine List.pairwise_cons.mpr ⟨fun b hb => ?_, h⟩
      rcases List.mem_cons.mp hb with rfl | hb
      · exact hlt
      · exact Nat.lt_trans hlt (hp.1 b hb)
    · split
      · exact h
      · refine List.pairwise_cons.mpr ⟨fun b hb => ?_, ih hp.2⟩
        rcases memAdd_mem hb with rfl | hb
        · simp only; omega
        · exact hp.1 b hb

/-- `memLatest` is canonical. -/
theorem memWf_latest (ws : List (Nat × Color)) : memWf (memLatest ws) = true := by
  induction ws with
  | nil => rfl
  | cons e ws ih => exact memWf_add _ _ ih

/-- Canonical memories with equal reads are equal data. -/
theorem mem_ext {m n : Memory} (hm : memWf m = true) (hn : memWf n = true)
    (h : ∀ a, memRead m a = memRead n a) : m = n := by
  rw [memWf_iff] at hm hn
  induction m generalizing n with
  | nil =>
    cases n with
    | nil => rfl
    | cons e n => have := h e.1; simp [memRead] at this
  | cons e m ih =>
    obtain ⟨k, v⟩ := e
    cases n with
    | nil => have := h k; simp [memRead] at this
    | cons e' n =>
      obtain ⟨k', v'⟩ := e'
      have pm := List.pairwise_cons.mp hm
      have pn := List.pairwise_cons.mp hn
      have hk : k = k' := by
        rcases Nat.lt_trichotomy k k' with hlt | heq | hgt
        · have := h k
          rw [memRead, if_pos rfl, memRead, if_neg (Nat.ne_of_lt hlt),
            memRead_none (fun e he => by have := pn.1 e he; simp only at this; omega)] at this
          cases this
        · exact heq
        · have := h k'
          rw [memRead, if_neg (Nat.ne_of_lt hgt), memRead, if_pos rfl,
            memRead_none (fun e he => by have := pm.1 e he; simp only at this; omega)] at this
          cases this
      subst hk
      have hv : v = v' := by have := h k; simpa [memRead] using this
      subst hv
      congr 1
      refine ih pm.2 pn.2 (fun a => ?_)
      by_cases ha : a = k
      · subst ha
        rw [memRead_none (fun e he => by have := pm.1 e he; simp only at this; omega),
          memRead_none (fun e he => by have := pn.1 e he; simp only at this; omega)]
      · have := h a
        simpa [memRead, ha] using this

/-- The part of a canonical memory below a key. -/
theorem memRead_takeWhile {m : Memory} (k a : Nat) (h : m.Pairwise (fun a b => a.1 < b.1)) :
    memRead (m.takeWhile (fun e => decide (e.1 < k))) a = if a < k then memRead m a else none := by
  induction m with
  | nil => simp [memRead]
  | cons e m ih =>
    obtain ⟨k', v'⟩ := e
    have hp := List.pairwise_cons.mp h
    rw [List.takeWhile_cons]
    by_cases hk : k' < k
    · simp only [hk, decide_true, if_true, memRead, ih hp.2]
      by_cases ha : a = k'
      · subst ha; simp [hk]
      · simp [ha]
    · simp only [hk, decide_false, Bool.false_eq_true, if_false, memRead]
      split
      · have hne : a ≠ k' := by omega
        rw [if_neg hne, memRead_none (fun e he => by have := hp.1 e he; simp only at this; omega)]
      · rfl

/-- The part of a canonical memory above a key. -/
theorem memRead_dropWhile {m : Memory} (k a : Nat) (h : m.Pairwise (fun a b => a.1 < b.1)) :
    memRead (m.dropWhile (fun e => decide (e.1 ≤ k))) a = if k < a then memRead m a else none := by
  induction m with
  | nil => simp [memRead]
  | cons e m ih =>
    obtain ⟨k', v'⟩ := e
    have hp := List.pairwise_cons.mp h
    rw [List.dropWhile_cons]
    by_cases hk : k' ≤ k
    · simp only [hk, decide_true, if_true, memRead, ih hp.2]
      split
      · rw [if_neg (by omega)]
      · rfl
    · simp only [hk, decide_false, Bool.false_eq_true, if_false]
      split
      · rfl
      · exact memRead_none (fun e he => by
          rcases List.mem_cons.mp he with rfl | he
          · simp only; omega
          · have := hp.1 e he; simp only at this; omega)

/-- The keys of the part above a key are above it. -/
theorem dropWhile_above {m : Memory} (k : Nat) (h : m.Pairwise (fun a b => a.1 < b.1)) :
    ∀ e ∈ m.dropWhile (fun e => decide (e.1 ≤ k)), k < e.1 := by
  induction m with
  | nil => simp
  | cons e m ih =>
    have hp := List.pairwise_cons.mp h
    rw [List.dropWhile_cons]
    split
    · exact ih hp.2
    · rename_i hk
      simp only [decide_eq_true_eq, Nat.not_le] at hk
      intro e' he
      rcases List.mem_cons.mp he with rfl | he
      · exact hk
      · exact Nat.lt_trans hk (hp.1 e' he)

/-- A merge of keys above k has keys above k. -/
theorem memMerge_above {n m : Memory} {k : Nat} (hn : ∀ e ∈ n, k < e.1) (hm : ∀ e ∈ m, k < e.1) :
    ∀ e ∈ memMerge n m, k < e.1 := by
  induction n generalizing m with
  | nil => simpa [memMerge] using hm
  | cons x n ih =>
    obtain ⟨a, v⟩ := x
    intro e he
    rw [memMerge, List.mem_append, List.mem_cons] at he
    rcases he with he | he | he
    · exact hm e ((List.takeWhile_sublist _).subset he)
    · exact hn e (he ▸ List.mem_cons_self)
    · exact ih (fun e he => hn e (List.mem_cons_of_mem _ he))
        (fun e he => hm e ((List.dropWhile_sublist _).subset he)) e he

/-- A merge of canonical memories is canonical. -/
theorem memWf_merge {n m : Memory} (hn : memWf n = true) (hm : memWf m = true) : memWf (memMerge n m) = true := by
  rw [memWf_iff] at *
  induction n generalizing m with
  | nil => simpa [memMerge] using hm
  | cons x n ih =>
    obtain ⟨a, v⟩ := x
    have hp := List.pairwise_cons.mp hn
    have habove : ∀ e ∈ memMerge n (m.dropWhile (fun e => decide (e.1 ≤ a))), a < e.1 :=
      memMerge_above hp.1 (dropWhile_above a hm)
    rw [memMerge, List.pairwise_append]
    refine ⟨hm.sublist (List.takeWhile_sublist _), List.pairwise_cons.mpr
      ⟨habove, ih hp.2 (hm.sublist (List.dropWhile_sublist _))⟩, fun e he b hb => ?_⟩
    have hlt : e.1 < a := by simpa using List.all_eq_true.mp List.all_takeWhile e he
    rcases List.mem_cons.mp hb with rfl | hb
    · exact hlt
    · exact Nat.lt_trans hlt (habove b hb)

/-- A read of a merge reads the first memory first. -/
theorem memRead_merge {n m : Memory} (a : Nat) (hn : memWf n = true) (hm : memWf m = true) :
    memRead (memMerge n m) a = (memRead n a).or (memRead m a) := by
  rw [memWf_iff] at hn hm
  induction n generalizing m with
  | nil => simp [memMerge, memRead]
  | cons x n ih =>
    obtain ⟨k, v⟩ := x
    have hp := List.pairwise_cons.mp hn
    rw [memMerge, memRead_append, memRead_takeWhile k a hm, memRead,
      ih hp.2 (hm.sublist (List.dropWhile_sublist _)), memRead_dropWhile k a hm, memRead]
    rcases Nat.lt_trichotomy a k with hlt | heq | hgt
    · have hn : memRead n a = none := memRead_none (fun e he => by have := hp.1 e he; simp only at this; omega)
      simp [hlt, Nat.ne_of_lt hlt, Nat.not_lt_of_gt hlt, hn]
    · subst heq; simp
    · simp [Nat.not_lt_of_gt hgt, Nat.ne_of_gt hgt, hgt]

/-- What a list of writes leaves at a key, over a canonical memory: one write after the other. -/
theorem memMerge_latest_eq_foldl (ws : List (Nat × Color)) {m : Memory} (hm : memWf m = true) :
    memMerge (memLatest ws) m = ws.foldl (fun n e => memWrite e.1 e.2 n) m := by
  induction ws generalizing m with
  | nil => rfl
  | cons e ws ih =>
    rw [List.foldl_cons, ← ih (memWf_write _ _ hm)]
    have hl := memWf_latest ws
    refine mem_ext (memWf_merge (memWf_latest _) hm) (memWf_merge hl (memWf_write _ _ hm)) (fun a => ?_)
    rw [memRead_merge a (memWf_latest _) hm, memRead_merge a hl (memWf_write _ _ hm), memRead_write]
    have : memRead (memLatest (e :: ws)) a = (memRead (memLatest ws) a).or (if a = e.1 then some e.2 else none) :=
      memRead_add _ _ _ _ hl
    rw [this]
    by_cases ha : a = e.1 <;> cases memRead (memLatest ws) a <;> simp [ha]

/-- Painting keeps the canonical form. -/
theorem memWf_paintFb {s : State} (ps : List Paint) (h : memWf s.fb = true) : memWf (paintFb s ps) = true :=
  memWf_merge (memWf_latest _) h

/-- Painting is one write after the other, in order (42_transfer_window.md R147). -/
theorem paintFb_eq_foldl (s : State) (ps : List Paint) (h : memWf s.fb = true) :
    paintFb s ps = (fbWrites s ps).foldl (fun n e => memWrite e.1 e.2 n) s.fb :=
  memMerge_latest_eq_foldl _ h

/-- Painting nothing changes nothing. -/
@[simp] theorem paintFb_nil (s : State) : paintFb s [] = s.fb := rfl

/-- Painting twice is painting once (R147). -/
theorem paintFb_append {s t : State} (ps qs : List Paint) (h : memWf s.fb = true) (hf : t.fb = paintFb s ps)
    (hw : t.cfgWidth = s.cfgWidth) (hh : t.cfgHeight = s.cfgHeight) : paintFb t qs = paintFb s (ps ++ qs) := by
  have hv : fbWrites t qs = fbWrites s qs := by simp only [fbWrites, visible, hw, hh]
  rw [paintFb_eq_foldl t qs (by rw [hf]; exact memWf_paintFb ps h), hv, hf, paintFb_eq_foldl s ps h,
    ← List.foldl_append, paintFb_eq_foldl s (ps ++ qs) h]
  simp [fbWrites]

/-- The reset memory is canonical. -/
theorem memWf_reset : memWf State.reset.fb = true := rfl

end Sys2Proof.Machine
end

