-- ==== Sys2Proof/Laws/Params.lean ====
section
/-! SUPPORT. What the parameters' own proof says (00_scope.md R8, 41_config.md R100). -/

namespace Sys2Proof.Machine

/-- The constraints of R8, one by one. -/
theorem params_facts (p : Params) :
    (∀ g ∈ calibList p.raw.calib, geometryOk p.raw.kLines p.raw.bufMinBytes g = true)
      ∧ panel1Ok p.raw.calib.panel1 = true ∧ 1 ≤ p.raw.kLines ∧ 2 ≤ p.raw.bufMinBytes
      ∧ p.raw.bufMinBytes % 2 = 0 ∧ 1 ≤ p.raw.maxXfer ∧ resetPrefixOk p.raw.initSeq = true
      ∧ bracketedOk p.raw.maxXfer p.raw.asyncEnable false p.raw.initSeq = true
      ∧ (∀ e ∈ p.raw.fonts, fontOk e.2 = true) := by
  have h := p.ok
  simp only [rawParamsOk, Bool.and_eq_true, decide_eq_true_eq, List.all_eq_true] at h
  obtain ⟨⟨⟨⟨⟨⟨⟨⟨h1, h2⟩, h3⟩, h4⟩, h5⟩, h6⟩, h7⟩, h8⟩, h9⟩ := h
  exact ⟨h1, h2, h3, h4, h5, h6, h7, h8, h9⟩

/-- P_MAX_XFER >= 1. -/
theorem params_maxXfer (p : Params) : 1 ≤ p.raw.maxXfer := (params_facts p).2.2.2.2.2.1

/-- Every entry of the table is one of the twelve. -/
theorem calibAt_mem (c : Calib) (q : Fin 3) (r : BitVec 2) : calibAt c q r ∈ calibList c := by
  have hr : ∀ (p : PerRot Geometry), perRot p r ∈ perRotList p := by
    intro p
    unfold perRot perRotList
    split <;> simp
  match q with
  | 0 => exact List.mem_append_left _ (List.mem_append_left _ (hr _))
  | 1 => exact List.mem_append_left _ (List.mem_append_right _ (hr _))
  | 2 => exact List.mem_append_right _ (hr _)

/-- What R8 and R100 say of one entry of the table. -/
theorem calibAt_facts (p : Params) (q : Fin 3) (r : BitVec 2) :
    let g := calibAt p.raw.calib q r
    1 ≤ g.width.toNat ∧ 1 ≤ g.height.toNat ∧ g.width.toNat + g.xShift.toNat ≤ 65536
      ∧ g.height.toNat + g.yShift.toNat ≤ 65536 ∧ p.raw.bufMinBytes ≤ g.width.toNat * p.raw.kLines * 2
      ∧ g.width.toNat * p.raw.kLines * 2 < 4294967296 := by
  have h := (params_facts p).1 _ (calibAt_mem p.raw.calib q r)
  simp only [geometryOk, Bool.and_eq_true, decide_eq_true_eq] at h
  obtain ⟨⟨⟨⟨⟨h1, h2⟩, h3⟩, h4⟩, h5⟩, h6⟩ := h
  exact ⟨h1, h2, h3, h4, h5, h6⟩

end Sys2Proof.Machine
end

