-- ==== Sys2Proof/Laws/State.lean ====
section
/-! SUPPORT. One lemma per field of `State` per update, so that no later proof unfolds a record update; then the
same for the updates of a list of transactions, by their frame. -/

namespace Sys2Proof.Machine

variable (s : State)

/-! ### raise: fault entry (60_exceptions.md R233) -/

@[simp] theorem raise_cp (code : ErrCode) (arg : Word) : (raise code arg s).cp = s.cp := rfl
@[simp] theorem raise_latch (code : ErrCode) (arg : Word) : (raise code arg s).latch = [] := rfl
@[simp] theorem raise_engine (code : ErrCode) (arg : Word) : (raise code arg s).engine = .halted := rfl
@[simp] theorem raise_errCode (code : ErrCode) (arg : Word) : (raise code arg s).errCode = code := rfl
@[simp] theorem raise_faultCp (code : ErrCode) (arg : Word) : (raise code arg s).faultCp = s.cp := rfl
@[simp] theorem raise_faultArg (code : ErrCode) (arg : Word) : (raise code arg s).faultArg = arg := rfl
@[simp] theorem raise_res0 (code : ErrCode) (arg : Word) : (raise code arg s).res0 = s.res0 := rfl
@[simp] theorem raise_res1 (code : ErrCode) (arg : Word) : (raise code arg s).res1 = s.res1 := rfl
@[simp] theorem raise_res2 (code : ErrCode) (arg : Word) : (raise code arg s).res2 = s.res2 := rfl
@[simp] theorem raise_res3 (code : ErrCode) (arg : Word) : (raise code arg s).res3 = s.res3 := rfl
@[simp] theorem raise_cfgWidth (code : ErrCode) (arg : Word) : (raise code arg s).cfgWidth = s.cfgWidth := rfl
@[simp] theorem raise_cfgHeight (code : ErrCode) (arg : Word) : (raise code arg s).cfgHeight = s.cfgHeight := rfl
@[simp] theorem raise_cfgXshift (code : ErrCode) (arg : Word) : (raise code arg s).cfgXshift = s.cfgXshift := rfl
@[simp] theorem raise_cfgYshift (code : ErrCode) (arg : Word) : (raise code arg s).cfgYshift = s.cfgYshift := rfl
@[simp] theorem raise_cfgRot (code : ErrCode) (arg : Word) : (raise code arg s).cfgRot = s.cfgRot := rfl
@[simp] theorem raise_cfgPanel (code : ErrCode) (arg : Word) : (raise code arg s).cfgPanel = s.cfgPanel := rfl
@[simp] theorem raise_bufPresent (code : ErrCode) (arg : Word) : (raise code arg s).bufPresent = s.bufPresent := rfl
@[simp] theorem raise_bufBytes (code : ErrCode) (arg : Word) : (raise code arg s).bufBytes = s.bufBytes := rfl
@[simp] theorem raise_bufData (code : ErrCode) (arg : Word) : (raise code arg s).bufData = s.bufData := rfl
@[simp] theorem raise_bufTag (code : ErrCode) (arg : Word) : (raise code arg s).bufTag = s.bufTag := rfl
@[simp] theorem raise_glyphBuf (code : ErrCode) (arg : Word) : (raise code arg s).glyphBuf = s.glyphBuf := rfl
@[simp] theorem raise_sel (code : ErrCode) (arg : Word) : (raise code arg s).sel = s.sel := rfl
@[simp] theorem raise_dc (code : ErrCode) (arg : Word) : (raise code arg s).dc = s.dc := rfl
@[simp] theorem raise_xferBusy (code : ErrCode) (arg : Word) : (raise code arg s).xferBusy = s.xferBusy := rfl
@[simp] theorem raise_cmds (code : ErrCode) (arg : Word) : (raise code arg s).cmds = s.cmds := rfl
@[simp] theorem raise_fb (code : ErrCode) (arg : Word) : (raise code arg s).fb = s.fb := rfl
@[simp] theorem raise_wire (code : ErrCode) (arg : Word) : (raise code arg s).wire = s.wire := rfl
@[simp] theorem raise_alloc (code : ErrCode) (arg : Word) : (raise code arg s).alloc = s.alloc := rfl
@[simp] theorem raise_paintLog (code : ErrCode) (arg : Word) : (raise code arg s).paintLog = s.paintLog := rfl
@[simp] theorem raise_running (code : ErrCode) (arg : Word) : (raise code arg s).running = s.running := rfl
@[simp] theorem raise_par (code : ErrCode) (arg : Word) : (raise code arg s).par = s.par := rfl
@[simp] theorem raise_allocScript (code : ErrCode) (arg : Word) : (raise code arg s).allocScript = s.allocScript := rfl
@[simp] theorem raise_transportScript (code : ErrCode) (arg : Word) : (raise code arg s).transportScript = s.transportScript := rfl
@[simp] theorem raise_draws (code : ErrCode) (arg : Word) : (raise code arg s).draws = s.draws := rfl

/-! ### advance: the command pointer's advance (10_state.md R22) -/

@[simp] theorem advance_cp (len : Nat) : (advance len s).cp = s.cp + BitVec.ofNat 32 len := rfl
@[simp] theorem advance_latch (len : Nat) : (advance len s).latch = [] := rfl
@[simp] theorem advance_engine (len : Nat) : (advance len s).engine = s.engine := rfl
@[simp] theorem advance_errCode (len : Nat) : (advance len s).errCode = s.errCode := rfl
@[simp] theorem advance_faultCp (len : Nat) : (advance len s).faultCp = s.faultCp := rfl
@[simp] theorem advance_faultArg (len : Nat) : (advance len s).faultArg = s.faultArg := rfl
@[simp] theorem advance_res0 (len : Nat) : (advance len s).res0 = s.res0 := rfl
@[simp] theorem advance_res1 (len : Nat) : (advance len s).res1 = s.res1 := rfl
@[simp] theorem advance_res2 (len : Nat) : (advance len s).res2 = s.res2 := rfl
@[simp] theorem advance_res3 (len : Nat) : (advance len s).res3 = s.res3 := rfl
@[simp] theorem advance_cfgWidth (len : Nat) : (advance len s).cfgWidth = s.cfgWidth := rfl
@[simp] theorem advance_cfgHeight (len : Nat) : (advance len s).cfgHeight = s.cfgHeight := rfl
@[simp] theorem advance_cfgXshift (len : Nat) : (advance len s).cfgXshift = s.cfgXshift := rfl
@[simp] theorem advance_cfgYshift (len : Nat) : (advance len s).cfgYshift = s.cfgYshift := rfl
@[simp] theorem advance_cfgRot (len : Nat) : (advance len s).cfgRot = s.cfgRot := rfl
@[simp] theorem advance_cfgPanel (len : Nat) : (advance len s).cfgPanel = s.cfgPanel := rfl
@[simp] theorem advance_bufPresent (len : Nat) : (advance len s).bufPresent = s.bufPresent := rfl
@[simp] theorem advance_bufBytes (len : Nat) : (advance len s).bufBytes = s.bufBytes := rfl
@[simp] theorem advance_bufData (len : Nat) : (advance len s).bufData = s.bufData := rfl
@[simp] theorem advance_bufTag (len : Nat) : (advance len s).bufTag = s.bufTag := rfl
@[simp] theorem advance_glyphBuf (len : Nat) : (advance len s).glyphBuf = s.glyphBuf := rfl
@[simp] theorem advance_sel (len : Nat) : (advance len s).sel = s.sel := rfl
@[simp] theorem advance_dc (len : Nat) : (advance len s).dc = s.dc := rfl
@[simp] theorem advance_xferBusy (len : Nat) : (advance len s).xferBusy = s.xferBusy := rfl
@[simp] theorem advance_cmds (len : Nat) : (advance len s).cmds = s.cmds := rfl
@[simp] theorem advance_fb (len : Nat) : (advance len s).fb = s.fb := rfl
@[simp] theorem advance_wire (len : Nat) : (advance len s).wire = s.wire := rfl
@[simp] theorem advance_alloc (len : Nat) : (advance len s).alloc = s.alloc := rfl
@[simp] theorem advance_paintLog (len : Nat) : (advance len s).paintLog = s.paintLog := rfl
@[simp] theorem advance_running (len : Nat) : (advance len s).running = s.running := rfl
@[simp] theorem advance_par (len : Nat) : (advance len s).par = s.par := rfl
@[simp] theorem advance_allocScript (len : Nat) : (advance len s).allocScript = s.allocScript := rfl
@[simp] theorem advance_transportScript (len : Nat) : (advance len s).transportScript = s.transportScript := rfl
@[simp] theorem advance_draws (len : Nat) : (advance len s).draws = s.draws := rfl

/-! ### emitAll: emitting wire events (42_transfer_window.md R130) -/

@[simp] theorem emitAll_cp (es : List WireEvent) : (emitAll es s).cp = s.cp := rfl
@[simp] theorem emitAll_latch (es : List WireEvent) : (emitAll es s).latch = s.latch := rfl
@[simp] theorem emitAll_engine (es : List WireEvent) : (emitAll es s).engine = s.engine := rfl
@[simp] theorem emitAll_errCode (es : List WireEvent) : (emitAll es s).errCode = s.errCode := rfl
@[simp] theorem emitAll_faultCp (es : List WireEvent) : (emitAll es s).faultCp = s.faultCp := rfl
@[simp] theorem emitAll_faultArg (es : List WireEvent) : (emitAll es s).faultArg = s.faultArg := rfl
@[simp] theorem emitAll_res0 (es : List WireEvent) : (emitAll es s).res0 = s.res0 := rfl
@[simp] theorem emitAll_res1 (es : List WireEvent) : (emitAll es s).res1 = s.res1 := rfl
@[simp] theorem emitAll_res2 (es : List WireEvent) : (emitAll es s).res2 = s.res2 := rfl
@[simp] theorem emitAll_res3 (es : List WireEvent) : (emitAll es s).res3 = s.res3 := rfl
@[simp] theorem emitAll_cfgWidth (es : List WireEvent) : (emitAll es s).cfgWidth = s.cfgWidth := rfl
@[simp] theorem emitAll_cfgHeight (es : List WireEvent) : (emitAll es s).cfgHeight = s.cfgHeight := rfl
@[simp] theorem emitAll_cfgXshift (es : List WireEvent) : (emitAll es s).cfgXshift = s.cfgXshift := rfl
@[simp] theorem emitAll_cfgYshift (es : List WireEvent) : (emitAll es s).cfgYshift = s.cfgYshift := rfl
@[simp] theorem emitAll_cfgRot (es : List WireEvent) : (emitAll es s).cfgRot = s.cfgRot := rfl
@[simp] theorem emitAll_cfgPanel (es : List WireEvent) : (emitAll es s).cfgPanel = s.cfgPanel := rfl
@[simp] theorem emitAll_bufPresent (es : List WireEvent) : (emitAll es s).bufPresent = s.bufPresent := rfl
@[simp] theorem emitAll_bufBytes (es : List WireEvent) : (emitAll es s).bufBytes = s.bufBytes := rfl
@[simp] theorem emitAll_bufData (es : List WireEvent) : (emitAll es s).bufData = s.bufData := rfl
@[simp] theorem emitAll_bufTag (es : List WireEvent) : (emitAll es s).bufTag = s.bufTag := rfl
@[simp] theorem emitAll_glyphBuf (es : List WireEvent) : (emitAll es s).glyphBuf = s.glyphBuf := rfl
@[simp] theorem emitAll_sel (es : List WireEvent) : (emitAll es s).sel = selAfter s.sel es := rfl
@[simp] theorem emitAll_dc (es : List WireEvent) : (emitAll es s).dc = dcAfter s.dc es := rfl
@[simp] theorem emitAll_xferBusy (es : List WireEvent) : (emitAll es s).xferBusy = s.xferBusy := rfl
@[simp] theorem emitAll_cmds (es : List WireEvent) : (emitAll es s).cmds = s.cmds := rfl
@[simp] theorem emitAll_fb (es : List WireEvent) : (emitAll es s).fb = paintFb s (paintsOf s es) := rfl
@[simp] theorem emitAll_wire (es : List WireEvent) : (emitAll es s).wire = s.wire ++ es := rfl
@[simp] theorem emitAll_alloc (es : List WireEvent) : (emitAll es s).alloc = s.alloc := rfl
@[simp] theorem emitAll_paintLog (es : List WireEvent) : (emitAll es s).paintLog = s.paintLog ++ paintsOf s es := rfl
@[simp] theorem emitAll_running (es : List WireEvent) : (emitAll es s).running = s.running := rfl
@[simp] theorem emitAll_par (es : List WireEvent) : (emitAll es s).par = s.par := rfl
@[simp] theorem emitAll_allocScript (es : List WireEvent) : (emitAll es s).allocScript = s.allocScript := rfl
@[simp] theorem emitAll_transportScript (es : List WireEvent) : (emitAll es s).transportScript = s.transportScript := rfl
@[simp] theorem emitAll_draws (es : List WireEvent) : (emitAll es s).draws = s.draws := rfl

/-! ### paint: painting (42_transfer_window.md R146, R147) -/

@[simp] theorem paint_cp (ps : List Paint) : (paint ps s).cp = s.cp := rfl
@[simp] theorem paint_latch (ps : List Paint) : (paint ps s).latch = s.latch := rfl
@[simp] theorem paint_engine (ps : List Paint) : (paint ps s).engine = s.engine := rfl
@[simp] theorem paint_errCode (ps : List Paint) : (paint ps s).errCode = s.errCode := rfl
@[simp] theorem paint_faultCp (ps : List Paint) : (paint ps s).faultCp = s.faultCp := rfl
@[simp] theorem paint_faultArg (ps : List Paint) : (paint ps s).faultArg = s.faultArg := rfl
@[simp] theorem paint_res0 (ps : List Paint) : (paint ps s).res0 = s.res0 := rfl
@[simp] theorem paint_res1 (ps : List Paint) : (paint ps s).res1 = s.res1 := rfl
@[simp] theorem paint_res2 (ps : List Paint) : (paint ps s).res2 = s.res2 := rfl
@[simp] theorem paint_res3 (ps : List Paint) : (paint ps s).res3 = s.res3 := rfl
@[simp] theorem paint_cfgWidth (ps : List Paint) : (paint ps s).cfgWidth = s.cfgWidth := rfl
@[simp] theorem paint_cfgHeight (ps : List Paint) : (paint ps s).cfgHeight = s.cfgHeight := rfl
@[simp] theorem paint_cfgXshift (ps : List Paint) : (paint ps s).cfgXshift = s.cfgXshift := rfl
@[simp] theorem paint_cfgYshift (ps : List Paint) : (paint ps s).cfgYshift = s.cfgYshift := rfl
@[simp] theorem paint_cfgRot (ps : List Paint) : (paint ps s).cfgRot = s.cfgRot := rfl
@[simp] theorem paint_cfgPanel (ps : List Paint) : (paint ps s).cfgPanel = s.cfgPanel := rfl
@[simp] theorem paint_bufPresent (ps : List Paint) : (paint ps s).bufPresent = s.bufPresent := rfl
@[simp] theorem paint_bufBytes (ps : List Paint) : (paint ps s).bufBytes = s.bufBytes := rfl
@[simp] theorem paint_bufData (ps : List Paint) : (paint ps s).bufData = s.bufData := rfl
@[simp] theorem paint_bufTag (ps : List Paint) : (paint ps s).bufTag = s.bufTag := rfl
@[simp] theorem paint_glyphBuf (ps : List Paint) : (paint ps s).glyphBuf = s.glyphBuf := rfl
@[simp] theorem paint_sel (ps : List Paint) : (paint ps s).sel = s.sel := rfl
@[simp] theorem paint_dc (ps : List Paint) : (paint ps s).dc = s.dc := rfl
@[simp] theorem paint_xferBusy (ps : List Paint) : (paint ps s).xferBusy = s.xferBusy := rfl
@[simp] theorem paint_cmds (ps : List Paint) : (paint ps s).cmds = s.cmds := rfl
@[simp] theorem paint_fb (ps : List Paint) : (paint ps s).fb = paintFb s ps := rfl
@[simp] theorem paint_wire (ps : List Paint) : (paint ps s).wire = s.wire := rfl
@[simp] theorem paint_alloc (ps : List Paint) : (paint ps s).alloc = s.alloc := rfl
@[simp] theorem paint_paintLog (ps : List Paint) : (paint ps s).paintLog = s.paintLog ++ ps := rfl
@[simp] theorem paint_running (ps : List Paint) : (paint ps s).running = s.running := rfl
@[simp] theorem paint_par (ps : List Paint) : (paint ps s).par = s.par := rfl
@[simp] theorem paint_allocScript (ps : List Paint) : (paint ps s).allocScript = s.allocScript := rfl
@[simp] theorem paint_transportScript (ps : List Paint) : (paint ps s).transportScript = s.transportScript := rfl
@[simp] theorem paint_draws (ps : List Paint) : (paint ps s).draws = s.draws := rfl

/-! ### forgetFb: the restart of FB (42_transfer_window.md R147) -/

@[simp] theorem forgetFb_cp : (forgetFb s).cp = s.cp := rfl
@[simp] theorem forgetFb_latch : (forgetFb s).latch = s.latch := rfl
@[simp] theorem forgetFb_engine : (forgetFb s).engine = s.engine := rfl
@[simp] theorem forgetFb_errCode : (forgetFb s).errCode = s.errCode := rfl
@[simp] theorem forgetFb_faultCp : (forgetFb s).faultCp = s.faultCp := rfl
@[simp] theorem forgetFb_faultArg : (forgetFb s).faultArg = s.faultArg := rfl
@[simp] theorem forgetFb_res0 : (forgetFb s).res0 = s.res0 := rfl
@[simp] theorem forgetFb_res1 : (forgetFb s).res1 = s.res1 := rfl
@[simp] theorem forgetFb_res2 : (forgetFb s).res2 = s.res2 := rfl
@[simp] theorem forgetFb_res3 : (forgetFb s).res3 = s.res3 := rfl
@[simp] theorem forgetFb_cfgWidth : (forgetFb s).cfgWidth = s.cfgWidth := rfl
@[simp] theorem forgetFb_cfgHeight : (forgetFb s).cfgHeight = s.cfgHeight := rfl
@[simp] theorem forgetFb_cfgXshift : (forgetFb s).cfgXshift = s.cfgXshift := rfl
@[simp] theorem forgetFb_cfgYshift : (forgetFb s).cfgYshift = s.cfgYshift := rfl
@[simp] theorem forgetFb_cfgRot : (forgetFb s).cfgRot = s.cfgRot := rfl
@[simp] theorem forgetFb_cfgPanel : (forgetFb s).cfgPanel = s.cfgPanel := rfl
@[simp] theorem forgetFb_bufPresent : (forgetFb s).bufPresent = s.bufPresent := rfl
@[simp] theorem forgetFb_bufBytes : (forgetFb s).bufBytes = s.bufBytes := rfl
@[simp] theorem forgetFb_bufData : (forgetFb s).bufData = s.bufData := rfl
@[simp] theorem forgetFb_bufTag : (forgetFb s).bufTag = s.bufTag := rfl
@[simp] theorem forgetFb_glyphBuf : (forgetFb s).glyphBuf = s.glyphBuf := rfl
@[simp] theorem forgetFb_sel : (forgetFb s).sel = s.sel := rfl
@[simp] theorem forgetFb_dc : (forgetFb s).dc = s.dc := rfl
@[simp] theorem forgetFb_xferBusy : (forgetFb s).xferBusy = s.xferBusy := rfl
@[simp] theorem forgetFb_cmds : (forgetFb s).cmds = s.cmds := rfl
@[simp] theorem forgetFb_fb : (forgetFb s).fb = [] := rfl
@[simp] theorem forgetFb_wire : (forgetFb s).wire = s.wire := rfl
@[simp] theorem forgetFb_alloc : (forgetFb s).alloc = s.alloc := rfl
@[simp] theorem forgetFb_paintLog : (forgetFb s).paintLog = s.paintLog := rfl
@[simp] theorem forgetFb_running : (forgetFb s).running = s.running := rfl
@[simp] theorem forgetFb_par : (forgetFb s).par = s.par := rfl
@[simp] theorem forgetFb_allocScript : (forgetFb s).allocScript = s.allocScript := rfl
@[simp] theorem forgetFb_transportScript : (forgetFb s).transportScript = s.transportScript := rfl
@[simp] theorem forgetFb_draws : (forgetFb s).draws = s.draws := rfl

/-! ### release: the release of the buffer (42_transfer_window.md R139) -/

@[simp] theorem release_cp : (release s).cp = s.cp := rfl
@[simp] theorem release_latch : (release s).latch = s.latch := rfl
@[simp] theorem release_engine : (release s).engine = s.engine := rfl
@[simp] theorem release_errCode : (release s).errCode = s.errCode := rfl
@[simp] theorem release_faultCp : (release s).faultCp = s.faultCp := rfl
@[simp] theorem release_faultArg : (release s).faultArg = s.faultArg := rfl
@[simp] theorem release_res0 : (release s).res0 = s.res0 := rfl
@[simp] theorem release_res1 : (release s).res1 = s.res1 := rfl
@[simp] theorem release_res2 : (release s).res2 = s.res2 := rfl
@[simp] theorem release_res3 : (release s).res3 = s.res3 := rfl
@[simp] theorem release_cfgWidth : (release s).cfgWidth = s.cfgWidth := rfl
@[simp] theorem release_cfgHeight : (release s).cfgHeight = s.cfgHeight := rfl
@[simp] theorem release_cfgXshift : (release s).cfgXshift = s.cfgXshift := rfl
@[simp] theorem release_cfgYshift : (release s).cfgYshift = s.cfgYshift := rfl
@[simp] theorem release_cfgRot : (release s).cfgRot = s.cfgRot := rfl
@[simp] theorem release_cfgPanel : (release s).cfgPanel = s.cfgPanel := rfl
@[simp] theorem release_bufPresent : (release s).bufPresent = false := rfl
@[simp] theorem release_bufBytes : (release s).bufBytes = if s.bufPresent then 0 else s.bufBytes := rfl
@[simp] theorem release_bufData : (release s).bufData = if s.bufPresent then [] else s.bufData := rfl
@[simp] theorem release_bufTag : (release s).bufTag = if s.bufPresent then none else s.bufTag := rfl
@[simp] theorem release_glyphBuf : (release s).glyphBuf = s.glyphBuf := rfl
@[simp] theorem release_sel : (release s).sel = s.sel := rfl
@[simp] theorem release_dc : (release s).dc = s.dc := rfl
@[simp] theorem release_xferBusy : (release s).xferBusy = s.xferBusy := rfl
@[simp] theorem release_cmds : (release s).cmds = s.cmds := rfl
@[simp] theorem release_fb : (release s).fb = s.fb := rfl
@[simp] theorem release_wire : (release s).wire = s.wire := rfl
@[simp] theorem release_alloc : (release s).alloc = if s.bufPresent then s.alloc ++ [.free] else s.alloc := rfl
@[simp] theorem release_paintLog : (release s).paintLog = s.paintLog := rfl
@[simp] theorem release_running : (release s).running = s.running := rfl
@[simp] theorem release_par : (release s).par = s.par := rfl
@[simp] theorem release_allocScript : (release s).allocScript = s.allocScript := rfl
@[simp] theorem release_transportScript : (release s).transportScript = s.transportScript := rfl
@[simp] theorem release_draws : (release s).draws = s.draws := rfl

/-! ### allocate: an allocation (42_transfer_window.md R139) -/

@[simp] theorem allocate_cp (hint : BitVec 32) : (allocate hint s).cp = s.cp := rfl
@[simp] theorem allocate_latch (hint : BitVec 32) : (allocate hint s).latch = s.latch := rfl
@[simp] theorem allocate_engine (hint : BitVec 32) : (allocate hint s).engine = s.engine := rfl
@[simp] theorem allocate_errCode (hint : BitVec 32) : (allocate hint s).errCode = s.errCode := rfl
@[simp] theorem allocate_faultCp (hint : BitVec 32) : (allocate hint s).faultCp = s.faultCp := rfl
@[simp] theorem allocate_faultArg (hint : BitVec 32) : (allocate hint s).faultArg = s.faultArg := rfl
@[simp] theorem allocate_res0 (hint : BitVec 32) : (allocate hint s).res0 = s.res0 := rfl
@[simp] theorem allocate_res1 (hint : BitVec 32) : (allocate hint s).res1 = s.res1 := rfl
@[simp] theorem allocate_res2 (hint : BitVec 32) : (allocate hint s).res2 = s.res2 := rfl
@[simp] theorem allocate_res3 (hint : BitVec 32) : (allocate hint s).res3 = s.res3 := rfl
@[simp] theorem allocate_cfgWidth (hint : BitVec 32) : (allocate hint s).cfgWidth = s.cfgWidth := rfl
@[simp] theorem allocate_cfgHeight (hint : BitVec 32) : (allocate hint s).cfgHeight = s.cfgHeight := rfl
@[simp] theorem allocate_cfgXshift (hint : BitVec 32) : (allocate hint s).cfgXshift = s.cfgXshift := rfl
@[simp] theorem allocate_cfgYshift (hint : BitVec 32) : (allocate hint s).cfgYshift = s.cfgYshift := rfl
@[simp] theorem allocate_cfgRot (hint : BitVec 32) : (allocate hint s).cfgRot = s.cfgRot := rfl
@[simp] theorem allocate_cfgPanel (hint : BitVec 32) : (allocate hint s).cfgPanel = s.cfgPanel := rfl
@[simp] theorem allocate_bufPresent (hint : BitVec 32) : (allocate hint s).bufPresent = allocAnswer s := rfl
@[simp] theorem allocate_bufBytes (hint : BitVec 32) : (allocate hint s).bufBytes = if allocAnswer s then BitVec.ofNat 32 (allocSize s hint) else (release s).bufBytes := rfl
@[simp] theorem allocate_bufData (hint : BitVec 32) : (allocate hint s).bufData = if allocAnswer s then freshBytes s.draws (allocSize s hint) else (release s).bufData := rfl
@[simp] theorem allocate_bufTag (hint : BitVec 32) : (allocate hint s).bufTag = if allocAnswer s then none else (release s).bufTag := rfl
@[simp] theorem allocate_glyphBuf (hint : BitVec 32) : (allocate hint s).glyphBuf = s.glyphBuf := rfl
@[simp] theorem allocate_sel (hint : BitVec 32) : (allocate hint s).sel = s.sel := rfl
@[simp] theorem allocate_dc (hint : BitVec 32) : (allocate hint s).dc = s.dc := rfl
@[simp] theorem allocate_xferBusy (hint : BitVec 32) : (allocate hint s).xferBusy = s.xferBusy := rfl
@[simp] theorem allocate_cmds (hint : BitVec 32) : (allocate hint s).cmds = s.cmds := rfl
@[simp] theorem allocate_fb (hint : BitVec 32) : (allocate hint s).fb = s.fb := rfl
@[simp] theorem allocate_wire (hint : BitVec 32) : (allocate hint s).wire = s.wire := rfl
@[simp] theorem allocate_alloc (hint : BitVec 32) : (allocate hint s).alloc = (release s).alloc ++ [.alloc (allocSize s hint) (allocAnswer s)] := rfl
@[simp] theorem allocate_paintLog (hint : BitVec 32) : (allocate hint s).paintLog = s.paintLog := rfl
@[simp] theorem allocate_running (hint : BitVec 32) : (allocate hint s).running = s.running := rfl
@[simp] theorem allocate_par (hint : BitVec 32) : (allocate hint s).par = s.par := rfl
@[simp] theorem allocate_allocScript (hint : BitVec 32) : (allocate hint s).allocScript = s.allocScript.tail := rfl
@[simp] theorem allocate_transportScript (hint : BitVec 32) : (allocate hint s).transportScript = s.transportScript := rfl
@[simp] theorem allocate_draws (hint : BitVec 32) : (allocate hint s).draws = s.draws + 1 := rfl

/-! ### refresh: a refill of the buffer (42_transfer_window.md R142) -/

@[simp] theorem refresh_cp (c : Color) : (refresh c s).cp = s.cp := rfl
@[simp] theorem refresh_latch (c : Color) : (refresh c s).latch = s.latch := rfl
@[simp] theorem refresh_engine (c : Color) : (refresh c s).engine = s.engine := rfl
@[simp] theorem refresh_errCode (c : Color) : (refresh c s).errCode = s.errCode := rfl
@[simp] theorem refresh_faultCp (c : Color) : (refresh c s).faultCp = s.faultCp := rfl
@[simp] theorem refresh_faultArg (c : Color) : (refresh c s).faultArg = s.faultArg := rfl
@[simp] theorem refresh_res0 (c : Color) : (refresh c s).res0 = s.res0 := rfl
@[simp] theorem refresh_res1 (c : Color) : (refresh c s).res1 = s.res1 := rfl
@[simp] theorem refresh_res2 (c : Color) : (refresh c s).res2 = s.res2 := rfl
@[simp] theorem refresh_res3 (c : Color) : (refresh c s).res3 = s.res3 := rfl
@[simp] theorem refresh_cfgWidth (c : Color) : (refresh c s).cfgWidth = s.cfgWidth := rfl
@[simp] theorem refresh_cfgHeight (c : Color) : (refresh c s).cfgHeight = s.cfgHeight := rfl
@[simp] theorem refresh_cfgXshift (c : Color) : (refresh c s).cfgXshift = s.cfgXshift := rfl
@[simp] theorem refresh_cfgYshift (c : Color) : (refresh c s).cfgYshift = s.cfgYshift := rfl
@[simp] theorem refresh_cfgRot (c : Color) : (refresh c s).cfgRot = s.cfgRot := rfl
@[simp] theorem refresh_cfgPanel (c : Color) : (refresh c s).cfgPanel = s.cfgPanel := rfl
@[simp] theorem refresh_bufPresent (c : Color) : (refresh c s).bufPresent = s.bufPresent := rfl
@[simp] theorem refresh_bufBytes (c : Color) : (refresh c s).bufBytes = s.bufBytes := rfl
@[simp] theorem refresh_bufData (c : Color) : (refresh c s).bufData = if s.bufTag = some c then s.bufData else fillBytes (s.bufBytes.toNat / 2) c := rfl
@[simp] theorem refresh_bufTag (c : Color) : (refresh c s).bufTag = some c := rfl
@[simp] theorem refresh_glyphBuf (c : Color) : (refresh c s).glyphBuf = s.glyphBuf := rfl
@[simp] theorem refresh_sel (c : Color) : (refresh c s).sel = s.sel := rfl
@[simp] theorem refresh_dc (c : Color) : (refresh c s).dc = s.dc := rfl
@[simp] theorem refresh_xferBusy (c : Color) : (refresh c s).xferBusy = s.xferBusy := rfl
@[simp] theorem refresh_cmds (c : Color) : (refresh c s).cmds = s.cmds := rfl
@[simp] theorem refresh_fb (c : Color) : (refresh c s).fb = s.fb := rfl
@[simp] theorem refresh_wire (c : Color) : (refresh c s).wire = s.wire := rfl
@[simp] theorem refresh_alloc (c : Color) : (refresh c s).alloc = s.alloc := rfl
@[simp] theorem refresh_paintLog (c : Color) : (refresh c s).paintLog = s.paintLog := rfl
@[simp] theorem refresh_running (c : Color) : (refresh c s).running = s.running := rfl
@[simp] theorem refresh_par (c : Color) : (refresh c s).par = s.par := rfl
@[simp] theorem refresh_allocScript (c : Color) : (refresh c s).allocScript = s.allocScript := rfl
@[simp] theorem refresh_transportScript (c : Color) : (refresh c s).transportScript = s.transportScript := rfl
@[simp] theorem refresh_draws (c : Color) : (refresh c s).draws = s.draws := rfl

/-! ### loadGlyph: a glyph's load (44_text.md R206) -/

@[simp] theorem loadGlyph_cp (ks : List Color) : (loadGlyph ks s).cp = s.cp := rfl
@[simp] theorem loadGlyph_latch (ks : List Color) : (loadGlyph ks s).latch = s.latch := rfl
@[simp] theorem loadGlyph_engine (ks : List Color) : (loadGlyph ks s).engine = s.engine := rfl
@[simp] theorem loadGlyph_errCode (ks : List Color) : (loadGlyph ks s).errCode = s.errCode := rfl
@[simp] theorem loadGlyph_faultCp (ks : List Color) : (loadGlyph ks s).faultCp = s.faultCp := rfl
@[simp] theorem loadGlyph_faultArg (ks : List Color) : (loadGlyph ks s).faultArg = s.faultArg := rfl
@[simp] theorem loadGlyph_res0 (ks : List Color) : (loadGlyph ks s).res0 = s.res0 := rfl
@[simp] theorem loadGlyph_res1 (ks : List Color) : (loadGlyph ks s).res1 = s.res1 := rfl
@[simp] theorem loadGlyph_res2 (ks : List Color) : (loadGlyph ks s).res2 = s.res2 := rfl
@[simp] theorem loadGlyph_res3 (ks : List Color) : (loadGlyph ks s).res3 = s.res3 := rfl
@[simp] theorem loadGlyph_cfgWidth (ks : List Color) : (loadGlyph ks s).cfgWidth = s.cfgWidth := rfl
@[simp] theorem loadGlyph_cfgHeight (ks : List Color) : (loadGlyph ks s).cfgHeight = s.cfgHeight := rfl
@[simp] theorem loadGlyph_cfgXshift (ks : List Color) : (loadGlyph ks s).cfgXshift = s.cfgXshift := rfl
@[simp] theorem loadGlyph_cfgYshift (ks : List Color) : (loadGlyph ks s).cfgYshift = s.cfgYshift := rfl
@[simp] theorem loadGlyph_cfgRot (ks : List Color) : (loadGlyph ks s).cfgRot = s.cfgRot := rfl
@[simp] theorem loadGlyph_cfgPanel (ks : List Color) : (loadGlyph ks s).cfgPanel = s.cfgPanel := rfl
@[simp] theorem loadGlyph_bufPresent (ks : List Color) : (loadGlyph ks s).bufPresent = s.bufPresent := rfl
@[simp] theorem loadGlyph_bufBytes (ks : List Color) : (loadGlyph ks s).bufBytes = s.bufBytes := rfl
@[simp] theorem loadGlyph_bufData (ks : List Color) : (loadGlyph ks s).bufData = s.bufData := rfl
@[simp] theorem loadGlyph_bufTag (ks : List Color) : (loadGlyph ks s).bufTag = s.bufTag := rfl
@[simp] theorem loadGlyph_glyphBuf (ks : List Color) : (loadGlyph ks s).glyphBuf = ks ++ s.glyphBuf.drop ks.length := rfl
@[simp] theorem loadGlyph_sel (ks : List Color) : (loadGlyph ks s).sel = s.sel := rfl
@[simp] theorem loadGlyph_dc (ks : List Color) : (loadGlyph ks s).dc = s.dc := rfl
@[simp] theorem loadGlyph_xferBusy (ks : List Color) : (loadGlyph ks s).xferBusy = s.xferBusy := rfl
@[simp] theorem loadGlyph_cmds (ks : List Color) : (loadGlyph ks s).cmds = s.cmds := rfl
@[simp] theorem loadGlyph_fb (ks : List Color) : (loadGlyph ks s).fb = s.fb := rfl
@[simp] theorem loadGlyph_wire (ks : List Color) : (loadGlyph ks s).wire = s.wire := rfl
@[simp] theorem loadGlyph_alloc (ks : List Color) : (loadGlyph ks s).alloc = s.alloc := rfl
@[simp] theorem loadGlyph_paintLog (ks : List Color) : (loadGlyph ks s).paintLog = s.paintLog := rfl
@[simp] theorem loadGlyph_running (ks : List Color) : (loadGlyph ks s).running = s.running := rfl
@[simp] theorem loadGlyph_par (ks : List Color) : (loadGlyph ks s).par = s.par := rfl
@[simp] theorem loadGlyph_allocScript (ks : List Color) : (loadGlyph ks s).allocScript = s.allocScript := rfl
@[simp] theorem loadGlyph_transportScript (ks : List Color) : (loadGlyph ks s).transportScript = s.transportScript := rfl
@[simp] theorem loadGlyph_draws (ks : List Color) : (loadGlyph ks s).draws = s.draws := rfl

/-! ### applyGeometry: the geometry's write (41_config.md R102) -/

@[simp] theorem applyGeometry_cp (p : Fin 3) (r : BitVec 2) : (applyGeometry p r s).cp = s.cp := rfl
@[simp] theorem applyGeometry_latch (p : Fin 3) (r : BitVec 2) : (applyGeometry p r s).latch = s.latch := rfl
@[simp] theorem applyGeometry_engine (p : Fin 3) (r : BitVec 2) : (applyGeometry p r s).engine = s.engine := rfl
@[simp] theorem applyGeometry_errCode (p : Fin 3) (r : BitVec 2) : (applyGeometry p r s).errCode = s.errCode := rfl
@[simp] theorem applyGeometry_faultCp (p : Fin 3) (r : BitVec 2) : (applyGeometry p r s).faultCp = s.faultCp := rfl
@[simp] theorem applyGeometry_faultArg (p : Fin 3) (r : BitVec 2) : (applyGeometry p r s).faultArg = s.faultArg := rfl
@[simp] theorem applyGeometry_res0 (p : Fin 3) (r : BitVec 2) : (applyGeometry p r s).res0 = s.res0 := rfl
@[simp] theorem applyGeometry_res1 (p : Fin 3) (r : BitVec 2) : (applyGeometry p r s).res1 = s.res1 := rfl
@[simp] theorem applyGeometry_res2 (p : Fin 3) (r : BitVec 2) : (applyGeometry p r s).res2 = s.res2 := rfl
@[simp] theorem applyGeometry_res3 (p : Fin 3) (r : BitVec 2) : (applyGeometry p r s).res3 = s.res3 := rfl
@[simp] theorem applyGeometry_cfgWidth (p : Fin 3) (r : BitVec 2) : (applyGeometry p r s).cfgWidth = (calibAt s.par.raw.calib p r).width := rfl
@[simp] theorem applyGeometry_cfgHeight (p : Fin 3) (r : BitVec 2) : (applyGeometry p r s).cfgHeight = (calibAt s.par.raw.calib p r).height := rfl
@[simp] theorem applyGeometry_cfgXshift (p : Fin 3) (r : BitVec 2) : (applyGeometry p r s).cfgXshift = (calibAt s.par.raw.calib p r).xShift := rfl
@[simp] theorem applyGeometry_cfgYshift (p : Fin 3) (r : BitVec 2) : (applyGeometry p r s).cfgYshift = (calibAt s.par.raw.calib p r).yShift := rfl
@[simp] theorem applyGeometry_cfgRot (p : Fin 3) (r : BitVec 2) : (applyGeometry p r s).cfgRot = r := rfl
@[simp] theorem applyGeometry_cfgPanel (p : Fin 3) (r : BitVec 2) : (applyGeometry p r s).cfgPanel = p := rfl
@[simp] theorem applyGeometry_bufPresent (p : Fin 3) (r : BitVec 2) : (applyGeometry p r s).bufPresent = s.bufPresent := rfl
@[simp] theorem applyGeometry_bufBytes (p : Fin 3) (r : BitVec 2) : (applyGeometry p r s).bufBytes = s.bufBytes := rfl
@[simp] theorem applyGeometry_bufData (p : Fin 3) (r : BitVec 2) : (applyGeometry p r s).bufData = s.bufData := rfl
@[simp] theorem applyGeometry_bufTag (p : Fin 3) (r : BitVec 2) : (applyGeometry p r s).bufTag = s.bufTag := rfl
@[simp] theorem applyGeometry_glyphBuf (p : Fin 3) (r : BitVec 2) : (applyGeometry p r s).glyphBuf = s.glyphBuf := rfl
@[simp] theorem applyGeometry_sel (p : Fin 3) (r : BitVec 2) : (applyGeometry p r s).sel = s.sel := rfl
@[simp] theorem applyGeometry_dc (p : Fin 3) (r : BitVec 2) : (applyGeometry p r s).dc = s.dc := rfl
@[simp] theorem applyGeometry_xferBusy (p : Fin 3) (r : BitVec 2) : (applyGeometry p r s).xferBusy = s.xferBusy := rfl
@[simp] theorem applyGeometry_cmds (p : Fin 3) (r : BitVec 2) : (applyGeometry p r s).cmds = s.cmds := rfl
@[simp] theorem applyGeometry_fb (p : Fin 3) (r : BitVec 2) : (applyGeometry p r s).fb = s.fb := rfl
@[simp] theorem applyGeometry_wire (p : Fin 3) (r : BitVec 2) : (applyGeometry p r s).wire = s.wire := rfl
@[simp] theorem applyGeometry_alloc (p : Fin 3) (r : BitVec 2) : (applyGeometry p r s).alloc = s.alloc := rfl
@[simp] theorem applyGeometry_paintLog (p : Fin 3) (r : BitVec 2) : (applyGeometry p r s).paintLog = s.paintLog := rfl
@[simp] theorem applyGeometry_running (p : Fin 3) (r : BitVec 2) : (applyGeometry p r s).running = s.running := rfl
@[simp] theorem applyGeometry_par (p : Fin 3) (r : BitVec 2) : (applyGeometry p r s).par = s.par := rfl
@[simp] theorem applyGeometry_allocScript (p : Fin 3) (r : BitVec 2) : (applyGeometry p r s).allocScript = s.allocScript := rfl
@[simp] theorem applyGeometry_transportScript (p : Fin 3) (r : BitVec 2) : (applyGeometry p r s).transportScript = s.transportScript := rfl
@[simp] theorem applyGeometry_draws (p : Fin 3) (r : BitVec 2) : (applyGeometry p r s).draws = s.draws := rfl

/-! ### transportStep: the transport's step (42_transfer_window.md R135) -/

@[simp] theorem transportStep_cp : (transportStep s).cp = s.cp := rfl
@[simp] theorem transportStep_latch : (transportStep s).latch = s.latch := rfl
@[simp] theorem transportStep_engine : (transportStep s).engine = s.engine := rfl
@[simp] theorem transportStep_errCode : (transportStep s).errCode = s.errCode := rfl
@[simp] theorem transportStep_faultCp : (transportStep s).faultCp = s.faultCp := rfl
@[simp] theorem transportStep_faultArg : (transportStep s).faultArg = s.faultArg := rfl
@[simp] theorem transportStep_res0 : (transportStep s).res0 = s.res0 := rfl
@[simp] theorem transportStep_res1 : (transportStep s).res1 = s.res1 := rfl
@[simp] theorem transportStep_res2 : (transportStep s).res2 = s.res2 := rfl
@[simp] theorem transportStep_res3 : (transportStep s).res3 = s.res3 := rfl
@[simp] theorem transportStep_cfgWidth : (transportStep s).cfgWidth = s.cfgWidth := rfl
@[simp] theorem transportStep_cfgHeight : (transportStep s).cfgHeight = s.cfgHeight := rfl
@[simp] theorem transportStep_cfgXshift : (transportStep s).cfgXshift = s.cfgXshift := rfl
@[simp] theorem transportStep_cfgYshift : (transportStep s).cfgYshift = s.cfgYshift := rfl
@[simp] theorem transportStep_cfgRot : (transportStep s).cfgRot = s.cfgRot := rfl
@[simp] theorem transportStep_cfgPanel : (transportStep s).cfgPanel = s.cfgPanel := rfl
@[simp] theorem transportStep_bufPresent : (transportStep s).bufPresent = s.bufPresent := rfl
@[simp] theorem transportStep_bufBytes : (transportStep s).bufBytes = s.bufBytes := rfl
@[simp] theorem transportStep_bufData : (transportStep s).bufData = s.bufData := rfl
@[simp] theorem transportStep_bufTag : (transportStep s).bufTag = s.bufTag := rfl
@[simp] theorem transportStep_glyphBuf : (transportStep s).glyphBuf = s.glyphBuf := rfl
@[simp] theorem transportStep_sel : (transportStep s).sel = s.sel := rfl
@[simp] theorem transportStep_dc : (transportStep s).dc = s.dc := rfl
@[simp] theorem transportStep_xferBusy : (transportStep s).xferBusy = !transportAnswer s := rfl
@[simp] theorem transportStep_cmds : (transportStep s).cmds = s.cmds := rfl
@[simp] theorem transportStep_fb : (transportStep s).fb = s.fb := rfl
@[simp] theorem transportStep_wire : (transportStep s).wire = s.wire := rfl
@[simp] theorem transportStep_alloc : (transportStep s).alloc = s.alloc := rfl
@[simp] theorem transportStep_paintLog : (transportStep s).paintLog = s.paintLog := rfl
@[simp] theorem transportStep_running : (transportStep s).running = s.running := rfl
@[simp] theorem transportStep_par : (transportStep s).par = s.par := rfl
@[simp] theorem transportStep_allocScript : (transportStep s).allocScript = s.allocScript := rfl
@[simp] theorem transportStep_transportScript : (transportStep s).transportScript = s.transportScript.tail := rfl
@[simp] theorem transportStep_draws : (transportStep s).draws = s.draws + 1 := rfl

/-! ### loadLatch: the latch's load (10_state.md R21) -/

@[simp] theorem loadLatch_cp (i : Instr) : (loadLatch i s).cp = s.cp := rfl
@[simp] theorem loadLatch_latch (i : Instr) : (loadLatch i s).latch = (wordsAt s).take (cmdLen i) := rfl
@[simp] theorem loadLatch_engine (i : Instr) : (loadLatch i s).engine = s.engine := rfl
@[simp] theorem loadLatch_errCode (i : Instr) : (loadLatch i s).errCode = s.errCode := rfl
@[simp] theorem loadLatch_faultCp (i : Instr) : (loadLatch i s).faultCp = s.faultCp := rfl
@[simp] theorem loadLatch_faultArg (i : Instr) : (loadLatch i s).faultArg = s.faultArg := rfl
@[simp] theorem loadLatch_res0 (i : Instr) : (loadLatch i s).res0 = s.res0 := rfl
@[simp] theorem loadLatch_res1 (i : Instr) : (loadLatch i s).res1 = s.res1 := rfl
@[simp] theorem loadLatch_res2 (i : Instr) : (loadLatch i s).res2 = s.res2 := rfl
@[simp] theorem loadLatch_res3 (i : Instr) : (loadLatch i s).res3 = s.res3 := rfl
@[simp] theorem loadLatch_cfgWidth (i : Instr) : (loadLatch i s).cfgWidth = s.cfgWidth := rfl
@[simp] theorem loadLatch_cfgHeight (i : Instr) : (loadLatch i s).cfgHeight = s.cfgHeight := rfl
@[simp] theorem loadLatch_cfgXshift (i : Instr) : (loadLatch i s).cfgXshift = s.cfgXshift := rfl
@[simp] theorem loadLatch_cfgYshift (i : Instr) : (loadLatch i s).cfgYshift = s.cfgYshift := rfl
@[simp] theorem loadLatch_cfgRot (i : Instr) : (loadLatch i s).cfgRot = s.cfgRot := rfl
@[simp] theorem loadLatch_cfgPanel (i : Instr) : (loadLatch i s).cfgPanel = s.cfgPanel := rfl
@[simp] theorem loadLatch_bufPresent (i : Instr) : (loadLatch i s).bufPresent = s.bufPresent := rfl
@[simp] theorem loadLatch_bufBytes (i : Instr) : (loadLatch i s).bufBytes = s.bufBytes := rfl
@[simp] theorem loadLatch_bufData (i : Instr) : (loadLatch i s).bufData = s.bufData := rfl
@[simp] theorem loadLatch_bufTag (i : Instr) : (loadLatch i s).bufTag = s.bufTag := rfl
@[simp] theorem loadLatch_glyphBuf (i : Instr) : (loadLatch i s).glyphBuf = s.glyphBuf := rfl
@[simp] theorem loadLatch_sel (i : Instr) : (loadLatch i s).sel = s.sel := rfl
@[simp] theorem loadLatch_dc (i : Instr) : (loadLatch i s).dc = s.dc := rfl
@[simp] theorem loadLatch_xferBusy (i : Instr) : (loadLatch i s).xferBusy = s.xferBusy := rfl
@[simp] theorem loadLatch_cmds (i : Instr) : (loadLatch i s).cmds = s.cmds := rfl
@[simp] theorem loadLatch_fb (i : Instr) : (loadLatch i s).fb = s.fb := rfl
@[simp] theorem loadLatch_wire (i : Instr) : (loadLatch i s).wire = s.wire := rfl
@[simp] theorem loadLatch_alloc (i : Instr) : (loadLatch i s).alloc = s.alloc := rfl
@[simp] theorem loadLatch_paintLog (i : Instr) : (loadLatch i s).paintLog = s.paintLog := rfl
@[simp] theorem loadLatch_running (i : Instr) : (loadLatch i s).running = s.running := rfl
@[simp] theorem loadLatch_par (i : Instr) : (loadLatch i s).par = s.par := rfl
@[simp] theorem loadLatch_allocScript (i : Instr) : (loadLatch i s).allocScript = s.allocScript := rfl
@[simp] theorem loadLatch_transportScript (i : Instr) : (loadLatch i s).transportScript = s.transportScript := rfl
@[simp] theorem loadLatch_draws (i : Instr) : (loadLatch i s).draws = s.draws := rfl

/-! ### withFetchWord: an opcode-table instruction's placing -/

@[simp] theorem withFetchWord_cp (nbits w : Nat) : (s.withFetchWord nbits w).cp = s.cp := rfl
@[simp] theorem withFetchWord_latch (nbits w : Nat) : (s.withFetchWord nbits w).latch = s.latch := rfl
@[simp] theorem withFetchWord_engine (nbits w : Nat) : (s.withFetchWord nbits w).engine = s.engine := rfl
@[simp] theorem withFetchWord_errCode (nbits w : Nat) : (s.withFetchWord nbits w).errCode = s.errCode := rfl
@[simp] theorem withFetchWord_faultCp (nbits w : Nat) : (s.withFetchWord nbits w).faultCp = s.faultCp := rfl
@[simp] theorem withFetchWord_faultArg (nbits w : Nat) : (s.withFetchWord nbits w).faultArg = s.faultArg := rfl
@[simp] theorem withFetchWord_res0 (nbits w : Nat) : (s.withFetchWord nbits w).res0 = s.res0 := rfl
@[simp] theorem withFetchWord_res1 (nbits w : Nat) : (s.withFetchWord nbits w).res1 = s.res1 := rfl
@[simp] theorem withFetchWord_res2 (nbits w : Nat) : (s.withFetchWord nbits w).res2 = s.res2 := rfl
@[simp] theorem withFetchWord_res3 (nbits w : Nat) : (s.withFetchWord nbits w).res3 = s.res3 := rfl
@[simp] theorem withFetchWord_cfgWidth (nbits w : Nat) : (s.withFetchWord nbits w).cfgWidth = s.cfgWidth := rfl
@[simp] theorem withFetchWord_cfgHeight (nbits w : Nat) : (s.withFetchWord nbits w).cfgHeight = s.cfgHeight := rfl
@[simp] theorem withFetchWord_cfgXshift (nbits w : Nat) : (s.withFetchWord nbits w).cfgXshift = s.cfgXshift := rfl
@[simp] theorem withFetchWord_cfgYshift (nbits w : Nat) : (s.withFetchWord nbits w).cfgYshift = s.cfgYshift := rfl
@[simp] theorem withFetchWord_cfgRot (nbits w : Nat) : (s.withFetchWord nbits w).cfgRot = s.cfgRot := rfl
@[simp] theorem withFetchWord_cfgPanel (nbits w : Nat) : (s.withFetchWord nbits w).cfgPanel = s.cfgPanel := rfl
@[simp] theorem withFetchWord_bufPresent (nbits w : Nat) : (s.withFetchWord nbits w).bufPresent = s.bufPresent := rfl
@[simp] theorem withFetchWord_bufBytes (nbits w : Nat) : (s.withFetchWord nbits w).bufBytes = s.bufBytes := rfl
@[simp] theorem withFetchWord_bufData (nbits w : Nat) : (s.withFetchWord nbits w).bufData = s.bufData := rfl
@[simp] theorem withFetchWord_bufTag (nbits w : Nat) : (s.withFetchWord nbits w).bufTag = s.bufTag := rfl
@[simp] theorem withFetchWord_glyphBuf (nbits w : Nat) : (s.withFetchWord nbits w).glyphBuf = s.glyphBuf := rfl
@[simp] theorem withFetchWord_sel (nbits w : Nat) : (s.withFetchWord nbits w).sel = s.sel := rfl
@[simp] theorem withFetchWord_dc (nbits w : Nat) : (s.withFetchWord nbits w).dc = s.dc := rfl
@[simp] theorem withFetchWord_xferBusy (nbits w : Nat) : (s.withFetchWord nbits w).xferBusy = s.xferBusy := rfl
@[simp] theorem withFetchWord_cmds (nbits w : Nat) : (s.withFetchWord nbits w).cmds = placeWords s.cmds s.cp.toNat (tableWords nbits w) := rfl
@[simp] theorem withFetchWord_fb (nbits w : Nat) : (s.withFetchWord nbits w).fb = s.fb := rfl
@[simp] theorem withFetchWord_wire (nbits w : Nat) : (s.withFetchWord nbits w).wire = s.wire := rfl
@[simp] theorem withFetchWord_alloc (nbits w : Nat) : (s.withFetchWord nbits w).alloc = s.alloc := rfl
@[simp] theorem withFetchWord_paintLog (nbits w : Nat) : (s.withFetchWord nbits w).paintLog = s.paintLog := rfl
@[simp] theorem withFetchWord_running (nbits w : Nat) : (s.withFetchWord nbits w).running = s.running := rfl
@[simp] theorem withFetchWord_par (nbits w : Nat) : (s.withFetchWord nbits w).par = s.par := rfl
@[simp] theorem withFetchWord_allocScript (nbits w : Nat) : (s.withFetchWord nbits w).allocScript = s.allocScript := rfl
@[simp] theorem withFetchWord_transportScript (nbits w : Nat) : (s.withFetchWord nbits w).transportScript = s.transportScript := rfl
@[simp] theorem withFetchWord_draws (nbits w : Nat) : (s.withFetchWord nbits w).draws = s.draws := rfl

/-! ### prepare and settle: the buffers of a list of transactions -/

@[simp] theorem prepare_cp (d : Draw) : (prepare d s).cp = s.cp := by cases d <;> rfl
@[simp] theorem prepare_latch (d : Draw) : (prepare d s).latch = s.latch := by cases d <;> rfl
@[simp] theorem prepare_engine (d : Draw) : (prepare d s).engine = s.engine := by cases d <;> rfl
@[simp] theorem prepare_errCode (d : Draw) : (prepare d s).errCode = s.errCode := by cases d <;> rfl
@[simp] theorem prepare_faultCp (d : Draw) : (prepare d s).faultCp = s.faultCp := by cases d <;> rfl
@[simp] theorem prepare_faultArg (d : Draw) : (prepare d s).faultArg = s.faultArg := by cases d <;> rfl
@[simp] theorem prepare_res0 (d : Draw) : (prepare d s).res0 = s.res0 := by cases d <;> rfl
@[simp] theorem prepare_res1 (d : Draw) : (prepare d s).res1 = s.res1 := by cases d <;> rfl
@[simp] theorem prepare_res2 (d : Draw) : (prepare d s).res2 = s.res2 := by cases d <;> rfl
@[simp] theorem prepare_res3 (d : Draw) : (prepare d s).res3 = s.res3 := by cases d <;> rfl
@[simp] theorem prepare_cfgWidth (d : Draw) : (prepare d s).cfgWidth = s.cfgWidth := by cases d <;> rfl
@[simp] theorem prepare_cfgHeight (d : Draw) : (prepare d s).cfgHeight = s.cfgHeight := by cases d <;> rfl
@[simp] theorem prepare_cfgXshift (d : Draw) : (prepare d s).cfgXshift = s.cfgXshift := by cases d <;> rfl
@[simp] theorem prepare_cfgYshift (d : Draw) : (prepare d s).cfgYshift = s.cfgYshift := by cases d <;> rfl
@[simp] theorem prepare_cfgRot (d : Draw) : (prepare d s).cfgRot = s.cfgRot := by cases d <;> rfl
@[simp] theorem prepare_cfgPanel (d : Draw) : (prepare d s).cfgPanel = s.cfgPanel := by cases d <;> rfl
@[simp] theorem prepare_bufPresent (d : Draw) : (prepare d s).bufPresent = s.bufPresent := by cases d <;> rfl
@[simp] theorem prepare_bufBytes (d : Draw) : (prepare d s).bufBytes = s.bufBytes := by cases d <;> rfl
@[simp] theorem prepare_sel (d : Draw) : (prepare d s).sel = s.sel := by cases d <;> rfl
@[simp] theorem prepare_dc (d : Draw) : (prepare d s).dc = s.dc := by cases d <;> rfl
@[simp] theorem prepare_xferBusy (d : Draw) : (prepare d s).xferBusy = s.xferBusy := by cases d <;> rfl
@[simp] theorem prepare_cmds (d : Draw) : (prepare d s).cmds = s.cmds := by cases d <;> rfl
@[simp] theorem prepare_fb (d : Draw) : (prepare d s).fb = s.fb := by cases d <;> rfl
@[simp] theorem prepare_wire (d : Draw) : (prepare d s).wire = s.wire := by cases d <;> rfl
@[simp] theorem prepare_alloc (d : Draw) : (prepare d s).alloc = s.alloc := by cases d <;> rfl
@[simp] theorem prepare_paintLog (d : Draw) : (prepare d s).paintLog = s.paintLog := by cases d <;> rfl
@[simp] theorem prepare_running (d : Draw) : (prepare d s).running = s.running := by cases d <;> rfl
@[simp] theorem prepare_par (d : Draw) : (prepare d s).par = s.par := by cases d <;> rfl
@[simp] theorem prepare_allocScript (d : Draw) : (prepare d s).allocScript = s.allocScript := by cases d <;> rfl
@[simp] theorem prepare_transportScript (d : Draw) : (prepare d s).transportScript = s.transportScript := by cases d <;> rfl
@[simp] theorem prepare_draws (d : Draw) : (prepare d s).draws = s.draws := by cases d <;> rfl

/-- The buffers after no transaction. -/
@[simp] theorem settle_nil : settle [] s = s := rfl

/-- The buffers after a first transaction and others. -/
@[simp] theorem settle_cons (d : Draw) (ds : List Draw) : settle (d :: ds) s = settle ds (prepare d s) := rfl

/-- Transactions write BUF_DATA, BUF_TAG and GLYPH_BUF only. -/
theorem settle_frame (ds : List Draw) :
    settle ds s =
      { s with
        bufData := (settle ds s).bufData, bufTag := (settle ds s).bufTag, glyphBuf := (settle ds s).glyphBuf } := by
  induction ds generalizing s with
  | nil => rfl
  | cons d ds ih =>
    rw [settle_cons, ih (prepare d s)]
    cases d <;> rfl

@[simp] theorem settle_cp (ds : List Draw) : (settle ds s).cp = s.cp := by rw [settle_frame]
@[simp] theorem settle_latch (ds : List Draw) : (settle ds s).latch = s.latch := by rw [settle_frame]
@[simp] theorem settle_engine (ds : List Draw) : (settle ds s).engine = s.engine := by rw [settle_frame]
@[simp] theorem settle_errCode (ds : List Draw) : (settle ds s).errCode = s.errCode := by rw [settle_frame]
@[simp] theorem settle_faultCp (ds : List Draw) : (settle ds s).faultCp = s.faultCp := by rw [settle_frame]
@[simp] theorem settle_faultArg (ds : List Draw) : (settle ds s).faultArg = s.faultArg := by rw [settle_frame]
@[simp] theorem settle_res0 (ds : List Draw) : (settle ds s).res0 = s.res0 := by rw [settle_frame]
@[simp] theorem settle_res1 (ds : List Draw) : (settle ds s).res1 = s.res1 := by rw [settle_frame]
@[simp] theorem settle_res2 (ds : List Draw) : (settle ds s).res2 = s.res2 := by rw [settle_frame]
@[simp] theorem settle_res3 (ds : List Draw) : (settle ds s).res3 = s.res3 := by rw [settle_frame]
@[simp] theorem settle_cfgWidth (ds : List Draw) : (settle ds s).cfgWidth = s.cfgWidth := by rw [settle_frame]
@[simp] theorem settle_cfgHeight (ds : List Draw) : (settle ds s).cfgHeight = s.cfgHeight := by rw [settle_frame]
@[simp] theorem settle_cfgXshift (ds : List Draw) : (settle ds s).cfgXshift = s.cfgXshift := by rw [settle_frame]
@[simp] theorem settle_cfgYshift (ds : List Draw) : (settle ds s).cfgYshift = s.cfgYshift := by rw [settle_frame]
@[simp] theorem settle_cfgRot (ds : List Draw) : (settle ds s).cfgRot = s.cfgRot := by rw [settle_frame]
@[simp] theorem settle_cfgPanel (ds : List Draw) : (settle ds s).cfgPanel = s.cfgPanel := by rw [settle_frame]
@[simp] theorem settle_bufPresent (ds : List Draw) : (settle ds s).bufPresent = s.bufPresent := by rw [settle_frame]
@[simp] theorem settle_bufBytes (ds : List Draw) : (settle ds s).bufBytes = s.bufBytes := by rw [settle_frame]
@[simp] theorem settle_sel (ds : List Draw) : (settle ds s).sel = s.sel := by rw [settle_frame]
@[simp] theorem settle_dc (ds : List Draw) : (settle ds s).dc = s.dc := by rw [settle_frame]
@[simp] theorem settle_xferBusy (ds : List Draw) : (settle ds s).xferBusy = s.xferBusy := by rw [settle_frame]
@[simp] theorem settle_cmds (ds : List Draw) : (settle ds s).cmds = s.cmds := by rw [settle_frame]
@[simp] theorem settle_fb (ds : List Draw) : (settle ds s).fb = s.fb := by rw [settle_frame]
@[simp] theorem settle_wire (ds : List Draw) : (settle ds s).wire = s.wire := by rw [settle_frame]
@[simp] theorem settle_alloc (ds : List Draw) : (settle ds s).alloc = s.alloc := by rw [settle_frame]
@[simp] theorem settle_paintLog (ds : List Draw) : (settle ds s).paintLog = s.paintLog := by rw [settle_frame]
@[simp] theorem settle_running (ds : List Draw) : (settle ds s).running = s.running := by rw [settle_frame]
@[simp] theorem settle_par (ds : List Draw) : (settle ds s).par = s.par := by rw [settle_frame]
@[simp] theorem settle_allocScript (ds : List Draw) : (settle ds s).allocScript = s.allocScript := by rw [settle_frame]
@[simp] theorem settle_transportScript (ds : List Draw) : (settle ds s).transportScript = s.transportScript := by rw [settle_frame]
@[simp] theorem settle_draws (ds : List Draw) : (settle ds s).draws = s.draws := by rw [settle_frame]

/-! ### eventsOf, bufferWrites and runActions: a command's actions (42_transfer_window.md R135, R142, 44_text.md R206) -/

@[simp] theorem eventsOf_nil : eventsOf [] = [] := rfl
@[simp] theorem eventsOf_emit (e : WireEvent) (q : List Action) : eventsOf (.emit e :: q) = e :: eventsOf q := rfl
@[simp] theorem eventsOf_refresh (c : Color) (q : List Action) : eventsOf (.refresh c :: q) = eventsOf q := rfl
@[simp] theorem eventsOf_loadGlyph (ks : List Color) (q : List Action) :
    eventsOf (.loadGlyph ks :: q) = eventsOf q := rfl
@[simp] theorem bufferWrites_nil : bufferWrites [] s = s := rfl
@[simp] theorem bufferWrites_emit (e : WireEvent) (q : List Action) :
    bufferWrites (.emit e :: q) s = bufferWrites q s := rfl
@[simp] theorem bufferWrites_refresh (c : Color) (q : List Action) :
    bufferWrites (.refresh c :: q) s = bufferWrites q (refresh c s) := rfl
@[simp] theorem bufferWrites_loadGlyph (ks : List Color) (q : List Action) :
    bufferWrites (.loadGlyph ks :: q) s = bufferWrites q (loadGlyph ks s) := rfl

@[simp] theorem eventsOf_append (p q : List Action) : eventsOf (p ++ q) = eventsOf p ++ eventsOf q := by
  induction p with
  | nil => rfl
  | cons a p ih => cases a <;> simp [ih]

@[simp] theorem bufferWrites_append (p q : List Action) :
    bufferWrites (p ++ q) s = bufferWrites q (bufferWrites p s) := by
  induction p generalizing s with
  | nil => rfl
  | cons a p ih => cases a <;> simp [ih]

/-- Events alone: all of them are emitted. -/
@[simp] theorem eventsOf_map_emit (es : List WireEvent) : eventsOf (es.map .emit) = es := by
  induction es with
  | nil => rfl
  | cons e es ih => simp [ih]

/-- Events alone: no buffer is written. -/
@[simp] theorem bufferWrites_map_emit (es : List WireEvent) : bufferWrites (es.map .emit) s = s := by
  induction es with
  | nil => rfl
  | cons e es ih => simpa using ih

/-- A command's actions write BUF_DATA, BUF_TAG and GLYPH_BUF only, besides what their events do. -/
theorem bufferWrites_frame (q : List Action) :
    bufferWrites q s =
      { s with
        bufData := (bufferWrites q s).bufData, bufTag := (bufferWrites q s).bufTag
        glyphBuf := (bufferWrites q s).glyphBuf } := by
  induction q generalizing s with
  | nil => rfl
  | cons a q ih =>
    cases a with
    | emit e => exact ih s
    | refresh c => rw [bufferWrites_refresh, ih (refresh c s)]; rfl
    | loadGlyph ks => rw [bufferWrites_loadGlyph, ih (loadGlyph ks s)]; rfl

/-- Events and buffer writes touch different state. -/
theorem bufferWrites_emitAll (q : List Action) (es : List WireEvent) :
    bufferWrites q (emitAll es s) = emitAll es (bufferWrites q s) := by
  induction q generalizing s with
  | nil => rfl
  | cons a q ih =>
    cases a with
    | emit e => exact ih s
    | refresh c => exact ih (refresh c s)
    | loadGlyph ks => exact ih (loadGlyph ks s)

@[simp] theorem bufferWrites_cp (q : List Action) : (bufferWrites q s).cp = s.cp := by rw [bufferWrites_frame]
@[simp] theorem bufferWrites_latch (q : List Action) : (bufferWrites q s).latch = s.latch := by rw [bufferWrites_frame]
@[simp] theorem bufferWrites_engine (q : List Action) : (bufferWrites q s).engine = s.engine := by rw [bufferWrites_frame]
@[simp] theorem bufferWrites_errCode (q : List Action) : (bufferWrites q s).errCode = s.errCode := by rw [bufferWrites_frame]
@[simp] theorem bufferWrites_faultCp (q : List Action) : (bufferWrites q s).faultCp = s.faultCp := by rw [bufferWrites_frame]
@[simp] theorem bufferWrites_faultArg (q : List Action) : (bufferWrites q s).faultArg = s.faultArg := by rw [bufferWrites_frame]
@[simp] theorem bufferWrites_res0 (q : List Action) : (bufferWrites q s).res0 = s.res0 := by rw [bufferWrites_frame]
@[simp] theorem bufferWrites_res1 (q : List Action) : (bufferWrites q s).res1 = s.res1 := by rw [bufferWrites_frame]
@[simp] theorem bufferWrites_res2 (q : List Action) : (bufferWrites q s).res2 = s.res2 := by rw [bufferWrites_frame]
@[simp] theorem bufferWrites_res3 (q : List Action) : (bufferWrites q s).res3 = s.res3 := by rw [bufferWrites_frame]
@[simp] theorem bufferWrites_cfgWidth (q : List Action) : (bufferWrites q s).cfgWidth = s.cfgWidth := by rw [bufferWrites_frame]
@[simp] theorem bufferWrites_cfgHeight (q : List Action) : (bufferWrites q s).cfgHeight = s.cfgHeight := by rw [bufferWrites_frame]
@[simp] theorem bufferWrites_cfgXshift (q : List Action) : (bufferWrites q s).cfgXshift = s.cfgXshift := by rw [bufferWrites_frame]
@[simp] theorem bufferWrites_cfgYshift (q : List Action) : (bufferWrites q s).cfgYshift = s.cfgYshift := by rw [bufferWrites_frame]
@[simp] theorem bufferWrites_cfgRot (q : List Action) : (bufferWrites q s).cfgRot = s.cfgRot := by rw [bufferWrites_frame]
@[simp] theorem bufferWrites_cfgPanel (q : List Action) : (bufferWrites q s).cfgPanel = s.cfgPanel := by rw [bufferWrites_frame]
@[simp] theorem bufferWrites_bufPresent (q : List Action) : (bufferWrites q s).bufPresent = s.bufPresent := by rw [bufferWrites_frame]
@[simp] theorem bufferWrites_bufBytes (q : List Action) : (bufferWrites q s).bufBytes = s.bufBytes := by rw [bufferWrites_frame]
@[simp] theorem bufferWrites_sel (q : List Action) : (bufferWrites q s).sel = s.sel := by rw [bufferWrites_frame]
@[simp] theorem bufferWrites_dc (q : List Action) : (bufferWrites q s).dc = s.dc := by rw [bufferWrites_frame]
@[simp] theorem bufferWrites_xferBusy (q : List Action) : (bufferWrites q s).xferBusy = s.xferBusy := by rw [bufferWrites_frame]
@[simp] theorem bufferWrites_cmds (q : List Action) : (bufferWrites q s).cmds = s.cmds := by rw [bufferWrites_frame]
@[simp] theorem bufferWrites_fb (q : List Action) : (bufferWrites q s).fb = s.fb := by rw [bufferWrites_frame]
@[simp] theorem bufferWrites_wire (q : List Action) : (bufferWrites q s).wire = s.wire := by rw [bufferWrites_frame]
@[simp] theorem bufferWrites_alloc (q : List Action) : (bufferWrites q s).alloc = s.alloc := by rw [bufferWrites_frame]
@[simp] theorem bufferWrites_paintLog (q : List Action) : (bufferWrites q s).paintLog = s.paintLog := by rw [bufferWrites_frame]
@[simp] theorem bufferWrites_running (q : List Action) : (bufferWrites q s).running = s.running := by rw [bufferWrites_frame]
@[simp] theorem bufferWrites_par (q : List Action) : (bufferWrites q s).par = s.par := by rw [bufferWrites_frame]
@[simp] theorem bufferWrites_allocScript (q : List Action) : (bufferWrites q s).allocScript = s.allocScript := by rw [bufferWrites_frame]
@[simp] theorem bufferWrites_transportScript (q : List Action) : (bufferWrites q s).transportScript = s.transportScript := by rw [bufferWrites_frame]
@[simp] theorem bufferWrites_draws (q : List Action) : (bufferWrites q s).draws = s.draws := by rw [bufferWrites_frame]

end Sys2Proof.Machine
end

