-- ==== Sys2Proof/Laws/Wire.lean ====
section
/-! SUPPORT. The laws of the wire: a Write's pieces (42_transfer_window.md R133), the frame of a transaction
(R134, R136, R137), its pixel writes (R146), and SEL and DC after it. -/

namespace Sys2Proof.Machine

/-! ## Pieces and Writes (42_transfer_window.md R133) -/

/-- The pieces of a Write put together are its bytes, in order. -/
theorem pieces_flatten {k : Nat} (hk : 1 ≤ k) (fuel : Nat) (bs : List Byte) (h : bs.length ≤ fuel) :
    (pieces k fuel bs).flatten = bs := by
  induction fuel generalizing bs with
  | zero => simp [List.length_eq_zero_iff.mp (Nat.le_zero.mp h), pieces]
  | succ n ih =>
    rw [pieces]
    split
    · simp_all
    · rw [List.flatten_cons, ih _ (by rw [List.length_drop]; omega), List.take_append_drop]

/-- Every piece has at least one byte and at most k. -/
theorem pieces_mem {k : Nat} (hk : 1 ≤ k) {fuel : Nat} {bs q : List Byte} (h : q ∈ pieces k fuel bs) :
    1 ≤ q.length ∧ q.length ≤ k := by
  induction fuel generalizing bs with
  | zero => simp [pieces] at h
  | succ n ih =>
    rw [pieces] at h
    split at h
    · simp at h
    · rename_i hne
      have := List.length_pos_iff.mpr hne
      rcases List.mem_cons.mp h with rfl | h
      · rw [List.length_take]; omega
      · exact ih h

/-- A list of transfers only. -/
def onlyXfers (es : List WireEvent) : Prop := ∀ e ∈ es, ∃ m bs, e = .xfer m bs

theorem xferBytes_append (es fs : List WireEvent) : xferBytes (es ++ fs) = xferBytes es ++ xferBytes fs := by
  induction es with
  | nil => rfl
  | cons e es ih => cases e <;> simp [xferBytes, ih]

theorem xferBytes_map (m : XferMode) (ps : List (List Byte)) : xferBytes (ps.map (.xfer m)) = ps.flatten := by
  induction ps with
  | nil => rfl
  | cons q ps ih => simp [xferBytes, ih]

/-- A Write's transfers carry its bytes, in order (R133). -/
@[simp] theorem xferBytes_write (p : Params) (bs : List Byte) : xferBytes (write p.raw bs) = bs := by
  rw [write, xferBytes_map, pieces_flatten (params_maxXfer p) _ _ (Nat.le_refl _)]

theorem onlyXfers_write (p : RawParams) (bs : List Byte) : onlyXfers (write p bs) := by
  intro e he
  obtain ⟨q, -, rfl⟩ := List.mem_map.mp he
  exact ⟨_, _, rfl⟩

theorem onlyXfers_append {es fs : List WireEvent} (he : onlyXfers es) (hf : onlyXfers fs) : onlyXfers (es ++ fs) :=
  fun e h => (List.mem_append.mp h).elim (he e) (hf e)

theorem onlyXfers_flatten {ls : List (List WireEvent)} (h : ∀ l ∈ ls, onlyXfers l) : onlyXfers ls.flatten := by
  intro e he
  obtain ⟨l, hl, hel⟩ := List.mem_flatten.mp he
  exact h l hl e hel

/-- With no asynchronous mode, every piece is synchronous (R135). -/
theorem write_sync {p : RawParams} (h : p.asyncEnable = false) (bs : List Byte) :
    ∀ e ∈ write p bs, isAsync e = false := by
  intro e he
  obtain ⟨q, -, rfl⟩ := List.mem_map.mp he
  simp [writeMode, h, isAsync]

/-! ## SEL and DC (42_transfer_window.md R130) -/

theorem selAfter_append (b : Bool) (es fs : List WireEvent) :
    selAfter b (es ++ fs) = selAfter (selAfter b es) fs := by
  induction es generalizing b with
  | nil => rfl
  | cons e es ih => cases e <;> simp [selAfter, ih]

theorem dcAfter_append (l : Line) (es fs : List WireEvent) : dcAfter l (es ++ fs) = dcAfter (dcAfter l es) fs := by
  induction es generalizing l with
  | nil => rfl
  | cons e es ih => cases e <;> simp [dcAfter, ih]

theorem selAfter_xfers {es : List WireEvent} (h : onlyXfers es) (b : Bool) : selAfter b es = b := by
  induction es with
  | nil => rfl
  | cons e es ih =>
    obtain ⟨m, bs, rfl⟩ := h e List.mem_cons_self
    exact ih (fun e he => h e (List.mem_cons_of_mem _ he))

theorem dcAfter_xfers {es : List WireEvent} (h : onlyXfers es) (l : Line) : dcAfter l es = l := by
  induction es with
  | nil => rfl
  | cons e es ih =>
    obtain ⟨m, bs, rfl⟩ := h e List.mem_cons_self
    exact ih (fun e he => h e (List.mem_cons_of_mem _ he))

/-- Every list that ends with DESEL leaves SEL = 0. -/
theorem selAfter_desel (b : Bool) (es : List WireEvent) : selAfter b (es ++ [.desel]) = false := by
  rw [selAfter_append]; rfl

/-- A transaction leaves SEL = 0 (R137). -/
@[simp] theorem selAfter_txn (b : Bool) (s : State) (w : Window) (body : List WireEvent) :
    selAfter b (txn s w body) = false := by
  rw [txn, selAfter_append]; rfl

/-- A transaction leaves DC in data mode (R137). -/
theorem dcAfter_txn (l : Line) (s : State) (w : Window) {body : List WireEvent} (h : onlyXfers body) :
    dcAfter l (txn s w body) = .data := by
  rw [txn, dcAfter_append, List.cons_append, dcAfter, dcAfter_append, dcAfter, dcAfter_xfers h]; rfl

/-- A command's bracket leaves SEL = 0 (R132). -/
@[simp] theorem selAfter_writeCmd (b : Bool) (p : RawParams) (c : Byte) (args : List Byte) :
    selAfter b (writeCmd p c args) = false := by
  rw [writeCmd, selAfter_append]; rfl

/-! ## The frame view (42_transfer_window.md R134) -/

/-- The transfers of a body join the open frame, whatever their pieces and mode. -/
theorem framesFrom_body {body : List WireEvent} (h : onlyXfers body) (dc : Line) (f : Frame) (es : List WireEvent) :
    framesFrom dc (some f) (body ++ es) = framesFrom dc (some (f ++ (xferBytes body).map (fun b => (dc, b)))) es := by
  induction body generalizing f with
  | nil => simp [xferBytes]
  | cons e body ih =>
    obtain ⟨m, bs, rfl⟩ := h e List.mem_cons_self
    simp only [List.cons_append, framesFrom, xferBytes]
    rw [ih (fun e he => h e (List.mem_cons_of_mem _ he))]
    simp [List.append_assoc]

/-- A Write's bytes join the open frame (R133, R134). -/
theorem framesFrom_write (p : Params) (bs : List Byte) (dc : Line) (f : Frame) (es : List WireEvent) :
    framesFrom dc (some f) (write p.raw bs ++ es) = framesFrom dc (some (f ++ bs.map (fun b => (dc, b)))) es := by
  rw [framesFrom_body (onlyXfers_write _ _), xferBytes_write]

/-- The frame of a single controller command (R132). -/
theorem framesFrom_writeCmd (p : Params) (c : Byte) (args : List Byte) (dc : Line) (o : Option Frame)
    (es : List WireEvent) :
    ∃ l, framesFrom dc o (writeCmd p.raw c args ++ es)
      = ((.cmd, c) :: args.map (fun b => (.data, b))) :: framesFrom l none es := by
  by_cases ha : args = []
  · subst ha
    refine ⟨.cmd, ?_⟩
    simp only [writeCmd, if_true, List.append_assoc, List.cons_append, List.nil_append, framesFrom]
    rw [framesFrom_write]
    simp [framesFrom]
  · refine ⟨.data, ?_⟩
    simp only [writeCmd, if_neg ha, List.append_assoc, List.cons_append, List.nil_append, framesFrom]
    rw [framesFrom_write]
    simp only [framesFrom]
    rw [framesFrom_write]
    simp [framesFrom]

/-- The frame of a window transaction (R136, R137). -/
theorem framesFrom_txn (s : State) (w : Window) {body : List WireEvent} (h : onlyXfers body) (dc : Line)
    (o : Option Frame) (es : List WireEvent) :
    framesFrom dc o (txn s w body ++ es)
      = windowFrame (trunc16 (w.x0 + nat16 s.cfgXshift)) (trunc16 (w.x1 + nat16 s.cfgXshift))
          (trunc16 (w.y0 + nat16 s.cfgYshift)) (trunc16 (w.y1 + nat16 s.cfgYshift)) (xferBytes body)
        :: framesFrom .data none es := by
  simp only [txn, setWindow, List.append_assoc, List.cons_append, List.nil_append, framesFrom]
  rw [framesFrom_write]; simp only [framesFrom]
  rw [framesFrom_write]; simp only [framesFrom]
  rw [framesFrom_write]; simp only [framesFrom]
  rw [framesFrom_write]; simp only [framesFrom]
  rw [framesFrom_write]; simp only [framesFrom]
  rw [framesFrom_body h]
  simp [framesFrom, windowFrame]

/-- The open frame after two lists of events. -/
theorem openAfter_append (dc : Line) (o : Option Frame) (es fs : List WireEvent) :
    openAfter dc o (es ++ fs) = openAfter (dcAfter dc es) (openAfter dc o es) fs := by
  induction es generalizing dc o with
  | nil => rfl
  | cons e es ih => cases e <;> simp [openAfter, dcAfter, ih]

/-- The frames two lists of events close, one list after the other. -/
theorem framesFrom_append (dc : Line) (o : Option Frame) (es fs : List WireEvent) :
    framesFrom dc o (es ++ fs) = framesFrom dc o es ++ framesFrom (dcAfter dc es) (openAfter dc o es) fs := by
  induction es generalizing dc o with
  | nil => rfl
  | cons e es ih => cases e <;> cases o <;> simp [framesFrom, openAfter, dcAfter, ih]

/-- The frame view gains the frames the events close (R134). -/
theorem frameView_append {s t : State} {es : List WireEvent} (h : t.wire = s.wire ++ es) :
    frameView t = frameView s ++ newFrames s es := by
  rw [frameView, h, framesFrom_append]
  rfl

/-- So does the frame view of a state that emits. -/
theorem frameView_emitAll (es : List WireEvent) (s : State) :
    frameView (emitAll es s) = frameView s ++ newFrames s es := frameView_append rfl

/-- Frames closed in two stretches (R134). -/
theorem newFrames_append (s : State) (es fs : List WireEvent) :
    newFrames s (es ++ fs) = newFrames s es ++ newFrames (emitAll es s) fs := by
  simp only [newFrames, framesFrom_append, emitAll_wire, openAfter_append, dcAfter_append]

/-- The frames events close depend on the trace before them alone. -/
theorem newFrames_congr {s t : State} (h : t.wire = s.wire) (es : List WireEvent) :
    newFrames t es = newFrames s es := by
  rw [newFrames, h, newFrames]

/-- The pixel writes of events depend on the trace before them and the shift in force alone. -/
theorem paintsOf_congr {s t : State} (h : t.wire = s.wire) (hx : t.cfgXshift = s.cfgXshift)
    (hy : t.cfgYshift = s.cfgYshift) (es : List WireEvent) : paintsOf t es = paintsOf s es := by
  rw [paintsOf, newFrames_congr h, hx, hy, paintsOf]

/-- Pixel writes of two stretches (R146). -/
theorem paintsOf_append (s : State) (es fs : List WireEvent) :
    paintsOf s (es ++ fs) = paintsOf s es ++ paintsOf (emitAll es s) fs := by
  simp only [paintsOf, newFrames_append, List.flatMap_append, emitAll_cfgXshift, emitAll_cfgYshift]

@[simp] theorem newFrames_nil (s : State) : newFrames s [] = [] := by simp [newFrames, framesFrom]
@[simp] theorem paintsOf_nil (s : State) : paintsOf s [] = [] := by simp [paintsOf]

/-- Emitting nothing. -/
@[simp] theorem emitAll_nil (s : State) : emitAll [] s = s := by
  simp [emitAll, paint, selAfter, dcAfter, paintFb, fbWrites, memLatest, memMerge]

/-! ## Reading a window transaction back (42_transfer_window.md R146) -/

theorem dataBytes_map (bs : List Byte) : dataBytes (bs.map (fun b => (.data, b))) = some bs := by
  induction bs with
  | nil => rfl
  | cons b bs ih => simp [dataBytes, ih]

/-- The colour of a wire16 pair is the colour sent (20_memory.md R65). -/
theorem colorOf_wire16 (c : Color) : colorOf (c.extractLsb' 8 8) (c.extractLsb' 0 8) = c := by
  apply BitVec.eq_of_getLsbD_eq
  intro i hi
  simp only [colorOf, BitVec.getLsbD_append, BitVec.getLsbD_extractLsb']
  split
  · simp_all
  · rename_i h
    have : i - 8 < 8 := by omega
    have h8 : 8 + (i - 8) = i := by omega
    simp [this, h8]

theorem pairColors_wire16 (ks : List Color) : pairColors (ks.flatMap wire16) = some ks := by
  induction ks with
  | nil => rfl
  | cons c ks ih =>
    simp only [List.flatMap_cons, wire16, List.cons_append, List.nil_append, pairColors]
    rw [ih, colorOf_wire16]; rfl

/-- The two wire bytes of a u16 give back its value (20_memory.md R66). -/
theorem wire16_toNat (w : Word) : (w.extractLsb' 8 8).toNat * 256 + (w.extractLsb' 0 8).toNat = w.toNat := by
  have := w.isLt
  simp only [BitVec.extractLsb'_toNat, Nat.shiftRight_eq_div_pow]
  omega

/-- Reading a window frame gives its window and colours. -/
theorem windowOf_windowFrame (xs xe ys ye : Word) (ks : List Color) (hx : xs.toNat ≤ xe.toNat)
    (hy : ys.toNat ≤ ye.toNat) :
    windowOf (windowFrame xs xe ys ye (ks.flatMap wire16)) = some ⟨xs.toNat, xe.toNat, ys.toNat, ye.toNat, ks⟩ := by
  simp only [windowFrame, wire16, List.map_cons, List.map_nil, List.cons_append, List.nil_append, windowOf,
    wire16_toNat]
  rw [if_pos ⟨trivial, trivial, trivial, hx, hy⟩]
  rw [dataBytes_map, Option.bind_some, pairColors_wire16]
  rfl

/-- `trunc_16` keeps a value that fits. -/
theorem trunc16_toNat {v : Int} (h0 : 0 ≤ v) (h1 : v < 65536) : (trunc16 v).toNat = v.toNat := by
  rw [trunc16, BitVec.toNat_ofInt]
  omega

/-! ## A single controller command (42_transfer_window.md R132) -/

/-- A command's bracket adds one frame, whatever the trace before it. -/
theorem newFrames_writeCmd (s : State) (p : Params) (c : Byte) (args : List Byte) :
    newFrames s (writeCmd p.raw c args) = [(.cmd, c) :: args.map (fun b => (.data, b))] := by
  obtain ⟨l, h⟩ := framesFrom_writeCmd p c args (dcAfter State.reset.dc s.wire)
    (openAfter State.reset.dc none s.wire) []
  simpa [newFrames, framesFrom] using h

/-- A command's frame is no window, so it paints nothing (R146). -/
theorem framePaints_writeCmd (x y : Int) (c : Byte) (args : List Byte) :
    framePaints x y ((.cmd, c) :: args.map (fun b => (.data, b))) = [] := by
  have h : windowOf ((.cmd, c) :: args.map (fun b => (.data, b))) = none := by
    rcases args with _ | ⟨_, _ | ⟨_, _ | ⟨_, _ | ⟨_, _ | ⟨_, _⟩⟩⟩⟩⟩ <;> rfl
  rw [framePaints, h]

/-- A command's bracket paints nothing. -/
theorem paintsOf_writeCmd (s : State) (p : Params) (c : Byte) (args : List Byte) :
    paintsOf s (writeCmd p.raw c args) = [] := by
  rw [paintsOf, newFrames_writeCmd, List.flatMap_singleton, framePaints_writeCmd]

/-- DC after a command's bracket. -/
theorem dcAfter_writeCmd (p : RawParams) (c : Byte) (args : List Byte) (l : Line) :
    dcAfter l (writeCmd p c args) = if args = [] then .cmd else .data := by
  simp only [writeCmd, List.cons_append, dcAfter, dcAfter_append, dcAfter_xfers (onlyXfers_write _ _)]
  split
  · simp [dcAfter]
  · simp [dcAfter, dcAfter_xfers (onlyXfers_write _ _)]

/-- What sending a command's bracket does (R132). -/
theorem emitAll_writeCmd (s : State) (p : Params) (c : Byte) (args : List Byte) :
    emitAll (writeCmd p.raw c args) s
      = { s with
        wire := s.wire ++ writeCmd p.raw c args, sel := false, dc := if args = [] then .cmd else .data } := by
  rw [emitAll, paintsOf_writeCmd, selAfter_writeCmd, dcAfter_writeCmd, paint]
  simp [paintFb, fbWrites, memLatest, memMerge]

/-! ## The transactions of a command -/

theorem fillBytes_eq (n : Nat) (c : Color) : fillBytes n c = (List.replicate n c).flatMap wire16 := by
  induction n with
  | zero => rfl
  | succ n ih => simp [fillBytes, ih, List.replicate_succ]

theorem fillBytes_length (n : Nat) (c : Color) : (fillBytes n c).length = 2 * n := by
  induction n with
  | zero => rfl
  | succ n ih => simp [fillBytes, wire16, ih]; omega

theorem fillBytes_add (m n : Nat) (c : Color) : fillBytes (m + n) c = fillBytes m c ++ fillBytes n c := by
  induction m with
  | zero => simp [fillBytes]
  | succ m ih => rw [Nat.succ_add, fillBytes, fillBytes, ih, List.append_assoc]

theorem fillBytes_replicate (q h : Nat) (c : Color) :
    (List.replicate q (fillBytes h c)).flatten = fillBytes (q * h) c := by
  induction q with
  | zero => simp [fillBytes]
  | succ q ih => rw [List.replicate_succ, List.flatten_cons, ih, ← fillBytes_add]; congr 1; rw [Nat.succ_mul]; omega

theorem fillBytes_take {r h : Nat} (hr : r ≤ h) (c : Color) : (fillBytes h c).take (2 * r) = fillBytes r c := by
  obtain ⟨k, rfl⟩ := Nat.exists_eq_add_of_le hr
  rw [fillBytes_add, List.take_append_of_le_length (Nat.le_of_eq (fillBytes_length r c).symm),
    List.take_of_length_le (Nat.le_of_eq (fillBytes_length r c))]

theorem xferBytes_replicate (q : Nat) (es : List WireEvent) :
    xferBytes (List.replicate q es).flatten = (List.replicate q (xferBytes es)).flatten := by
  induction q with
  | zero => rfl
  | succ q ih => simp only [List.replicate_succ, List.flatten_cons, xferBytes_append, ih]

/-- `StreamFill` from a buffer that holds c sends c npix times, in wire order (42_transfer_window.md R143). -/
theorem xferBytes_streamFill (s : State) (npix : Nat) (c : Color) (h2 : 2 ≤ s.bufBytes.toNat)
    (he : s.bufBytes.toNat % 2 = 0) (hd : s.bufData = fillBytes (s.bufBytes.toNat / 2) c) :
    xferBytes (streamFill s npix) = fillBytes npix c := by
  obtain ⟨h, hh⟩ : ∃ h, s.bufBytes.toNat = 2 * h := ⟨s.bufBytes.toNat / 2, by omega⟩
  have hpos : 0 < h := by omega
  have hq : 2 * npix / (2 * h) = npix / h := Nat.mul_div_mul_left _ _ (by omega)
  have hm : 2 * npix % (2 * h) = 2 * (npix % h) := Nat.mul_mod_mul_left _ _ _
  have hhalf : 2 * h / 2 = h := by omega
  simp only [streamFill, xferBytes_append, xferBytes_replicate, xferBytes_write, hd, hh, hq, hm, hhalf]
  rw [fillBytes_take (Nat.le_refl h), fillBytes_take (Nat.le_of_lt (Nat.mod_lt _ hpos)), fillBytes_replicate,
    ← fillBytes_add, Nat.div_add_mod']

theorem onlyXfers_payload (s : State) (d : Draw) : onlyXfers (payload s d) := by
  cases d with
  | pixel x y c => exact onlyXfers_write _ _
  | fill w c =>
    refine onlyXfers_append (onlyXfers_flatten fun l hl => ?_) (onlyXfers_write _ _)
    rw [(List.mem_replicate.mp hl).2]
    exact onlyXfers_write _ _
  | blit w ks => exact onlyXfers_write _ _

theorem bufUsable_prepare {s : State} (d : Draw) (h : bufUsable s) : bufUsable (prepare d s) := by
  cases d with
  | pixel x y c => exact h
  | fill w c =>
    refine ⟨h.1, h.2.1, fun k hk => ?_⟩
    have hck : c = k := by simpa [prepare, refresh] using hk
    subst hck
    simp only [prepare, refresh_bufData, refresh_bufBytes]
    split
    · exact h.2.2 c ‹_›
    · rfl
  | blit w ks => exact h

/-- The Writes of `StreamFill` from a buffer that holds c are R143's chunks. -/
theorem streamFill_chunks (s : State) (npix : Nat) (c : Color) (h2 : 2 ≤ s.bufBytes.toNat)
    (he : s.bufBytes.toNat % 2 = 0) (hd : s.bufData = fillBytes (s.bufBytes.toNat / 2) c) :
    streamFill s npix = fillChunks s c npix := by
  have hw : ∀ n, (List.replicate n (wire16 c)).flatten = fillBytes n c := fun n => by
    rw [fillBytes_eq, List.flatMap_def, List.map_replicate]
  have hlt : 2 * npix % s.bufBytes.toNat < s.bufBytes.toNat := Nat.mod_lt _ (by omega)
  have hev : 2 * npix % s.bufBytes.toNat % 2 = 0 := by
    rw [Nat.mod_mod_of_dvd _ (Nat.dvd_of_mod_eq_zero he), Nat.mul_mod_right]
  have hfull : s.bufData.take s.bufBytes.toNat = fillBytes (s.bufBytes.toNat / 2) c := by
    rw [hd, List.take_of_length_le (by rw [fillBytes_length]; omega)]
  have hrem : s.bufData.take (2 * npix % s.bufBytes.toNat) = fillBytes (2 * npix % s.bufBytes.toNat / 2) c := by
    rw [hd, show 2 * npix % s.bufBytes.toNat = 2 * (2 * npix % s.bufBytes.toNat / 2) by omega,
      fillBytes_take (by omega)]
    congr 1
    omega
  simp only [streamFill, fillChunks, hw, hfull, hrem]
  split
  · rename_i hz
    rw [hz]; rfl
  · rfl

/-- The payload of a transaction is its colours in wire order. -/
theorem xferBytes_payload {s : State} (d : Draw) (h : bufUsable s) :
    xferBytes (payload (prepare d s) d) = (drawColors d).flatMap wire16 := by
  cases d with
  | pixel x y c => simp [payload, prepare, drawColors]
  | fill w c =>
    rw [drawColors, ← fillBytes_eq]
    exact xferBytes_streamFill _ _ c h.1 h.2.1 ((bufUsable_prepare (.fill w c) h).2.2 c rfl)
  | blit w ks =>
    simp only [payload, xferBytes_write, prepare, loadGlyph_glyphBuf, drawColors]
    rw [List.take_append_of_le_length (Nat.le_refl _), List.take_length]

/-- A state whose geometry agrees sees the same frame of a transaction. -/
theorem drawFrame_prepare (s : State) (d : Draw) : drawFrame (prepare d s) = drawFrame s := by
  funext e
  simp [drawFrame]

/-- The frames of a list of transactions, one each, in order, whatever the trace before them. -/
theorem framesFrom_drawEvents (ds : List Draw) (s : State) (dc : Line) (o : Option Frame) (es : List WireEvent)
    (h : bufUsable s) :
    framesFrom dc o (drawEvents ds s ++ es)
      = ds.map (drawFrame s) ++ framesFrom (if ds = [] then dc else .data) (if ds = [] then o else none) es := by
  induction ds generalizing s dc o with
  | nil => simp [drawEvents]
  | cons d ds ih =>
    rw [drawEvents, List.append_assoc, framesFrom_txn _ _ (onlyXfers_payload _ _), xferBytes_payload d h,
      ih _ _ _ (bufUsable_prepare d h)]
    have hd := drawFrame_prepare s d
    have hf := congrFun hd d
    simp only [drawFrame] at hf
    rw [hd, hf]
    simp [drawFrame]

/-- The pixel writes of a transaction's frame are its pixels (R146). -/
theorem framePaints_drawFrame {s : State} {d : Draw} (hc : cfgFits s) (h : drawOk s d) :
    framePaints (nat16 s.cfgXshift) (nat16 s.cfgYshift) (drawFrame s d) = drawPixels d := by
  obtain ⟨hx0, hx1, hxw, hy0, hy1, hyh, -⟩ := h
  obtain ⟨hcx, hcy⟩ := hc
  simp only [nat16] at *
  have e1 : (trunc16 ((drawWindow d).x0 + (s.cfgXshift.toNat : Int))).toNat
      = ((drawWindow d).x0 + (s.cfgXshift.toNat : Int)).toNat := trunc16_toNat (by omega) (by omega)
  have e2 : (trunc16 ((drawWindow d).x1 + (s.cfgXshift.toNat : Int))).toNat
      = ((drawWindow d).x1 + (s.cfgXshift.toNat : Int)).toNat := trunc16_toNat (by omega) (by omega)
  have e3 : (trunc16 ((drawWindow d).y0 + (s.cfgYshift.toNat : Int))).toNat
      = ((drawWindow d).y0 + (s.cfgYshift.toNat : Int)).toNat := trunc16_toNat (by omega) (by omega)
  have e4 : (trunc16 ((drawWindow d).y1 + (s.cfgYshift.toNat : Int))).toNat
      = ((drawWindow d).y1 + (s.cfgYshift.toNat : Int)).toNat := trunc16_toNat (by omega) (by omega)
  simp only [framePaints, drawFrame, nat16]
  rw [windowOf_windowFrame _ _ _ _ _ (by omega) (by omega)]
  simp only [e1, e2, e3, drawPixels]
  congr 1 <;> omega

/-- The frames a list of transactions adds to the frame view. -/
theorem newFrames_drawEvents {s t : State} (ds : List Draw) (hb : bufUsable s) :
    newFrames t (drawEvents ds s) = ds.map (drawFrame s) := by
  have := framesFrom_drawEvents ds s (dcAfter State.reset.dc t.wire) (openAfter State.reset.dc none t.wire) [] hb
  rw [List.append_nil] at this
  rw [newFrames, this, framesFrom, List.append_nil]

/-- The pixel writes of the frames of a list of transactions, in order (R146). -/
theorem paints_drawFrames {s : State} (ds : List Draw) (hc : cfgFits s) (h : ∀ d ∈ ds, drawOk s d) :
    (ds.map (drawFrame s)).flatMap (framePaints (nat16 s.cfgXshift) (nat16 s.cfgYshift)) = ds.flatMap drawPixels := by
  rw [List.flatMap_map]
  exact congrArg List.flatten (List.map_congr_left fun d hd => framePaints_drawFrame hc (h d hd))

/-- The pixel writes of a list of transactions, in order (R146). -/
theorem paintsOf_drawEvents {s : State} (ds : List Draw) (hb : bufUsable s) (hc : cfgFits s)
    (h : ∀ d ∈ ds, drawOk s d) : paintsOf s (drawEvents ds s) = ds.flatMap drawPixels := by
  rw [paintsOf, newFrames_drawEvents ds hb, paints_drawFrames ds hc h]

/-- So they are when the buffers have been filled. -/
theorem paintsOf_settle {s : State} (ds : List Draw) (hb : bufUsable s) (hc : cfgFits s) (h : ∀ d ∈ ds, drawOk s d) :
    paintsOf (settle ds s) (drawEvents ds s) = ds.flatMap drawPixels := by
  rw [← paintsOf_drawEvents ds hb hc h]
  exact paintsOf_congr (by simp) (by simp) (by simp) _

end Sys2Proof.Machine
end

