-- ==== Sys2Proof/Laws/Perform.lean ====
section
/-! SUPPORT. What a command's end does once: with no asynchronous piece among its events a command runs to its end in
one step (42_transfer_window.md R135); what `launch` and `perform` then give. -/

namespace Sys2Proof.Machine

theorem allSync_append {es fs : List WireEvent} (he : allSync es) (hf : allSync fs) : allSync (es ++ fs) :=
  fun e h => (List.mem_append.mp h).elim (he e) (hf e)

/-- What emitting does, field by field. -/
theorem emitAll_eq (es : List WireEvent) (s : State) :
    emitAll es s
      = { s with
        wire := s.wire ++ es, sel := selAfter s.sel es, dc := dcAfter s.dc es
        paintLog := s.paintLog ++ paintsOf s es, fb := paintFb s (paintsOf s es) } := rfl

/-- Emitting two lists of events, one after the other (42_transfer_window.md R130, R146, R147). -/
theorem emitAll_append (es fs : List WireEvent) {s : State} (h : memWf s.fb = true) :
    emitAll fs (emitAll es s) = emitAll (es ++ fs) s := by
  have hp := paintsOf_append s es fs
  have hf := paintFb_append (t := emitAll es s) (paintsOf s es) (paintsOf (emitAll es s) fs) h rfl rfl rfl
  have hd : dcAfter (emitAll es s).dc fs = dcAfter s.dc (es ++ fs) := (dcAfter_append _ _ _).symm
  have hl : selAfter (emitAll es s).sel fs = selAfter s.sel (es ++ fs) := (selAfter_append _ _ _).symm
  rw [← hp] at hf
  have hg : (emitAll es s).paintLog ++ paintsOf (emitAll es s) fs = s.paintLog ++ paintsOf s (es ++ fs) := by
    rw [hp, emitAll_paintLog, List.append_assoc]
  rw [emitAll_eq fs, hf, hd, hl, hg, emitAll_wire, List.append_assoc]
  rfl

/-- A stretch of actions and the next one are one stretch: what the command has done does not depend on where it
waited (42_transfer_window.md R135). -/
theorem runActions_append (p q : List Action) {s : State} (h : memWf s.fb = true) :
    runActions q (runActions p s) = runActions (p ++ q) s := by
  rw [runActions, runActions, runActions, bufferWrites_emitAll, emitAll_append _ _ (by simpa using h),
    eventsOf_append, bufferWrites_append]

/-- A stretch of actions emits its events, and besides that writes the buffers only. -/
theorem runActions_eq (q : List Action) (s : State) :
    runActions q s
      = { emitAll (eventsOf q) s with
        bufData := (bufferWrites q s).bufData, bufTag := (bufferWrites q s).bufTag
        glyphBuf := (bufferWrites q s).glyphBuf } := by
  rw [runActions, bufferWrites_frame]
  rfl

/-- Events alone are emitted. -/
theorem runActions_map_emit (es : List WireEvent) (s : State) : runActions (es.map .emit) s = emitAll es s := by
  rw [runActions, eventsOf_map_emit, bufferWrites_map_emit]

theorem splitAsync_sync {q : List Action} (h : allSync (eventsOf q)) : splitAsync q = (q, none) := by
  induction q with
  | nil => rfl
  | cons a q ih =>
    cases a with
    | emit e =>
      rw [splitAsync, h e List.mem_cons_self, ih (fun e he => h e (List.mem_cons_of_mem _ he))]
      rfl
    | refresh c => rw [splitAsync, ih h]
    | loadGlyph ks => rw [splitAsync, ih h]

/-- The two parts of a split are the whole list. -/
theorem splitAsync_append (q : List Action) : (splitAsync q).1 ++ (splitAsync q).2.getD [] = q := by
  induction q with
  | nil => rfl
  | cons a q ih =>
    cases a with
    | emit e =>
      rw [splitAsync]
      split
      · rfl
      · simpa using ih
    | refresh c => simpa [splitAsync] using ih
    | loadGlyph ks => simpa [splitAsync] using ih

/-- A running command with no asynchronous piece left runs to its end (R135). -/
theorem drain_sync {r : Running} (h : allSync (eventsOf r.queue)) (s : State) :
    drain r s = finish r.ending { runActions r.queue s with running := none } := by
  rw [drain, splitAsync_sync h]

/-- A command of events alone, with no asynchronous piece, runs to its end at once (R135). -/
theorem launch_sync {es : List WireEvent} (h : allSync es) (e : Ending) (s : State) :
    launch es e s = finish e { emitAll es s with running := none } := by
  rw [launch, drain_sync (by simpa using h), runActions_map_emit]

theorem allSync_write {p : RawParams} (h : p.asyncEnable = false) (bs : List Byte) : allSync (write p bs) :=
  write_sync h bs

theorem allSync_writeCmd {p : RawParams} (h : p.asyncEnable = false) (c : Byte) (args : List Byte) :
    allSync (writeCmd p c args) := by
  intro e he
  simp only [writeCmd, List.cons_append, List.mem_cons, List.mem_append, List.not_mem_nil, or_false] at he
  rcases he with rfl | rfl | (he | he) | rfl
  · rfl
  · rfl
  · exact write_sync h _ e he
  · split at he
    · simp at he
    · rcases List.mem_cons.mp he with rfl | he
      · rfl
      · exact write_sync h _ e he
  · rfl

theorem allSync_setWindow {s : State} (h : s.par.raw.asyncEnable = false) (w : Window) : allSync (setWindow s w) := by
  intro e he
  simp only [setWindow, List.cons_append, List.append_assoc, List.mem_cons, List.mem_append] at he
  rcases he with rfl | he | rfl | he | rfl | he | rfl | he | rfl | he
  all_goals first | rfl | exact write_sync h _ e he

theorem allSync_payload {s : State} (h : s.par.raw.asyncEnable = false) (d : Draw) : allSync (payload s d) := by
  cases d with
  | pixel x y c => exact write_sync h _
  | fill w c =>
    refine allSync_append (fun e he => ?_) (write_sync h _)
    obtain ⟨l, hl, hel⟩ := List.mem_flatten.mp he
    rw [(List.mem_replicate.mp hl).2] at hel
    exact write_sync h _ e hel
  | blit w ks => exact write_sync h _

theorem allSync_drawEvents (ds : List Draw) {s : State} (h : s.par.raw.asyncEnable = false) :
    allSync (drawEvents ds s) := by
  induction ds generalizing s with
  | nil => intro e he; simp [drawEvents] at he
  | cons d ds ih =>
    have hp : (prepare d s).par.raw.asyncEnable = false := by simpa using h
    refine allSync_append (fun e he => ?_) (ih hp)
    simp only [txn, List.cons_append, List.append_assoc, List.mem_cons, List.mem_append, List.not_mem_nil,
      or_false] at he
    rcases he with rfl | he | rfl | he | rfl
    · rfl
    · exact allSync_setWindow hp _ e he
    · rfl
    · exact allSync_payload hp _ e he
    · rfl

/-- A list of transactions leaves SEL = 0 if it was 0 (R32, R137). -/
theorem selAfter_drawEvents (ds : List Draw) (s : State) : selAfter false (drawEvents ds s) = false := by
  induction ds generalizing s with
  | nil => rfl
  | cons d ds ih => rw [drawEvents, selAfter_append, selAfter_txn, ih]

/-- DC after a list of transactions. -/
theorem dcAfter_drawEvents (ds : List Draw) (s : State) (l : Line) :
    dcAfter l (drawEvents ds s) = if ds = [] then l else .data := by
  induction ds generalizing s l with
  | nil => rfl
  | cons d ds ih =>
    rw [drawEvents, dcAfter_append, dcAfter_txn _ _ _ (onlyXfers_payload _ _), ih]
    split <;> simp

/-- The events among a list of transactions' actions. -/
@[simp] theorem eventsOf_drawActions (ds : List Draw) (s : State) : eventsOf (drawActions ds s) = drawEvents ds s := by
  induction ds generalizing s with
  | nil => rfl
  | cons d ds ih =>
    cases d with
    | pixel x y c => simp [drawActions, drawEvents, prepare, drawWindow, ih]
    | fill w c =>
      have h : setWindow (refresh c s) w = setWindow s w := rfl
      simp [drawActions, drawEvents, prepare, drawWindow, txn, h, ih]
    | blit w ks => simp [drawActions, drawEvents, prepare, drawWindow, ih]

/-- The buffer writes among them, from any state. -/
@[simp] theorem bufferWrites_drawActions (ds : List Draw) (s t : State) :
    bufferWrites (drawActions ds s) t = settle ds t := by
  induction ds generalizing s t with
  | nil => rfl
  | cons d ds ih => cases d <;> simp [drawActions, prepare, ih]

/-- A list of transactions does each one's actions in order, as `drawOrder` tells them from the state the command
starts in (42_transfer_window.md R137, R143, 44_text.md R206). -/
theorem drawActions_order {ds : List Draw} {s : State} (h : bufUsable s) :
    drawActions ds s = ds.flatMap (drawOrder s) := by
  induction ds generalizing s with
  | nil => rfl
  | cons d ds ih =>
    have hd : drawOrder (prepare d s) = drawOrder s := by
      funext e
      cases d <;> cases e <;> rfl
    have hi := ih (bufUsable_prepare d h)
    rw [hd] at hi
    rw [List.flatMap_cons, ← hi]
    cases d with
    | pixel x y c => rfl
    | fill w c =>
      have hc : payload (refresh c s) (.fill w c) = fillChunks s c (windowArea w) :=
        streamFill_chunks (refresh c s) _ c h.1 h.2.1 ((bufUsable_prepare (.fill w c) h).2.2 c rfl)
      simp [drawActions, drawOrder, prepare, hc]
    | blit w ks =>
      have hk : payload (loadGlyph ks s) (.blit w ks) = write s.par.raw (ks.flatMap wire16) := by
        rw [payload, loadGlyph_glyphBuf, List.take_append_of_le_length (Nat.le_refl _), List.take_length]
        rfl
      rw [drawActions, hk]
      rfl

/-- Only a glyph's transaction writes GLYPH_BUF (44_text.md R206). -/
theorem loadGlyph_mem_drawActions {ds : List Draw} {s : State} {ks : List Color}
    (h : Action.loadGlyph ks ∈ drawActions ds s) : ∃ w, Draw.blit w ks ∈ ds := by
  induction ds generalizing s with
  | nil => cases h
  | cons d ds ih =>
    have more : ∀ t, Action.loadGlyph ks ∈ drawActions ds t → ∃ w, Draw.blit w ks ∈ d :: ds := fun t ht =>
      (ih ht).imp fun w hw => List.mem_cons_of_mem _ hw
    cases d with
    | pixel x y c => exact more _ (by simpa [drawActions] using h)
    | fill w c => exact more _ (by simpa [drawActions] using h)
    | blit w js =>
      rcases (by simpa [drawActions] using h : ks = js ∨ Action.loadGlyph ks ∈ drawActions ds (loadGlyph js s))
        with rfl | h
      · exact ⟨w, List.mem_cons_self⟩
      · exact more _ h

/-- Only a bulk fill refreshes the transfer buffer, with its own colour (42_transfer_window.md R143, R144). -/
theorem refresh_mem_drawActions {ds : List Draw} {s : State} {c : Color}
    (h : Action.refresh c ∈ drawActions ds s) : ∃ w, Draw.fill w c ∈ ds := by
  induction ds generalizing s with
  | nil => cases h
  | cons d ds ih =>
    have more : ∀ t, Action.refresh c ∈ drawActions ds t → ∃ w, Draw.fill w c ∈ d :: ds := fun t ht =>
      (ih ht).imp fun w hw => List.mem_cons_of_mem _ hw
    cases d with
    | pixel x y k => exact more _ (by simpa [drawActions] using h)
    | fill w k =>
      rcases (by simpa [drawActions] using h : c = k ∨ Action.refresh c ∈ drawActions ds (refresh k s)) with rfl | h
      · exact ⟨w, List.mem_cons_self⟩
      · exact more _ h
    | blit w ks => exact more _ (by simpa [drawActions] using h)

/-- What a list of transactions does: its events, and its buffer writes. -/
theorem runActions_drawActions (ds : List Draw) (s : State) :
    runActions (drawActions ds s) s = emitAll (drawEvents ds s) (settle ds s) := by
  rw [runActions, eventsOf_drawActions, bufferWrites_drawActions]

/-- A list of transactions runs to its end at once, if no transfer is asynchronous. -/
theorem perform_end {ds : List Draw} {s : State} (e : Ending) (hp : s.par.raw.asyncEnable = false) :
    perform ds e s = finish e { emitAll (drawEvents ds s) (settle ds s) with running := none } := by
  rw [perform, drain_sync (by simpa using allSync_drawEvents ds hp), runActions_drawActions]

/-- So does a drawing command. -/
theorem perform_sync {ds : List Draw} {s : State} (len : Nat) (hp : s.par.raw.asyncEnable = false) :
    perform ds (.complete len) s = drawn ds len s := by
  rw [perform_end _ hp, drawn, finish]

/-! ## Acceptance (60_exceptions.md R232) -/

/-- A command the state accepts runs its body. -/
theorem gated_ready (g : Gate) (opc : Word) (body : State → State) {s : State} (h : s.engine = .ready) :
    gated g opc body s = body s := by
  cases g <;> simp [gated, accepts, h]

/-- A command accepted in every state but HALTED runs its body there. -/
theorem gated_always (opc : Word) (body : State → State) {s : State} (h : s.engine ≠ .halted) :
    gated .always opc body s = body s := by
  cases he : s.engine <;> simp_all [gated, accepts]

/-- A command that needs READY raises NOT_READY in UNINIT and ALLOC_FAILED. -/
theorem gated_notReady (opc : Word) (body : State → State) {s : State}
    (h : s.engine = .uninit ∨ s.engine = .allocFailed) : gated .readyOnly opc body s = raise .notReady opc s := by
  rcases h with h | h <;> simp [gated, accepts, h]

/-- In HALTED nothing is decoded. -/
theorem gated_halted (g : Gate) (opc : Word) (body : State → State) {s : State} (h : s.engine = .halted) :
    gated g opc body s = s := by
  cases g <;> simp [gated, accepts, h]

end Sys2Proof.Machine
end

