-- ==== Sys2Proof/Laws/Shapes.lean ====
section
/-! SUPPORT. Every clipped shape meets the window obligations (42_transfer_window.md R148), and which pixels a
transaction writes (R146). -/

namespace Sys2Proof.Machine

theorem visible_iff (s : State) (x y : Int) :
    visible s x y = true ↔ 0 ≤ x ∧ x < nat16 s.cfgWidth ∧ 0 ≤ y ∧ y < nat16 s.cfgHeight := by
  simp [visible, and_assoc]

/-- PlotPixel meets the window obligations (43_primitives.md R161). -/
theorem drawOk_plotPixel {s : State} {c : Color} {p : Int × Int} : ∀ d ∈ plotPixel s c p, drawOk s d := by
  intro d hd
  rw [plotPixel] at hd
  split at hd
  · rename_i hv
    obtain ⟨h1, h2, h3, h4⟩ := (visible_iff s _ _).mp hv
    obtain rfl := List.mem_singleton.mp hd
    refine ⟨h1, Int.le_refl _, h2, h3, Int.le_refl _, h4, ?_⟩
    simp [drawColors, windowArea, drawWindow]
  · simp at hd

/-- FillBox meets the window obligations (43_primitives.md R164). -/
theorem drawOk_fillBox {s : State} {x y w h : Int} {c : Color} : ∀ d ∈ fillBox s x y w h c, drawOk s d := by
  intro d hd
  simp only [fillBox] at hd
  split at hd
  · simp at hd
  · split at hd
    · simp at hd
    · obtain rfl := List.mem_singleton.mp hd
      refine ⟨?_, ?_, ?_, ?_, ?_, ?_, ?_⟩
      all_goals simp only [drawWindow, drawColors, List.length_replicate]
      all_goals omega

/-- HSpan meets the window obligations (43_primitives.md R162). -/
theorem drawOk_hSpan {s : State} {x y w : Int} {c : Color} : ∀ d ∈ hSpan s x y w c, drawOk s d := by
  intro d hd
  simp only [hSpan] at hd
  split at hd
  · simp at hd
  · split at hd
    · simp at hd
    · obtain rfl := List.mem_singleton.mp hd
      refine ⟨?_, ?_, ?_, ?_, ?_, ?_, ?_⟩
      all_goals simp only [drawWindow, drawColors, List.length_replicate]
      all_goals omega

/-- VSpan meets the window obligations (43_primitives.md R163). -/
theorem drawOk_vSpan {s : State} {x y h : Int} {c : Color} : ∀ d ∈ vSpan s x y h c, drawOk s d := by
  intro d hd
  simp only [vSpan] at hd
  split at hd
  · simp at hd
  · split at hd
    · simp at hd
    · obtain rfl := List.mem_singleton.mp hd
      refine ⟨?_, ?_, ?_, ?_, ?_, ?_, ?_⟩
      all_goals simp only [drawWindow, drawColors, List.length_replicate]
      all_goals omega

/-- Points through PlotPixel meet the window obligations. -/
theorem drawOk_plotAll {s : State} {c : Color} {ps : List (Int × Int)} : ∀ d ∈ plotAll s c ps, drawOk s d := by
  intro d hd
  obtain ⟨p, -, hp⟩ := List.mem_flatMap.mp hd
  exact drawOk_plotPixel d hp

/-- Spans through HSpan meet the window obligations. -/
theorem drawOk_spanAll {s : State} {c : Color} {ps : List Span} : ∀ d ∈ spanAll s c ps, drawOk s d := by
  intro d hd
  obtain ⟨p, -, hp⟩ := List.mem_flatMap.mp hd
  exact drawOk_hSpan d hp

/-- The four segments of a rectangle meet the window obligations (43_primitives.md R170). -/
theorem drawOk_rectDraws {s : State} {x y w h : Int} {c : Color} : ∀ d ∈ rectDraws s x y w h c, drawOk s d := by
  intro d hd
  rw [rectDraws] at hd
  split at hd
  · simp only [List.mem_append] at hd
    rcases hd with ((hd | hd) | hd) | hd
    · exact drawOk_hSpan d hd
    · exact drawOk_hSpan d hd
    · exact drawOk_vSpan d hd
    · exact drawOk_vSpan d hd
  · simp at hd

/-! ## Row-major order -/

theorem intRange_length (a b : Int) : (intRange a b).length = (b - a).toNat := by simp [intRange]

theorem mem_intRange {a b x : Int} : x ∈ intRange a b ↔ a ≤ x ∧ x < b := by
  simp only [intRange, List.mem_map, List.mem_range]
  constructor
  · rintro ⟨k, hk, rfl⟩; omega
  · intro h; exact ⟨(x - a).toNat, by omega, by omega⟩

theorem mem_windowPoints {w : Window} {p : Int × Int} :
    p ∈ windowPoints w ↔ w.x0 ≤ p.1 ∧ p.1 ≤ w.x1 ∧ w.y0 ≤ p.2 ∧ p.2 ≤ w.y1 := by
  obtain ⟨x, y⟩ := p
  simp only [windowPoints, List.mem_flatMap, List.mem_map, mem_intRange, Prod.mk.injEq]
  constructor
  · rintro ⟨b, ⟨h1, h2⟩, a, ⟨h3, h4⟩, rfl, rfl⟩; omega
  · intro h; exact ⟨y, by omega, x, by omega, rfl, rfl⟩

theorem flatMap_length_const {α β : Type} (f : α → List β) (n : Nat) (l : List α) (h : ∀ a, (f a).length = n) :
    (l.flatMap f).length = l.length * n := by
  induction l with
  | nil => simp
  | cons a l ih => rw [List.flatMap_cons, List.length_append, ih, h, List.length_cons, Nat.succ_mul]; omega

/-- A window holds as many points as its area. -/
theorem windowPoints_length {w : Window} (hx : w.x0 ≤ w.x1) (hy : w.y0 ≤ w.y1) :
    (windowPoints w).length = windowArea w := by
  rw [windowPoints, flatMap_length_const _ (w.x1 + 1 - w.x0).toNat _ (fun y => by rw [List.length_map, intRange_length]),
    intRange_length, windowArea]
  obtain ⟨a, ha⟩ : ∃ a : Nat, w.x1 - w.x0 + 1 = a := ⟨(w.x1 - w.x0 + 1).toNat, by omega⟩
  obtain ⟨b, hb⟩ : ∃ b : Nat, w.y1 - w.y0 + 1 = b := ⟨(w.y1 - w.y0 + 1).toNat, by omega⟩
  have e1 : w.x1 + 1 - w.x0 = a := by omega
  have e2 : w.y1 + 1 - w.y0 = b := by omega
  rw [e1, e2, ha, hb, ← Int.natCast_mul, Int.toNat_natCast, Int.toNat_natCast, Int.toNat_natCast, Nat.mul_comm]

/-- A glyph's transactions meet the window obligations (44_text.md R206, R207). -/
theorem drawOk_glyphDraws {s : State} {f : Font} {g : Glyph} {cx cy : Int} {fg bg : Color} :
    ∀ d ∈ glyphDraws s f g cx cy fg bg, drawOk s d := by
  intro d hd
  simp only [glyphDraws] at hd
  split at hd
  · simp at hd
  · rename_i w hw
    simp only [glyphWindow] at hw
    split at hw
    · cases hw
    · split at hd
      · cases hw
        obtain rfl := List.mem_singleton.mp hd
        refine ⟨?_, ?_, ?_, ?_, ?_, ?_, ?_⟩
        all_goals simp only [drawWindow, drawColors, List.length_map]
        all_goals first | omega | (rw [windowPoints_length] <;> dsimp only <;> omega)
      · obtain ⟨p, -, hp⟩ := List.mem_flatMap.mp hd
        exact drawOk_plotPixel d hp

/-- A string's transactions meet the window obligations (44_text.md R209). -/
theorem drawOk_stringWalk {s : State} {f : Font} {fg bg : Color} (cx cy : Int) (cs : List Byte) :
    ∀ d ∈ (stringWalk s f fg bg cx cy cs).draws, drawOk s d := by
  induction cs generalizing cx cy with
  | nil => intro d hd; simp [stringWalk] at hd
  | cons c cs ih =>
    intro d hd
    rw [stringWalk] at hd
    split at hd
    · exact ih _ _ d hd
    · dsimp only at hd
      generalize (if decide (nat16 s.cfgWidth < cx + nat8 _) = true then (0 : Int) else cx) = cx' at hd
      generalize (if decide (nat16 s.cfgWidth < cx + nat8 _) = true then cy + nat8 f.yAdvance else cy) = cy' at hd
      split at hd
      · simp at hd
      · split at hd
        · exact ih _ _ d hd
        · split at hd
          · rcases List.mem_append.mp hd with hd | hd
            · exact drawOk_glyphDraws d hd
            · exact ih _ _ d hd
          · simp at hd

/-- The pixels of a window from index i, one by one (42_transfer_window.md R146). -/
theorem windowPixels_append (x0 y0 : Int) (wd i : Nat) (as bs : List Color) :
    windowPixels x0 y0 wd i (as ++ bs) = windowPixels x0 y0 wd i as ++ windowPixels x0 y0 wd (i + as.length) bs := by
  induction as generalizing i with
  | nil => rfl
  | cons a as ih =>
    simp only [List.cons_append, windowPixels, ih, List.length_cons]
    congr 3
    omega

/-- Part of row r of a window, from column j. -/
theorem windowPixels_row (x0 y0 : Int) (wd r : Nat) (f : Int × Int → Color) (n j : Nat) (h : j + n ≤ wd) :
    windowPixels x0 y0 wd (r * wd + j) ((List.range' j n).map (fun k : Nat => f (x0 + (k : Int), y0 + (r : Int))))
      = (List.range' j n).map (fun k : Nat => ⟨x0 + (k : Int), y0 + (r : Int), f (x0 + (k : Int), y0 + (r : Int))⟩) := by
  induction n generalizing j with
  | zero => rfl
  | succ n ih =>
    have hm : (r * wd + j) % wd = j := by rw [Nat.mul_comm, Nat.mul_add_mod]; exact Nat.mod_eq_of_lt (by omega)
    have hd : (r * wd + j) / wd = r := by
      rw [Nat.mul_comm, Nat.mul_add_div (by omega), Nat.div_eq_of_lt (by omega)]; rfl
    have := ih (j + 1) (by omega)
    simp only [List.range'_succ, List.map_cons, windowPixels, hm, hd]
    rw [Nat.add_assoc, this]

/-- Rows of a window, from row r. -/
theorem windowPixels_rows (x0 y0 : Int) (wd : Nat) (f : Int × Int → Color) (n r : Nat) :
    windowPixels x0 y0 wd (r * wd)
        ((List.range' r n).flatMap
          (fun q : Nat => (List.range' 0 wd).map (fun k : Nat => f (x0 + (k : Int), y0 + (q : Int)))))
      = (List.range' r n).flatMap
          (fun q : Nat => (List.range' 0 wd).map
            (fun k : Nat => ⟨x0 + (k : Int), y0 + (q : Int), f (x0 + (k : Int), y0 + (q : Int))⟩)) := by
  induction n generalizing r with
  | zero => rfl
  | succ n ih =>
    have hrow := windowPixels_row x0 y0 wd r f wd 0 (by omega)
    rw [Nat.add_zero] at hrow
    rw [List.range'_succ, List.flatMap_cons, List.flatMap_cons, windowPixels_append, hrow, List.length_map,
      List.length_range']
    congr 1
    rw [← Nat.succ_mul]
    exact ih (r + 1)

/-- A window's pixels in row-major order are its points, each with its colour (44_text.md R204). -/
theorem windowPixels_points (w : Window) (f : Int × Int → Color) (hx : w.x0 ≤ w.x1) :
    windowPixels w.x0 w.y0 (w.x1 - w.x0 + 1).toNat 0 ((windowPoints w).map f)
      = (windowPoints w).map (fun p => ⟨p.1, p.2, f p⟩) := by
  have hwd : (w.x1 + 1 - w.x0).toNat = (w.x1 - w.x0 + 1).toNat := by omega
  have := windowPixels_rows w.x0 w.y0 (w.x1 - w.x0 + 1).toNat f (w.y1 + 1 - w.y0).toNat 0
  rw [Nat.zero_mul] at this
  simp only [windowPoints, intRange, List.map_flatMap, List.flatMap_map, List.map_map, hwd, List.range_eq_range'] at *
  exact this

/-- A filled window's colours, one for each of its points. -/
theorem replicate_area {w : Window} (hx : w.x0 ≤ w.x1) (hy : w.y0 ≤ w.y1) (c : Color) :
    List.replicate (windowArea w) c = (windowPoints w).map (fun _ => c) := by
  rw [List.map_const', windowPoints_length hx hy]

/-- The pixels of a transaction, one for each point of its window (42_transfer_window.md R146). -/
theorem drawPixels_fill {w : Window} (hx : w.x0 ≤ w.x1) (hy : w.y0 ≤ w.y1) (c : Color) :
    drawPixels (.fill w c) = (windowPoints w).map (fun p => ⟨p.1, p.2, c⟩) := by
  rw [drawPixels, drawColors, replicate_area hx hy]
  exact windowPixels_points w (fun _ => c) hx

/-- The pixel of a one-pixel transaction. -/
@[simp] theorem drawPixels_pixel (x y : Int) (c : Color) : drawPixels (.pixel x y c) = [⟨x, y, c⟩] := by
  simp [drawPixels, drawWindow, drawColors, windowPixels]

/-- The pixels of a glyph's transaction. -/
theorem drawPixels_blit {w : Window} (hx : w.x0 ≤ w.x1) (f : Int × Int → Color) :
    drawPixels (.blit w ((windowPoints w).map f)) = (windowPoints w).map (fun p => ⟨p.1, p.2, f p⟩) :=
  windowPixels_points w f hx

end Sys2Proof.Machine
end

