-- ==== Sys2Proof/Laws/Paint.lean ====
section
/-! SUPPORT. What the drawing operations paint: FB after a list of pixel writes (42_transfer_window.md R147), what a
list of transactions leaves, and that each clipped shape of 43_primitives.md R161 to R164 paints the visible points of
the unclipped one, in order. -/

namespace Sys2Proof.Machine

/-! ## FB -/

theorem fbKey_inj {x y x' y' : Int} (hx : 0 ≤ x ∧ x < 65536) (hy : 0 ≤ y) (hx' : 0 ≤ x' ∧ x' < 65536) (hy' : 0 ≤ y')
    (h : fbKey x y = fbKey x' y') : x = x' ∧ y = y' := by
  simp only [fbKey] at h
  omega

theorem visible_bounds {s : State} {x y : Int} (h : visible s x y = true) : 0 ≤ x ∧ x < 65536 ∧ 0 ≤ y := by
  have := (visible_iff s x y).mp h
  have := s.cfgWidth.isLt
  simp only [nat16] at *
  omega

/-- The last visible write of a key. -/
theorem memRead_latest (s : State) (ps : List Paint) {x y : Int} (hx : 0 ≤ x ∧ x < 65536) (hy : 0 ≤ y) :
    memRead (memLatest (fbWrites s ps)) (fbKey x y) = if visible s x y = true then paintedAt ps x y else none := by
  induction ps with
  | nil => simp [fbWrites, memLatest, memRead, paintedAt]
  | cons p ps ih =>
    by_cases hv : visible s p.x p.y = true
    · have hw : fbWrites s (p :: ps) = (fbKey p.x p.y, p.color) :: fbWrites s ps := by simp [fbWrites, hv]
      have hb := visible_bounds hv
      rw [hw, memLatest, List.foldr_cons, ← memLatest, memRead_add _ _ _ _ (memWf_latest _), ih, paintedAt]
      by_cases he : p.x = x ∧ p.y = y
      · obtain ⟨rfl, rfl⟩ := he
        simp [hv]
      · have hk : fbKey x y ≠ fbKey p.x p.y := by
          intro hk
          have := fbKey_inj hx hy ⟨hb.1, hb.2.1⟩ hb.2.2 hk
          exact he ⟨this.1.symm, this.2.symm⟩
        simp [hk, he]
    · have hw : fbWrites s (p :: ps) = fbWrites s ps := by simp [fbWrites, hv]
      rw [hw, ih, paintedAt]
      by_cases he : p.x = x ∧ p.y = y
      · obtain ⟨rfl, rfl⟩ := he
        simp [hv]
      · simp [he]

/-- FB after a list of pixel writes (R147). -/
theorem fbRead_paint {s t : State} (ps : List Paint) (x y : Int) (h : memWf s.fb = true) (ht : t.fb = paintFb s ps) :
    fbRead t x y = if visible s x y = true then (paintedAt ps x y).or (fbRead s x y) else fbRead s x y := by
  simp only [fbRead, ht]
  by_cases hc : 0 ≤ x ∧ x < 65536 ∧ 0 ≤ y
  · rw [if_pos hc, if_pos hc, paintFb, memRead_merge _ (memWf_latest _) h, memRead_latest s ps ⟨hc.1, hc.2.1⟩ hc.2.2]
    split <;> simp
  · rw [if_neg hc, if_neg hc]
    have : visible s x y ≠ true := fun hv => hc (visible_bounds hv)
    simp [this]

/-! ## A drawing command's end -/

/-- A list of transactions that meet the window obligations leaves what `Drawing` says. -/
theorem drawing_drawn {s : State} {ds : List Draw} (len : Nat) (hr : drawReady s) (h : ∀ d ∈ ds, drawOk s d) :
    Drawing s (drawn ds len s) len (ds.flatMap drawPixels) := by
  obtain ⟨-, h1, -, h3, -, h5, h6, -, h8⟩ := hr
  have hp := paintsOf_settle ds h5 h6 h
  have hw : (drawn ds len s).wire = s.wire ++ drawEvents ds s := by simp [drawn]
  have hf : framesFrom s.dc none (drawEvents ds s) = ds.map (drawFrame s) := by
    simpa [framesFrom] using framesFrom_drawEvents ds s s.dc none [] h5
  refine ⟨by simp [drawn], by simp [drawn, hp], fun x y => fbRead_paint _ x y h8 ?_,
    ⟨drawEvents ds s, ds.map (drawFrame s), hw, by simp [drawn], selAfter_drawEvents ds s, hf, ?_, paints_drawFrames ds h6 h⟩, ?_⟩
  · simp only [drawn, advance_fb, emitAll_fb, hp]
    simp [paintFb, fbWrites, visible]
  · rw [frameView_append hw, newFrames_drawEvents ds h5]
  · have hsel := selAfter_drawEvents ds s
    rw [← h3] at hsel
    obtain ⟨a, b, g, hset⟩ : ∃ a b g, settle ds s = { s with bufData := a, bufTag := b, glyphBuf := g } :=
      ⟨_, _, _, settle_frame s ds⟩
    rw [h3] at hsel
    simp only [drawn, hset, advance, paint, emitAll, h3, hsel, h1]

/-! ## Clipping is keeping the visible points (43_primitives.md R160 (c), R161 to R164) -/

theorem intRange_empty {a b : Int} (h : b ≤ a) : intRange a b = [] := by
  rw [intRange, show (b - a).toNat = 0 by omega]; rfl

theorem intRange_split {a m b : Int} (h1 : a ≤ m) (h2 : m ≤ b) : intRange a b = intRange a m ++ intRange m b := by
  obtain ⟨i, rfl⟩ : ∃ i : Nat, m = a + i := ⟨(m - a).toNat, by omega⟩
  obtain ⟨j, rfl⟩ : ∃ j : Nat, b = a + i + j := ⟨(b - (a + i)).toNat, by omega⟩
  simp only [intRange]
  rw [show (a + i + j - a).toNat = i + j by omega, show (a + i - a).toNat = i by omega,
    show (a + i + j - (a + i)).toNat = j by omega, List.range_add, List.map_append, List.map_map]
  congr 1
  apply List.map_congr_left
  intro k _
  simp only [Function.comp_apply]
  omega

/-- Keeping the part of a range between two bounds. -/
theorem intRange_filter (a b c d : Int) :
    (intRange a b).filter (fun x => decide (c ≤ x ∧ x < d)) = intRange (max a c) (min b d) := by
  by_cases h : min b d ≤ max a c
  · rw [intRange_empty h, List.filter_eq_nil_iff]
    intro x hx
    have := mem_intRange.mp hx
    simp only [decide_eq_true_eq]
    omega
  · rw [intRange_split (a := a) (m := max a c) (b := b) (by omega) (by omega),
      intRange_split (a := max a c) (m := min b d) (b := b) (by omega) (by omega), List.filter_append,
      List.filter_append]
    have h1 : (intRange a (max a c)).filter (fun x => decide (c ≤ x ∧ x < d)) = [] := by
      rw [List.filter_eq_nil_iff]
      intro x hx
      have := mem_intRange.mp hx
      simp only [decide_eq_true_eq]
      omega
    have h2 : (intRange (max a c) (min b d)).filter (fun x => decide (c ≤ x ∧ x < d)) = intRange (max a c) (min b d) := by
      rw [List.filter_eq_self]
      intro x hx
      have := mem_intRange.mp hx
      simp only [decide_eq_true_eq]
      omega
    have h3 : (intRange (min b d) b).filter (fun x => decide (c ≤ x ∧ x < d)) = [] := by
      rw [List.filter_eq_nil_iff]
      intro x hx
      have := mem_intRange.mp hx
      simp only [decide_eq_true_eq]
      omega
    rw [h1, h2, h3, List.append_nil, List.nil_append]

theorem flatMap_guard {α β : Type} (l : List α) (p : α → Bool) (g : α → List β) :
    l.flatMap (fun a => if p a = true then g a else []) = (l.filter p).flatMap g := by
  induction l with
  | nil => rfl
  | cons a l ih =>
    rw [List.flatMap_cons, ih, List.filter_cons]
    split <;> simp

/-- The visible points of a window are those of the clipped window, in order. -/
theorem windowPoints_filter (s : State) (w : Window) :
    (windowPoints w).filter (fun p => visible s p.1 p.2)
      = windowPoints ⟨max w.x0 0, max w.y0 0, min (w.x1 + 1) (nat16 s.cfgWidth) - 1,
          min (w.y1 + 1) (nat16 s.cfgHeight) - 1⟩ := by
  simp only [windowPoints, List.filter_flatMap, List.filter_map]
  rw [show min (w.y1 + 1) (nat16 s.cfgHeight) - 1 + 1 = min (w.y1 + 1) (nat16 s.cfgHeight) by omega,
    show min (w.x1 + 1) (nat16 s.cfgWidth) - 1 + 1 = min (w.x1 + 1) (nat16 s.cfgWidth) by omega,
    ← intRange_filter, ← intRange_filter, ← flatMap_guard]
  congr 1
  funext y
  by_cases hy : 0 ≤ y ∧ y < nat16 s.cfgHeight
  · rw [if_pos (decide_eq_true hy)]
    congr 1
    apply List.filter_congr
    intro x _
    rw [Function.comp_apply, Bool.eq_iff_iff, visible_iff, decide_eq_true_eq]
    exact ⟨fun h => ⟨h.1, h.2.1⟩, fun h => ⟨h.1, h.2, hy⟩⟩
  · rw [if_neg (by simpa using hy)]
    rw [List.map_eq_nil_iff, List.filter_eq_nil_iff]
    intro x _ hv
    exact hy ((visible_iff s x y).mp hv).2.2

theorem windowPoints_empty {w : Window} (h : w.x1 < w.x0 ∨ w.y1 < w.y0) : windowPoints w = [] := by
  rcases h with h | h
  · rw [windowPoints, intRange_empty (a := w.x0) (by omega)]; simp
  · rw [windowPoints, intRange_empty (a := w.y0) (by omega)]; rfl

/-- The visible points of a rectangle. -/
theorem clipped_rect (s : State) (c : Color) (x y w h : Int) :
    clipped s c (rectPoints x y w h)
      = (windowPoints ⟨max x 0, max y 0, min (x + w) (nat16 s.cfgWidth) - 1, min (y + h) (nat16 s.cfgHeight) - 1⟩).map
          (fun p => ⟨p.1, p.2, c⟩) := by
  rw [clipped, rectPoints, windowPoints_filter]
  simp only [Int.sub_add_cancel]

/-- `PlotPixel` paints its point if it is visible (R161). -/
theorem plotPixel_pixels (s : State) (c : Color) (p : Int × Int) :
    (plotPixel s c p).flatMap drawPixels = clipped s c [p] := by
  rw [plotPixel, clipped]
  split <;> simp [*]

/-- A list of points paints the visible ones (R161). -/
theorem plotAll_pixels (s : State) (c : Color) (ps : List (Int × Int)) :
    (plotAll s c ps).flatMap drawPixels = clipped s c ps := by
  induction ps with
  | nil => rfl
  | cons p ps ih =>
    rw [plotAll, List.flatMap_cons, List.flatMap_append, ← plotAll, ih, plotPixel_pixels, clipped, clipped, clipped,
      ← List.map_append, ← List.filter_append, List.singleton_append]

/-- `FillBox` paints the visible points of its rectangle (R164). -/
theorem fillBox_pixels (s : State) (x y w h : Int) (c : Color) :
    (fillBox s x y w h c).flatMap drawPixels = clipped s c (rectPoints x y w h) := by
  rw [clipped_rect]
  simp only [fillBox]
  split
  · rw [windowPoints_empty (by simp only []; omega)]; rfl
  · split
    · rw [windowPoints_empty (by simp only []; omega)]; rfl
    · rw [List.flatMap_singleton, drawPixels_fill (by simp only []; omega) (by simp only []; omega)]

/-- `HSpan` paints the visible points of its row (R162). -/
theorem hSpan_pixels (s : State) (x y w : Int) (c : Color) :
    (hSpan s x y w c).flatMap drawPixels = clipped s c (rectPoints x y w 1) := by
  rw [clipped_rect]
  simp only [hSpan]
  split
  · rw [windowPoints_empty (by simp only [nat16] at *; omega)]; rfl
  · split
    · rw [windowPoints_empty (by simp only []; omega)]; rfl
    · rw [List.flatMap_singleton, drawPixels_fill (by simp only []; omega) (by simp only []; omega)]
      rw [show max y 0 = y by omega, show min (y + 1) (nat16 s.cfgHeight) - 1 = y by omega]

/-- `VSpan` paints the visible points of its column (R163). -/
theorem vSpan_pixels (s : State) (x y h : Int) (c : Color) :
    (vSpan s x y h c).flatMap drawPixels = clipped s c (rectPoints x y 1 h) := by
  rw [clipped_rect]
  simp only [vSpan]
  split
  · rw [windowPoints_empty (by simp only [nat16] at *; omega)]; rfl
  · split
    · rw [windowPoints_empty (by simp only []; omega)]; rfl
    · rw [List.flatMap_singleton, drawPixels_fill (by simp only []; omega) (by simp only []; omega)]
      rw [show max x 0 = x by omega, show min (x + 1) (nat16 s.cfgWidth) - 1 = x by omega]

/-- A glyph paints its visible pixels, on either path (44_text.md R204 to R207). -/
theorem glyphDraws_pixels (s : State) (f : Font) (g : Glyph) (cx cy : Int) (fg bg : Color) :
    (glyphDraws s f g cx cy fg bg).flatMap drawPixels = glyphPaints s f g cx cy fg bg := by
  rw [glyphPaints, rectPoints, windowPoints_filter]
  simp only [glyphDraws, glyphWindow, Int.sub_add_cancel]
  generalize cx + offset8 g.xOffset = gx
  generalize cy + offset8 g.yOffset = gy
  split
  · rename_i hw
    split at hw
    · rw [windowPoints_empty (by simp only []; omega)]; rfl
    · cases hw
  · rename_i w hw
    split at hw
    · cases hw
    · rename_i hne
      obtain rfl := Option.some.inj hw
      split
      · rw [List.flatMap_singleton, drawPixels_blit (by simp only []; omega)]
      · rw [List.flatMap_assoc]
        rw [List.map_eq_flatMap]
        rw [List.flatMap_def, List.flatMap_def]
        congr 1
        apply List.map_congr_left
        intro p hp
        have := mem_windowPoints.mp hp
        simp only [] at this
        rw [plotPixel, if_pos ((visible_iff s p.1 p.2).mpr (by omega))]
        simp

/-! ## The frames of the clipped shapes (43_primitives.md R161 to R164, 42_transfer_window.md R137) -/

/-- A rectangle with nothing visible has no frame. -/
theorem boxFrame_none {s : State} {x y w h : Int} (c : Color)
    (hn : min (x + w) (nat16 s.cfgWidth) ≤ max x 0 ∨ min (y + h) (nat16 s.cfgHeight) ≤ max y 0) :
    boxFrame s x y w h c = [] := by
  simp only [nat16] at hn
  exact if_neg (by omega)

/-- Otherwise its frame is that of the fill of its clipped window. -/
theorem boxFrame_some {s : State} {x y w h : Int} (c : Color) {v : Window} (hx0 : v.x0 = max x 0)
    (hx1 : v.x1 = min (x + w) (nat16 s.cfgWidth) - 1) (hy0 : v.y0 = max y 0)
    (hy1 : v.y1 = min (y + h) (nat16 s.cfgHeight) - 1) (hx : v.x0 ≤ v.x1) (hy : v.y0 ≤ v.y1) :
    boxFrame s x y w h c = [drawFrame s (.fill v c)] := by
  simp only [nat16] at hx1 hy1
  rw [drawFrame, drawColors, List.flatMap_replicate]
  simp only [drawWindow, windowArea, trunc16, nat16, boxFrame]
  rw [if_pos (by omega), ← hx0, ← hy0, show v.x1 - v.x0 + 1 = min (x + w) (s.cfgWidth.toNat : Int) - v.x0 by omega,
    show v.y1 - v.y0 + 1 = min (y + h) (s.cfgHeight.toNat : Int) - v.y0 by omega, hx1, hy1]

/-- `FillBox`'s frame (R164). -/
theorem fillBox_frames (s : State) (x y w h : Int) (c : Color) :
    (fillBox s x y w h c).map (drawFrame s) = boxFrame s x y w h c := by
  simp only [fillBox]
  by_cases h1 : w ≤ 0 ∨ h ≤ 0
  · rw [if_pos h1, boxFrame_none c (by omega)]; rfl
  · rw [if_neg h1]
    split
    · rw [boxFrame_none c (by assumption)]; rfl
    · rw [boxFrame_some c (v := ⟨_, _, _, _⟩) rfl rfl rfl rfl (by dsimp only; omega) (by dsimp only; omega)]; rfl

/-- `HSpan`'s frame (R162). -/
theorem hSpan_frames (s : State) (x y w : Int) (c : Color) :
    (hSpan s x y w c).map (drawFrame s) = boxFrame s x y w 1 c := by
  simp only [hSpan]
  by_cases h1 : w ≤ 0 ∨ y < 0 ∨ nat16 s.cfgHeight ≤ y
  · rw [if_pos h1, boxFrame_none c (by omega)]; rfl
  · rw [if_neg h1]
    split
    · rw [boxFrame_none c (by omega)]; rfl
    · rw [boxFrame_some c (v := ⟨max x 0, y, _, y⟩) rfl rfl (by dsimp only; omega) (by dsimp only; omega)
        (by dsimp only; omega) (Int.le_refl y)]; rfl

/-- `VSpan`'s frame (R163). -/
theorem vSpan_frames (s : State) (x y h : Int) (c : Color) :
    (vSpan s x y h c).map (drawFrame s) = boxFrame s x y 1 h c := by
  simp only [vSpan]
  by_cases h1 : h ≤ 0 ∨ x < 0 ∨ nat16 s.cfgWidth ≤ x
  · rw [if_pos h1, boxFrame_none c (by omega)]; rfl
  · rw [if_neg h1]
    split
    · rw [boxFrame_none c (by omega)]; rfl
    · rw [boxFrame_some c (v := ⟨x, max y 0, x, _⟩) (by dsimp only; omega) (by dsimp only; omega) rfl rfl
        (Int.le_refl x) (by dsimp only; omega)]; rfl

/-- `PlotPixel`'s frame (R161). -/
theorem plotPixel_frames (s : State) (c : Color) (p : Int × Int) :
    (plotPixel s c p).map (drawFrame s) = boxFrame s p.1 p.2 1 1 c := by
  rw [plotPixel]
  split
  · rename_i hv
    have hv := (visible_iff s _ _).mp hv
    rw [boxFrame_some c (v := ⟨p.1, p.2, p.1, p.2⟩) (by dsimp only; omega) (by dsimp only; omega)
      (by dsimp only; omega) (by dsimp only; omega) (Int.le_refl _) (Int.le_refl _)]
    simp [drawFrame, drawColors, drawWindow, windowArea]
  · rename_i hv
    rw [visible_iff] at hv
    rw [boxFrame_none c (by omega)]; rfl

/-- The transactions of a glyph, on either path, told from its visible pixels (44_text.md R203 to R207). -/
theorem glyphDraws_cases (s : State) (f : Font) (g : Glyph) (cx cy : Int) (fg bg : Color) :
    let ps := glyphPaints s f g cx cy fg bg
    (ps.length = 0 ∧ glyphDraws s f g cx cy fg bg = [])
      ∨ (ps.length ≠ 0 ∧ ps.length < 1600 ∧ glyphDraws s f g cx cy fg bg
          = [.blit
              ⟨max (cx + g.xOffset.toInt) 0, max (cy + g.yOffset.toInt) 0,
                min (cx + g.xOffset.toInt + g.width.toNat) s.cfgWidth.toNat - 1,
                min (cy + g.yOffset.toInt + g.height.toNat) s.cfgHeight.toNat - 1⟩
              (ps.map (fun p => p.color))])
      ∨ (1600 ≤ ps.length ∧ (∀ p ∈ ps, visible s p.x p.y = true)
          ∧ glyphDraws s f g cx cy fg bg = ps.map (fun p => .pixel p.x p.y p.color)) := by
  intro ps
  have hps : ps = (glyphDraws s f g cx cy fg bg).flatMap drawPixels := (glyphDraws_pixels s f g cx cy fg bg).symm
  cases hw : glyphWindow s g cx cy with
  | none =>
    have hd : glyphDraws s f g cx cy fg bg = [] := by rw [glyphDraws, hw]
    exact .inl ⟨by rw [hps, hd]; rfl, hd⟩
  | some w =>
    right
    have hc := hw
    simp only [glyphWindow] at hc
    split at hc
    · cases hc
    · rename_i hne
      have hwx : w.x0 ≤ w.x1 := by cases hc; dsimp only; omega
      have hwy : w.y0 ≤ w.y1 := by cases hc; dsimp only; omega
      have hlen := windowPoints_length hwx hwy
      have hpos : windowArea w ≠ 0 := by
        have : 0 < (w.x1 - w.x0 + 1) * (w.y1 - w.y0 + 1) := Int.mul_pos (by omega) (by omega)
        rw [windowArea]
        omega
      by_cases hlt : windowArea w < 1600
      · left
        have hd : glyphDraws s f g cx cy fg bg
            = [.blit w ((windowPoints w).map (glyphColor f g cx cy fg bg))] := by
          simp only [glyphDraws, hw]
          exact if_pos hlt
        rw [hd, List.flatMap_singleton, drawPixels_blit hwx] at hps
        have hl : ps.length = windowArea w := by rw [hps, List.length_map, hlen]
        refine ⟨by omega, by omega, ?_⟩
        rw [hd, hps, List.map_map]
        obtain rfl := Option.some.inj hc
        rfl
      · right
        have hv : ∀ p ∈ windowPoints w, visible s p.1 p.2 = true := fun p hp => by
          have := mem_windowPoints.mp hp
          exact (visible_iff s p.1 p.2).mpr (by cases hc; dsimp only at this; omega)
        have hd : glyphDraws s f g cx cy fg bg
            = (windowPoints w).map (fun p => .pixel p.1 p.2 (glyphColor f g cx cy fg bg p)) := by
          simp only [glyphDraws, hw]
          refine (if_neg hlt).trans ?_
          rw [List.map_eq_flatMap, List.flatMap_def, List.flatMap_def]
          congr 1
          apply List.map_congr_left
          intro p hp
          rw [plotPixel, if_pos (hv p hp)]
        have hps' : ps = (windowPoints w).map (fun p => ⟨p.1, p.2, glyphColor f g cx cy fg bg p⟩) := by
          rw [hps, hd, List.flatMap_map, List.map_eq_flatMap]
          simp
        refine ⟨by rw [hps', List.length_map, hlen]; omega, ?_, ?_⟩
        · rw [hps']
          intro p hp
          obtain ⟨q, hq, rfl⟩ := List.mem_map.mp hp
          exact hv q hq
        · rw [hd, hps', List.map_map]
          rfl

/-- A glyph's frames, on either path (44_text.md R205 to R207). -/
theorem glyphDraws_frames (s : State) (f : Font) (g : Glyph) (cx cy : Int) (fg bg : Color) :
    (glyphDraws s f g cx cy fg bg).map (drawFrame s) = glyphFrames s f g cx cy fg bg := by
  rw [glyphFrames]
  rcases glyphDraws_cases s f g cx cy fg bg with ⟨h, hd⟩ | ⟨h, hlt, hd⟩ | ⟨h, hv, hd⟩
  · rw [hd, if_pos h]; rfl
  · rw [hd, if_neg h, if_pos hlt]
    simp [drawFrame, drawWindow, drawColors, trunc16, nat16, List.flatMap_map]
  · rw [hd, if_neg (by omega), if_neg (by omega), List.map_map, List.map_eq_flatMap, List.flatMap_def,
      List.flatMap_def]
    congr 1
    apply List.map_congr_left
    intro p hp
    have := plotPixel_frames s p.color (p.x, p.y)
    rw [plotPixel, if_pos (hv p hp)] at this
    exact this

/-- What a glyph does, in order, on either path (44_text.md R205 to R207). -/
theorem glyphDraws_order (s : State) (f : Font) (g : Glyph) (cx cy : Int) (fg bg : Color) :
    (glyphDraws s f g cx cy fg bg).flatMap (drawOrder s) = glyphActions s f g cx cy fg bg := by
  rw [glyphActions]
  rcases glyphDraws_cases s f g cx cy fg bg with ⟨h, hd⟩ | ⟨h, hlt, hd⟩ | ⟨h, -, hd⟩
  · rw [hd, if_pos h]; rfl
  · rw [hd, if_neg h, if_pos hlt, List.flatMap_singleton, drawOrder, List.flatMap_map]
  · rw [hd, if_neg (by omega), if_neg (by omega), List.flatMap_map]
    rfl

/-- The spans' frames (43_primitives.md R173). -/
theorem spanAll_frames (s : State) (c : Color) (ps : List Span) :
    (spanAll s c ps).map (drawFrame s) = ps.flatMap (fun p => boxFrame s p.x p.y p.w 1 c) := by
  simp only [spanAll, List.map_flatMap, hSpan_frames]

/-- The points' frames. -/
theorem plotAll_frames (s : State) (c : Color) (ps : List (Int × Int)) :
    (plotAll s c ps).map (drawFrame s) = pointFrames s c ps := by
  simp only [plotAll, pointFrames, List.map_flatMap, plotPixel_frames]

/-- The frames a list of transactions has added when it ends. -/
theorem frameView_drawn {s : State} (ds : List Draw) (len : Nat) (h : bufUsable s) :
    frameView (drawn ds len s) = frameView s ++ ds.map (drawFrame s) := by
  rw [frameView_append (s := s) (es := drawEvents ds s) (by simp [drawn]), newFrames_drawEvents ds h]

end Sys2Proof.Machine
end

