-- ==== Sys2Proof/Laws/Buffers.lean ====
section
/-! SUPPORT. What a drawing command leaves in the transfer buffer and in GLYPH_BUF (42_transfer_window.md R142 to
R144, 44_text.md R206, R207). -/

namespace Sys2Proof.Machine

/-- A pixel: no buffer work (42_transfer_window.md R144). -/
def isPixel (d : Draw) : Prop := ∃ x y c, d = .pixel x y c

/-- Pixels leave the buffers alone. -/
theorem settle_pixels {ds : List Draw} {s : State} (h : ∀ d ∈ ds, isPixel d) : settle ds s = s := by
  induction ds with
  | nil => rfl
  | cons d ds ih =>
    obtain ⟨x, y, c, rfl⟩ := h d List.mem_cons_self
    rw [settle_cons]; exact ih (fun d hd => h d (List.mem_cons_of_mem _ hd))

/-- A list of points is pixels only. -/
theorem isPixel_plotAll {s : State} {c pts} : ∀ d ∈ plotAll s c pts, isPixel d := by
  intro d hd
  obtain ⟨p, -, hp⟩ := List.mem_flatMap.mp hd
  rw [plotPixel] at hp
  split at hp
  · exact ⟨_, _, _, List.mem_singleton.mp hp⟩
  · simp at hp

/-- A command of pixels keeps the buffers. -/
theorem buffersKept_drawn {ds : List Draw} {len} {s : State} (h : ∀ d ∈ ds, isPixel d) :
    buffersKept s (drawn ds len s) := by
  simp [buffersKept, drawn, settle_pixels h]

/-- A bulk fill with c. -/
def isFill (c : Color) (d : Draw) : Prop := ∃ w, d = .fill w c

/-- Bulk fills with c leave c in the transfer buffer (R142). -/
theorem settle_isFill {ds : List Draw} {s : State} {c} (hb : bufUsable s) (h : ∀ d ∈ ds, isFill c d) :
    (settle ds s).glyphBuf = s.glyphBuf ∧ (ds ≠ [] → (settle ds s).bufTag = some c ∧
        (settle ds s).bufData = fillBytes (s.bufBytes.toNat / 2) c) := by
  induction ds generalizing s with
  | nil => simp
  | cons d ds ih =>
    obtain ⟨w, rfl⟩ := h _ List.mem_cons_self
    rw [settle_cons]
    have hb' : bufUsable (refresh c s) := by
      refine ⟨hb.1, hb.2.1, fun c' hc' => ?_⟩
      simp at hc'; subst hc'
      simp
      intro ht; exact hb.2.2 _ ht
    have hx := ih hb' (fun d hd => h d (List.mem_cons_of_mem _ hd))
    refine ⟨hx.1, fun _ => ?_⟩
    by_cases hd : ds = []
    · subst hd
      refine ⟨by simp [prepare], ?_⟩
      simp [prepare]
      intro ht; exact hb.2.2 _ ht
    · exact hx.2 hd

/-- A command of bulk fills with c. -/
theorem buffersFilled_drawn {ds : List Draw} {len} {s : State} {c} (hb : bufUsable s) (h : ∀ d ∈ ds, isFill c d)
    (hok : ∀ d ∈ ds, drawOk s d) : buffersFilled s (drawn ds len s) c (ds.flatMap drawPixels) := by
  have hs := settle_isFill hb h
  have hne : ds.flatMap drawPixels = [] → ds = [] := by
    intro he
    cases ds with
    | nil => rfl
    | cons d ds =>
      exfalso
      obtain ⟨w, rfl⟩ := h _ List.mem_cons_self
      have := hok _ List.mem_cons_self
      simp only [drawOk, drawWindow] at this
      rw [List.flatMap_cons, List.append_eq_nil_iff] at he
      rw [drawPixels_fill (by omega) (by omega)] at he
      have hm : (w.x0, w.y0) ∈ windowPoints w := mem_windowPoints.mpr (by simp; omega)
      rw [List.map_eq_nil_iff.mp he.1] at hm
      cases hm
  refine ⟨fun he => ?_, fun he => ?_, by simpa [drawn] using hs.1⟩
  · rw [hne he]; exact ⟨rfl, rfl⟩
  · have := hs.2 (fun hd => he (by rw [hd]; rfl))
    simpa [drawn] using this.symm

/-- HSpan isFill (R162). -/
theorem isFill_hSpan {s x y w c} : ∀ d ∈ hSpan s x y w c, isFill c d := by
  intro d hd; simp only [hSpan] at hd
  split at hd; · simp at hd
  split at hd; · simp at hd
  exact ⟨_, List.mem_singleton.mp hd⟩

/-- VSpan isFill (R163). -/
theorem isFill_vSpan {s x y w c} : ∀ d ∈ vSpan s x y w c, isFill c d := by
  intro d hd; simp only [vSpan] at hd
  split at hd; · simp at hd
  split at hd; · simp at hd
  exact ⟨_, List.mem_singleton.mp hd⟩

/-- FillBox isFill (R164). -/
theorem isFill_fillBox {s x y w h c} : ∀ d ∈ fillBox s x y w h c, isFill c d := by
  intro d hd; simp only [fillBox] at hd
  split at hd; · simp at hd
  split at hd; · simp at hd
  exact ⟨_, List.mem_singleton.mp hd⟩

/-- Spans fill (43_primitives.md R173). -/
theorem isFill_spanAll {s c ps} : ∀ d ∈ spanAll s c ps, isFill c d := by
  intro d hd
  obtain ⟨p, -, hp⟩ := List.mem_flatMap.mp hd
  exact isFill_hSpan d hp

/-- The outline's segments fill (43_primitives.md R170). -/
theorem isFill_rectDraws {s x y w h c} : ∀ d ∈ rectDraws s x y w h c, isFill c d := by
  intro d hd
  rw [rectDraws] at hd
  split at hd
  · simp only [List.mem_append] at hd
    rcases hd with ((hd | hd) | hd) | hd
    · exact isFill_hSpan d hd
    · exact isFill_hSpan d hd
    · exact isFill_vSpan d hd
    · exact isFill_vSpan d hd
  · simp at hd

/-- Not a bulk fill: no use of the transfer buffer (42_transfer_window.md R144). -/
def noFill (d : Draw) : Prop := ∀ w c, d ≠ .fill w c

/-- Not a buffered glyph: no use of GLYPH_BUF (44_text.md R206, R207). -/
def noBlit (d : Draw) : Prop := ∀ w ks, d ≠ .blit w ks

theorem noFill_of_isPixel {d : Draw} (h : isPixel d) : noFill d := by
  obtain ⟨x, y, c, rfl⟩ := h
  intro w k hk
  cases hk

theorem noBlit_of_isPixel {d : Draw} (h : isPixel d) : noBlit d := by
  obtain ⟨x, y, c, rfl⟩ := h
  intro w ks hk
  cases hk

theorem noBlit_of_isFill {c : Color} {d : Draw} (h : isFill c d) : noBlit d := by
  obtain ⟨w, rfl⟩ := h
  intro v ks hk
  cases hk

/-- Without a bulk fill the transfer buffer stands. -/
theorem settle_noFill {ds : List Draw} {s : State} (h : ∀ d ∈ ds, noFill d) :
    (settle ds s).bufData = s.bufData ∧ (settle ds s).bufTag = s.bufTag := by
  induction ds generalizing s with
  | nil => exact ⟨rfl, rfl⟩
  | cons d ds ih =>
    have hd := h d List.mem_cons_self
    have hr := ih (s := prepare d s) (fun d hd => h d (List.mem_cons_of_mem _ hd))
    rw [settle_cons, hr.1, hr.2]
    cases d with
    | pixel x y c => exact ⟨rfl, rfl⟩
    | fill w c => exact absurd rfl (hd w c)
    | blit w ks => exact ⟨rfl, rfl⟩

/-- A glyph is no bulk fill (44_text.md R206, R207). -/
theorem noFill_glyphDraws {s f g cx cy fg bg} : ∀ d ∈ glyphDraws s f g cx cy fg bg, noFill d := by
  intro d hd
  simp only [glyphDraws] at hd
  split at hd
  · cases hd
  · split at hd
    · obtain rfl := List.mem_singleton.mp hd
      intro w c h
      cases h
    · obtain ⟨p, -, hp⟩ := List.mem_flatMap.mp hd
      rw [plotPixel] at hp
      split at hp
      · obtain rfl := List.mem_singleton.mp hp
        intro w c h
        cases h
      · cases hp

/-- Nor is a string (44_text.md R209). -/
theorem noFill_stringWalk {s : State} {f : Font} {fg bg : Color} (cx cy : Int) (cs : List Byte) :
    ∀ d ∈ (stringWalk s f fg bg cx cy cs).draws, noFill d := by
  induction cs generalizing cx cy with
  | nil => intro d hd; simp [stringWalk] at hd
  | cons c cs ih =>
    intro d hd
    rw [stringWalk] at hd
    split at hd
    · exact ih _ _ d hd
    · dsimp only at hd
      generalize (if decide (nat16 s.cfgWidth < cx + nat8 _) = true then (0 : Int) else cx) = cx' at hd
      generalize (if decide (nat16 s.cfgWidth < cx + nat8 _) = true then cy + nat8 f.yAdvance else cy) = cy' at hd
      split at hd
      · simp at hd
      · split at hd
        · exact ih _ _ d hd
        · split at hd
          · rcases List.mem_append.mp hd with hd | hd
            · exact noFill_glyphDraws d hd
            · exact ih _ _ d hd
          · simp at hd

/-- No transaction: only CP moves. -/
theorem drawn_nil (s : State) (len : Nat) (hr : s.running = none) :
    drawn [] len s = { s with cp := s.cp + BitVec.ofNat 32 len, latch := [] } := by
  simp only [drawn, settle_nil, drawEvents, emitAll_nil, advance]
  rw [← hr]

/-- What a glyph leaves in the buffers (44_text.md R206, R207; 10_state.md R31). -/
theorem glyphBuf_drawn (s : State) (f : Font) (g : Glyph) (cx cy : Int) (fg bg : Color) (len : Nat) :
    let ps := glyphPaints s f g cx cy fg bg
    let t := drawn (glyphDraws s f g cx cy fg bg) len s
    t.bufData = s.bufData ∧ t.bufTag = s.bufTag
      ∧ (ps.length < 1600 → t.glyphBuf = ps.map (fun p => p.color) ++ s.glyphBuf.drop ps.length)
      ∧ (1600 ≤ ps.length → t.glyphBuf = s.glyphBuf) := by
  dsimp only
  rw [← glyphDraws_pixels]
  have hok := drawOk_glyphDraws (s := s) (f := f) (g := g) (cx := cx) (cy := cy) (fg := fg) (bg := bg)
  simp only [drawn, advance_bufData, advance_bufTag, advance_glyphBuf, emitAll_bufData, emitAll_bufTag, emitAll_glyphBuf]
  generalize hd : glyphDraws s f g cx cy fg bg = ds at *
  simp only [glyphDraws] at hd
  split at hd
  · subst hd; simp
  · rename_i w hw
    split at hd
    · rename_i hlt
      subst hd
      have h1 := hok _ List.mem_cons_self
      simp only [drawOk, drawWindow] at h1
      simp only [glyphThreshold] at hlt
      simp only [settle_cons, settle_nil, prepare, List.flatMap_singleton]
      rw [drawPixels_blit (by omega)]
      simp only [List.length_map, windowPoints_length h1.2.1 h1.2.2.2.2.1, List.map_map]
      refine ⟨rfl, rfl, fun _ => ?_, fun h => by omega⟩
      simp only [loadGlyph]
      simp [windowPoints_length h1.2.1 h1.2.2.2.2.1]
    · rename_i hge
      have hn : ∀ d ∈ ds, isPixel d := by
        intro d hdd; subst hd
        obtain ⟨p, -, hp⟩ := List.mem_flatMap.mp hdd
        rw [plotPixel] at hp
        split at hp
        · exact ⟨_, _, _, List.mem_singleton.mp hp⟩
        · simp at hp
      rw [settle_pixels hn]
      refine ⟨rfl, rfl, fun h => ?_, fun _ => rfl⟩
      exfalso
      simp only [glyphWindow] at hw
      split at hw
      · cases hw
      · rename_i hne
        have hw := Option.some.inj hw
        have hlen : (ds.flatMap drawPixels).length = (windowPoints w).length := by
          subst hd
          rw [List.flatMap_assoc]
          have : ∀ l : List (Int × Int), (∀ p ∈ l, visible s p.1 p.2 = true) → (l.flatMap
              (fun x => List.flatMap drawPixels (plotPixel s (glyphColor f g cx cy fg bg x) x))).length = l.length
                  := by
            intro l
            induction l with
            | nil => simp
            | cons a l ih =>
              intro h
              rw [List.flatMap_cons, List.length_append, ih (fun p hp => h p
                  (List.mem_cons_of_mem _ hp)), plotPixel, if_pos (h a List.mem_cons_self)]
              simp; omega
          refine this _ (fun p hp => ?_)
          have := mem_windowPoints.mp hp
          subst hw
          simp only at this
          rw [visible_iff]; omega
        rw [hlen, windowPoints_length (by subst hw; simp only; omega) (by subst hw; simp only; omega)] at h
        simp only [glyphThreshold] at hge
        omega

end Sys2Proof.Machine
end

