-- ==== Sys2Proof/Laws/Decode.lean ====
section
/-! SUPPORT. The small lemmas of the decoder's and encoder's helpers (30_encoding.md R82, R83): the two byte fields of
a word, the FLAG word, the two halves of the hint, packed characters. -/

namespace Sys2Proof

@[simp] theorem lowByte_wordOf (a b : Byte) : lowByte (wordOf a b) = b := by
  apply BitVec.eq_of_getLsbD_eq
  intro i hi
  simp only [lowByte, wordOf, BitVec.getLsbD_extractLsb', BitVec.getLsbD_append]
  simp [hi]

@[simp] theorem highByte_wordOf (a b : Byte) : highByte (wordOf a b) = a := by
  apply BitVec.eq_of_getLsbD_eq
  intro i hi
  simp only [highByte, wordOf, BitVec.getLsbD_extractLsb', BitVec.getLsbD_append]
  simp [hi]

/-- A word is its two bytes. -/
theorem wordOf_bytes (w : Word) : wordOf (highByte w) (lowByte w) = w := by
  apply BitVec.eq_of_getLsbD_eq
  intro i hi
  simp only [wordOf, highByte, lowByte, BitVec.getLsbD_append, BitVec.getLsbD_extractLsb']
  split
  · rename_i h; simp [h]
  · rename_i h
    have : i - 8 < 8 := by omega
    simp [this, show 8 + (i - 8) = i by omega]

/-- A 32-bit value is its two halves. -/
theorem hint_split (h : BitVec 32) : (h.extractLsb' 16 16 ++ h.extractLsb' 0 16 : BitVec 32) = h := by
  apply BitVec.eq_of_getLsbD_eq
  intro i hi
  simp only [BitVec.getLsbD_append, BitVec.getLsbD_extractLsb']
  split
  · rename_i h; simp [h]
  · rename_i h
    have : i - 16 < 16 := by omega
    simp [this, show 16 + (i - 16) = i by omega]

/-- Two words are the halves of the value they make. -/
theorem halves_append (hi lo : Word) :
    (hi ++ lo : BitVec 32).extractLsb' 0 16 = lo ∧ (hi ++ lo : BitVec 32).extractLsb' 16 16 = hi := by
  constructor
  all_goals
    apply BitVec.eq_of_getLsbD_eq
    intro i hi
    simp only [BitVec.getLsbD_append, BitVec.getLsbD_extractLsb']
    simp [hi]

/-- The FLAG word of a boolean reads back as it. -/
theorem flag_read (on : Bool) : flagReserved (flagWord on) = 0 ∧ flagBit (flagWord on) = on := by
  cases on <;> decide

/-- A FLAG word with no reserved bit is that of its boolean. -/
theorem flag_write (w : Word) (h : flagReserved w = 0) : flagWord (flagBit w) = w := by
  apply BitVec.eq_of_getLsbD_eq
  intro i hi
  by_cases h0 : i = 0
  · subst h0
    show (flagWord (flagBit w)).getLsbD 0 = flagBit w
    cases flagBit w <;> rfl
  · have hb := congrArg (fun v : BitVec 15 => v.getLsbD (i - 1)) h
    simp only [flagReserved, BitVec.getLsbD_extractLsb', show 1 + (i - 1) = i by omega] at hb
    have : w.getLsbD i = false := by simpa [show i - 1 < 15 by omega] using hb
    rw [this]
    simp only [flagWord]
    split <;> simp [BitVec.getLsbD_one, h0]

/-- Unpacking packed characters. -/
theorem unpackChars_pack (cs : List Byte) (rest : List Word) :
    unpackChars cs.length (packChars cs ++ rest) = cs := by
  fun_induction packChars cs with
  | case1 => simp [unpackChars]
  | case2 a => simp [unpackChars]
  | case3 a b cs ih => simp [unpackChars, ih]

theorem packChars_length (cs : List Byte) : (packChars cs).length = charWords cs.length := by
  fun_induction packChars cs with
  | case1 => rfl
  | case2 => simp [charWords]
  | case3 a b cs ih => simp [ih, charWords]; omega

/-- The padding byte of packed characters is zero. -/
theorem padByte_pack (cs : List Byte) (rest : List Word) : padByte cs.length (packChars cs ++ rest) = 0 := by
  simp only [padByte]
  fun_induction packChars cs with
  | case1 => simp
  | case2 a => simp
  | case3 a b cs ih =>
    rw [List.length_cons, List.length_cons, show (cs.length + 1 + 1) % 2 = cs.length % 2 by omega,
      show (cs.length + 1 + 1) / 2 = cs.length / 2 + 1 by omega]
    simpa using ih

/-- Packing unpacked characters gives their words back, if the padding byte is zero. -/
theorem packChars_unpack (n : Nat) (ws : List Word) (h : charWords n ≤ ws.length) (hp : padByte n ws = 0) :
    packChars (unpackChars n ws) = ws.take (charWords n) := by
  fun_induction unpackChars n ws with
  | case1 => simp [packChars, charWords]
  | case2 n hn =>
    cases n with
    | zero => simp at hn
    | succ n => simp only [charWords, List.length_nil] at h; omega
  | case3 w ws =>
    have hw := wordOf_bytes w
    have : highByte w = 0 := by simpa [padByte] using hp
    rw [this] at hw
    simpa [packChars, charWords] using hw
  | case4 n w ws ih =>
    rw [packChars, ih (by simp [charWords] at *; omega) ?_, wordOf_bytes,
      show charWords (n + 2) = charWords n + 1 by simp [charWords]; omega, List.take_succ_cons]
    simp only [padByte] at *
    rw [show (n + 2) % 2 = n % 2 by omega, show (n + 2) / 2 = n / 2 + 1 by omega] at hp
    simpa using hp

theorem unpackChars_length (n : Nat) (ws : List Word) (h : charWords n ≤ ws.length) :
    (unpackChars n ws).length = n := by
  fun_induction unpackChars n ws with
  | case1 => rfl
  | case2 n hn =>
    cases n with
    | zero => simp at hn
    | succ n => simp only [charWords, List.length_nil] at h; omega
  | case3 => rfl
  | case4 n w ws ih => simp [charWords] at *; omega

end Sys2Proof
end

