-- ==== Sys2Proof/Laws/Frame.lean ====
section
/-! SUPPORT. What sending a command's events can do: which fields it leaves, what it appends, and how it ends or
waits. Every meaning goes through `drain`, so these say once what every frame statement needs. -/

namespace Sys2Proof.Machine

/-- What `drain` leaves: the results, the geometry, the buffer's size, the inputs (42_transfer_window.md R135). -/
theorem drain_frame (r : Running) (s : State) :
    drain r s
      = { s with
        cp := (drain r s).cp, latch := (drain r s).latch, engine := (drain r s).engine
        errCode := (drain r s).errCode, faultCp := (drain r s).faultCp, faultArg := (drain r s).faultArg
        bufData := (drain r s).bufData, bufTag := (drain r s).bufTag, glyphBuf := (drain r s).glyphBuf
        sel := (drain r s).sel, dc := (drain r s).dc, xferBusy := (drain r s).xferBusy, fb := (drain r s).fb
        wire := (drain r s).wire, paintLog := (drain r s).paintLog, running := (drain r s).running } := by
  rw [drain]
  split
  · rw [runActions_eq]
    cases r.ending <;> rfl
  · rw [runActions_eq]
    rfl

/-- What one stretch of a command leaves in the buffers: the writes up to the wait, and no later one
(70_reset_and_hazards.md R267, 44_text.md R206). -/
theorem drain_buffers (r : Running) (s : State) :
    (drain r s).bufData = (bufferWrites (splitAsync r.queue).1 s).bufData
      ∧ (drain r s).bufTag = (bufferWrites (splitAsync r.queue).1 s).bufTag
      ∧ (drain r s).glyphBuf = (bufferWrites (splitAsync r.queue).1 s).glyphBuf := by
  rw [drain]
  split
  · rename_i now h
    rw [h]
    cases r.ending <;> exact ⟨rfl, rfl, rfl⟩
  · rename_i now rest h
    rw [h]
    exact ⟨rfl, rfl, rfl⟩

/-- Without a refresh the transfer buffer stands. -/
theorem bufferWrites_noRefresh {q : List Action} (s : State) (h : ∀ c, Action.refresh c ∉ q) :
    (bufferWrites q s).bufData = s.bufData ∧ (bufferWrites q s).bufTag = s.bufTag := by
  induction q generalizing s with
  | nil => exact ⟨rfl, rfl⟩
  | cons a q ih =>
    have hq := fun c hc => h c (List.mem_cons_of_mem a hc)
    cases a with
    | emit e => exact ih s hq
    | refresh c => exact absurd List.mem_cons_self (h c)
    | loadGlyph ks => exact ih (loadGlyph ks s) hq

/-- Without a glyph GLYPH_BUF stands. -/
theorem bufferWrites_noGlyph {q : List Action} (s : State) (h : ∀ ks, Action.loadGlyph ks ∉ q) :
    (bufferWrites q s).glyphBuf = s.glyphBuf := by
  induction q generalizing s with
  | nil => rfl
  | cons a q ih =>
    have hq := fun ks hk => h ks (List.mem_cons_of_mem a hk)
    cases a with
    | emit e => exact ih s hq
    | refresh c => exact ih (refresh c s) hq
    | loadGlyph ks => exact absurd List.mem_cons_self (h ks)

/-- What one stretch did was in the queue, and so is what a wait leaves to do. -/
theorem drain_queue (r : Running) (s : State) :
    (∀ a ∈ (splitAsync r.queue).1, a ∈ r.queue)
      ∧ ∀ r', (drain r s).running = some r' → (splitAsync r.queue).2 = some r'.queue ∧ r'.ending = r.ending
        ∧ ∀ a ∈ r'.queue, a ∈ r.queue := by
  have hq := splitAsync_append r.queue
  refine ⟨fun a ha => by rw [← hq]; exact List.mem_append_left _ ha, fun r' h => ?_⟩
  rw [drain] at h
  split at h
  · cases hr : r.ending <;> rw [hr] at h <;> cases h
  · rename_i now rest hn
    rw [hn] at hq ⊢
    cases h
    exact ⟨rfl, rfl, fun a ha => by rw [← hq]; exact List.mem_append_right _ ha⟩

/-- A command without a bulk fill leaves the transfer buffer, also where it waits and afterwards
(42_transfer_window.md R144). -/
theorem perform_noFill {ds : List Draw} {e : Ending} {s : State} (h : ∀ d ∈ ds, noFill d) :
    (perform ds e s).bufData = s.bufData ∧ (perform ds e s).bufTag = s.bufTag
      ∧ ∀ r c, (perform ds e s).running = some r → Action.refresh c ∉ r.queue := by
  have hn : ∀ c, Action.refresh c ∉ drawActions ds s := fun c hc =>
    have ⟨w, hw⟩ := refresh_mem_drawActions hc
    h _ hw w c rfl
  have hb := drain_buffers ⟨drawActions ds s, e⟩ s
  have hq := drain_queue ⟨drawActions ds s, e⟩ s
  have hs := bufferWrites_noRefresh s (fun c hc => hn c (hq.1 _ hc))
  exact ⟨hb.1.trans hs.1, hb.2.1.trans hs.2, fun r c hr hc => hn c ((hq.2 r hr).2.2 _ hc)⟩

/-- A command without a buffered glyph leaves GLYPH_BUF, also where it waits and afterwards (10_state.md R31). -/
theorem perform_noBlit {ds : List Draw} {e : Ending} {s : State} (h : ∀ d ∈ ds, noBlit d) :
    (perform ds e s).glyphBuf = s.glyphBuf
      ∧ ∀ r ks, (perform ds e s).running = some r → Action.loadGlyph ks ∉ r.queue := by
  have hn : ∀ ks, Action.loadGlyph ks ∉ drawActions ds s := fun ks hk =>
    have ⟨w, hw⟩ := loadGlyph_mem_drawActions hk
    h _ hw w ks rfl
  have hb := drain_buffers ⟨drawActions ds s, e⟩ s
  have hq := drain_queue ⟨drawActions ds s, e⟩ s
  have hs := bufferWrites_noGlyph s (fun ks hk => hn ks (hq.1 _ hk))
  exact ⟨hb.2.2.trans hs, fun r ks hr hk => hn ks ((hq.2 r hr).2.2 _ hk)⟩

/-- A command of events alone writes no buffer, also where it waits and afterwards. -/
theorem launch_buffers (es : List WireEvent) (e : Ending) (s : State) :
    (launch es e s).bufData = s.bufData ∧ (launch es e s).bufTag = s.bufTag ∧ (launch es e s).glyphBuf = s.glyphBuf
      ∧ ∀ r, (launch es e s).running = some r →
        (∀ c, Action.refresh c ∉ r.queue) ∧ ∀ ks, Action.loadGlyph ks ∉ r.queue := by
  have hb := drain_buffers ⟨es.map .emit, e⟩ s
  have hq := drain_queue ⟨es.map .emit, e⟩ s
  have h1 := bufferWrites_noRefresh s (q := (splitAsync (es.map .emit)).1)
    (fun c hc => by simpa using hq.1 _ hc)
  have h2 := bufferWrites_noGlyph s (q := (splitAsync (es.map .emit)).1)
    (fun ks hk => by simpa using hq.1 _ hk)
  exact ⟨hb.1.trans h1.1, hb.2.1.trans h1.2, hb.2.2.trans h2, fun r hr =>
    ⟨fun c hc => by simpa using (hq.2 r hr).2.2 _ hc, fun ks hk => by simpa using (hq.2 r hr).2.2 _ hk⟩⟩

/-- The traces one stretch of a command leaves: the events it emits, the frames they close, and the pixels of those
frames under the shift in force (42_transfer_window.md R134, R146). -/
theorem drain_traces (r : Running) (s : State) :
    ∃ es, (drain r s).wire = s.wire ++ es ∧ frameView (drain r s) = frameView s ++ newFrames s es
      ∧ (drain r s).paintLog = s.paintLog ++ paintsOf s es := by
  have h : ∃ es, (drain r s).wire = s.wire ++ es ∧ (drain r s).paintLog = s.paintLog ++ paintsOf s es := by
    rw [drain]
    split
    · rename_i now hn
      rw [runActions_eq]
      cases r.ending <;> exact ⟨eventsOf now, rfl, rfl⟩
    · rename_i now rest hn
      rw [runActions_eq]
      exact ⟨eventsOf now, rfl, rfl⟩
  obtain ⟨es, hw, hp⟩ := h
  exact ⟨es, hw, frameView_append hw, hp⟩

/-- A command that has ended has done all its actions. -/
theorem drain_ended {r : Running} {s : State} (h : (drain r s).running = none) :
    drain r s = finish r.ending { runActions r.queue s with running := none } := by
  have hq := splitAsync_append r.queue
  rw [drain] at h ⊢
  split
  · rename_i now hn
    rw [hn] at hq
    rw [← hq]
    simp
  · rename_i now rest hn
    rw [hn] at h
    cases h

/-- The last action before a wait is an asynchronous piece. -/
theorem splitAsync_last {q now rest : List Action} (h : splitAsync q = (now, some rest)) :
    ∃ p bs, now = p ++ [.emit (.xfer .async bs)] := by
  induction q generalizing now with
  | nil => cases h
  | cons a q ih =>
    have skip : ∀ b : Action, (b :: (splitAsync q).1, (splitAsync q).2) = (now, some rest) →
        ∃ p bs, now = p ++ [.emit (.xfer .async bs)] := by
      intro b hb
      cases hs : splitAsync q with
      | mk x y =>
        rw [hs] at hb
        cases hb
        obtain ⟨p, bs, rfl⟩ := ih hs
        exact ⟨b :: p, bs, rfl⟩
    cases a with
    | emit e =>
      rw [splitAsync] at h
      split at h
      · rename_i ha
        cases h
        cases e with
        | xfer m bs => cases m with
          | async => exact ⟨[], bs, rfl⟩
          | sync => simp [isAsync] at ha
        | sel => simp [isAsync] at ha
        | desel => simp [isAsync] at ha
        | dc l => simp [isAsync] at ha
        | rst l => simp [isAsync] at ha
        | delay n => simp [isAsync] at ha
      · exact skip _ h
    | refresh c => exact skip _ h
    | loadGlyph ks => exact skip _ h

/-- Before a stretch's last event none is asynchronous (42_transfer_window.md R135). -/
theorem splitAsync_dropLast (q : List Action) : allSync (eventsOf (splitAsync q).1.dropLast) := by
  induction q with
  | nil => intro e he; cases he
  | cons a q ih =>
    have keep : ∀ p : List Action, allSync (eventsOf p.dropLast) →
        (∀ e, a = .emit e → isAsync e = false) → allSync (eventsOf (a :: p).dropLast) := by
      intro p hp ha
      cases p with
      | nil => intro e he; cases he
      | cons b p =>
        rw [List.dropLast_cons_of_ne_nil (List.cons_ne_nil _ _)]
        cases a with
        | emit x =>
          intro e he
          rcases List.mem_cons.mp he with rfl | he
          · exact ha _ rfl
          · exact hp e he
        | refresh c => exact hp
        | loadGlyph ks => exact hp
    cases a with
    | emit e =>
      rw [splitAsync]
      split
      · intro x hx; cases hx
      · rename_i h
        exact keep _ ih (fun x hx => by cases hx; simpa using h)
    | refresh c => exact keep _ ih (fun x hx => by cases hx)
    | loadGlyph ks => exact keep _ ih (fun x hx => by cases hx)

/-- Where there is no next part, no event is asynchronous. -/
theorem splitAsync_none {q now : List Action} (h : splitAsync q = (now, none)) : now = q ∧ allSync (eventsOf q) := by
  induction q generalizing now with
  | nil => cases h; exact ⟨rfl, fun e he => by cases he⟩
  | cons a q ih =>
    have go : ∀ now, (a :: (splitAsync q).1, (splitAsync q).2) = (now, none) →
        now = a :: q ∧ allSync (eventsOf q) := by
      intro now hn
      cases hs : splitAsync q with
      | mk x y =>
        rw [hs] at hn
        cases hn
        obtain ⟨rfl, h2⟩ := ih hs
        exact ⟨rfl, h2⟩
    cases a with
    | emit e =>
      rw [splitAsync] at h
      split at h
      · cases h
      · rename_i ha
        obtain ⟨h1, h2⟩ := go _ h
        refine ⟨h1, fun x hx => ?_⟩
        rcases List.mem_cons.mp hx with rfl | hx
        · simpa using ha
        · exact h2 x hx
    | refresh c => exact go _ h
    | loadGlyph ks => exact go _ h

/-- A command that waits has moved neither CP nor STATUS, XFER_BUSY is 1, and its last event is an asynchronous piece
(42_transfer_window.md R135). -/
theorem drain_waits {r : Running} {s : State} (h : (drain r s).running ≠ none) :
    (drain r s).xferBusy = true ∧ (drain r s).cp = s.cp ∧ (drain r s).engine = s.engine
      ∧ (drain r s).errCode = s.errCode ∧ (drain r s).faultCp = s.faultCp ∧ (drain r s).faultArg = s.faultArg
      ∧ ∃ bs, (drain r s).wire.getLast? = some (.xfer .async bs) := by
  rw [drain] at h ⊢
  split
  · rename_i now hn
    rw [hn] at h
    exact absurd (by cases r.ending <;> rfl) h
  · rename_i now rest hn
    obtain ⟨p, bs, rfl⟩ := splitAsync_last hn
    rw [runActions_eq]
    exact ⟨rfl, rfl, rfl, rfl, rfl, rfl, bs, by simp⟩

/-! ### What a gate, a step and P_INIT_SEQ can do -/

/-- A command's gate answers the state itself, NOT_READY, or its body (60_exceptions.md R232). -/
theorem gated_outcome {g : Gate} {opc : Word} {body : State → State} {s t : State} (h : gated g opc body s = t) :
    t = s ∨ t = raise .notReady opc s ∨ t = body s := by
  subst h
  rw [gated]
  split <;> simp

/-- What one step can do. -/
theorem step_outcome {s t : State} (h : step s = .next t) :
    t = transportStep s ∨ (∃ r, s.running = some r ∧ t = drain r s) ∨ t = s
      ∨ (s.running = none ∧ ∃ i, exec i (loadLatch i s) = .next t)
      ∨ (s.running = none ∧ ∃ code arg, t = raise code arg s) := by
  rw [step] at h
  split at h
  · injection h with h
    exact .inl h.symm
  · split at h
    · rename_i r hr
      injection h with h
      exact .inr (.inl ⟨r, hr, h.symm⟩)
    · rename_i hr
      simp only [fetchStep] at h
      split at h
      · injection h with h
        exact .inr (.inr (.inl h.symm))
      · split at h
        · cases h
        · split at h
          · injection h with h
            exact .inr (.inr (.inl h.symm))
          · split at h
            · cases h
            · split at h
              · exact .inr (.inr (.inr (.inl ⟨hr, _, h⟩)))
              · injection h with h
                exact .inr (.inr (.inr (.inr ⟨hr, _, _, h.symm⟩)))

/-- P_INIT_SEQ has no asynchronous piece where that mode does not exist (log 3). -/
theorem allSync_initSeq {p : Params} (h : p.raw.asyncEnable = false) : allSync p.raw.initSeq := by
  have all : ∀ b l, bracketedOk p.raw.maxXfer p.raw.asyncEnable b l = true → allSync l := by
    intro b l
    induction l generalizing b with
    | nil => intro _ e he; cases he
    | cons e l ih =>
      intro hb x hx
      cases e <;> simp only [bracketedOk, Bool.and_eq_true] at hb <;> rcases List.mem_cons.mp hx with rfl | hx
      all_goals first | rfl | exact ih _ hb _ hx | skip
      · rename_i m bs
        have hm := hb.1.2
        rw [h] at hm
        simp at hm
        subst hm
        rfl
      · exact ih _ hb.2 _ hx
  exact all _ _ (params_facts p).2.2.2.2.2.2.2.1

/-! ### The fields `drain` leaves -/

variable (r : Running) (s : State)

@[simp] theorem drain_res0 : (drain r s).res0 = s.res0 := by rw [drain_frame]
@[simp] theorem drain_res1 : (drain r s).res1 = s.res1 := by rw [drain_frame]
@[simp] theorem drain_res2 : (drain r s).res2 = s.res2 := by rw [drain_frame]
@[simp] theorem drain_res3 : (drain r s).res3 = s.res3 := by rw [drain_frame]
@[simp] theorem drain_cfgWidth : (drain r s).cfgWidth = s.cfgWidth := by rw [drain_frame]
@[simp] theorem drain_cfgHeight : (drain r s).cfgHeight = s.cfgHeight := by rw [drain_frame]
@[simp] theorem drain_cfgXshift : (drain r s).cfgXshift = s.cfgXshift := by rw [drain_frame]
@[simp] theorem drain_cfgYshift : (drain r s).cfgYshift = s.cfgYshift := by rw [drain_frame]
@[simp] theorem drain_cfgRot : (drain r s).cfgRot = s.cfgRot := by rw [drain_frame]
@[simp] theorem drain_cfgPanel : (drain r s).cfgPanel = s.cfgPanel := by rw [drain_frame]
@[simp] theorem drain_bufPresent : (drain r s).bufPresent = s.bufPresent := by rw [drain_frame]
@[simp] theorem drain_bufBytes : (drain r s).bufBytes = s.bufBytes := by rw [drain_frame]
@[simp] theorem drain_cmds : (drain r s).cmds = s.cmds := by rw [drain_frame]
@[simp] theorem drain_par : (drain r s).par = s.par := by rw [drain_frame]
@[simp] theorem drain_alloc : (drain r s).alloc = s.alloc := by rw [drain_frame]
@[simp] theorem drain_allocScript : (drain r s).allocScript = s.allocScript := by rw [drain_frame]
@[simp] theorem drain_transportScript : (drain r s).transportScript = s.transportScript := by rw [drain_frame]
@[simp] theorem drain_draws : (drain r s).draws = s.draws := by rw [drain_frame]

end Sys2Proof.Machine
end

