-- ==== Sys2Proof/Laws/Invariant.lean ====
section
/-! SUPPORT. The shared operations keep the invariant
    (Safety.lean, `Inv`): a command's end, emitting its events, fault
entry, a list of transactions, the allocation of the buffer. -/

namespace Sys2Proof.Machine

/-- A state between commands or inside one, in which the engine is not halted: `Inv` but for SEL, the latch and the
running command. -/
structure Alive (s : State) : Prop where
  cfg : geometryOf s = calibAt s.par.raw.calib s.cfgPanel s.cfgRot
  buf : bufInv s
  alive : s.engine ≠ .halted
  err0 : s.engine = .uninit → s.errCode = .none ∨ s.errCode = .allocError
  err1 : s.engine = .ready → s.errCode = .none ∧ s.bufPresent = true
  err2 : s.engine = .allocFailed → s.errCode = .allocError
  str : streamInv s
  gl : s.glyphBuf.length = glyphSlots
  fbw : memWf s.fb = true
  wire : s.wire.all (eventOk s.par.raw) = true
  idleBus : s.xferBusy = false

/-- How a command may end depends on STATE, CP, the stream and BUF_PRESENT only. -/
theorem endingOk_congr {s t : State} {e : Ending} (h : endingOk s e = true) (h1 : t.engine = s.engine)
    (h2 : t.cp = s.cp) (h3 : t.cmds = s.cmds) (h4 : t.bufPresent = s.bufPresent) : endingOk t e = true := by
  cases e <;> simpa [endingOk, h1, h2, h3, h4] using h

/-- CP + len does not wrap while it stays in the stream (10_state.md R22). -/
theorem cp_advance {s : State} {n : Nat} (hs : streamInv s) (h : s.cp.toNat + n ≤ s.cmds.length) :
    (s.cp + BitVec.ofNat 32 n).toNat = s.cp.toNat + n := by
  have := hs.1
  simp only [streamOk, decide_eq_true_eq] at this
  rw [BitVec.toNat_add, BitVec.toNat_ofNat]
  omega

/-- A command's end gives a state that meets the invariant. -/
theorem inv_finish {s : State} (e : Ending) (b : Alive s) (hsel : s.sel = false)
    (he : endingOk s e = true) (hr : s.running = none) : Inv (finish e s) := by
  have hfb := b.fbw
  cases e with
  | complete n =>
    simp only [endingOk, Bool.and_eq_true, decide_eq_true_eq] at he
    refine ⟨.inl ?_, ?_, ?_, ?_, ?_, ?_, ?_⟩
    · simpa [finish, geometryOf] using b.cfg
    · exact b.buf
    · have := b.err1 he.1
      simp [finish, engineInv, he.1, this]
    · simpa [finish, busInv, hr, hsel, b.idleBus] using b.wire
    · refine ⟨by simpa [finish] using b.str.1, ?_⟩
      simp only [finish, advance_cp, advance_cmds]
      rw [cp_advance b.str he.2]; exact he.2
    · simpa [finish] using b.gl
    · simpa [finish] using hfb
  | rotated n =>
    simp only [endingOk, Bool.and_eq_true, decide_eq_true_eq] at he
    refine ⟨.inl ?_, ?_, ?_, ?_, ?_, ?_, ?_⟩
    · simpa [finish, geometryOf] using b.cfg
    · exact b.buf
    · have := b.err1 he.1
      simp [finish, engineInv, he.1, this]
    · simpa [finish, busInv, hr, hsel, b.idleBus] using b.wire
    · refine ⟨by simpa [finish] using b.str.1, ?_⟩
      simp only [finish, advance_cp, advance_cmds, forgetFb_cp, forgetFb_cmds]
      rw [cp_advance b.str he.2]; exact he.2
    · simpa [finish] using b.gl
    · simp [finish, memWf]
  | initialised n =>
    simp only [endingOk, Bool.and_eq_true, decide_eq_true_eq] at he
    refine ⟨.inl ?_, ?_, ?_, ?_, ?_, ?_, ?_⟩
    · simpa [finish, geometryOf] using b.cfg
    · exact b.buf
    · simp [finish, engineInv, he.1.2]
    · simpa [finish, busInv, hr, hsel, b.idleBus] using b.wire
    · refine ⟨by simpa [finish] using b.str.1, ?_⟩
      simp only [finish, advance_cp, advance_cmds, forgetFb_cp, forgetFb_cmds]
      rw [cp_advance b.str he.2]; exact he.2
    · simpa [finish] using b.gl
    · simp [finish, memWf]
  | faulted c a =>
    simp only [endingOk, Bool.and_eq_true, decide_eq_true_eq] at he
    refine ⟨.inl ?_, ?_, ?_, ?_, ?_, ?_, ?_⟩
    · simpa [finish, geometryOf] using b.cfg
    · exact b.buf
    · simp [finish, engineInv, he.2, hr]
    · simpa [finish, busInv, hr, hsel, b.idleBus] using b.wire
    · simpa [finish, streamInv] using b.str
    · simpa [finish] using b.gl
    · simpa [finish] using hfb

/-- What holds of every action of a list holds of both parts of its split. -/
theorem splitAsync_all {q : List Action} {P : Action → Bool} (h : q.all P = true) :
    (splitAsync q).1.all P = true ∧ ∀ r, (splitAsync q).2 = some r → r.all P = true := by
  have := splitAsync_append q
  rw [← this, List.all_append, Bool.and_eq_true] at h
  refine ⟨h.1, fun r hr => ?_⟩
  rw [hr] at h; exact h.2

/-- A refresh keeps the invariant (42_transfer_window.md R142). -/
theorem alive_refresh {s : State} (c : Color) (b : Alive s) (hp : s.bufPresent = true) : Alive (refresh c s) := by
  obtain ⟨h1, h2, h3, h4, h5⟩ := b.buf.1 hp
  refine ⟨b.cfg, ⟨fun _ => ⟨?_, h2, h3, h4, ?_⟩, fun h => ?_⟩, b.alive, b.err0, b.err1, b.err2, b.str, b.gl, b.fbw,
    b.wire, b.idleBus⟩
  · simp only [refresh_bufData, refresh_bufBytes]
    split
    · exact h1
    · rw [fillBytes_length]; omega
  · simp only [refresh_bufData, refresh_bufBytes, refresh_bufTag, Option.all_some]
    split
    · rename_i ht; simpa [ht] using h5
    · exact decide_eq_true rfl
  · simp [hp] at h

/-- A glyph that fits GLYPH_BUF keeps the invariant (10_state.md R31). -/
theorem alive_loadGlyph {s : State} {ks : List Color} (b : Alive s) (hk : ks.length ≤ glyphSlots) :
    Alive (loadGlyph ks s) := by
  refine ⟨b.cfg, b.buf, b.alive, b.err0, b.err1, b.err2, b.str, ?_, b.fbw, b.wire, b.idleBus⟩
  have := b.gl
  simp only [loadGlyph_glyphBuf, List.length_append, List.length_drop]
  omega

/-- A running command's buffer writes keep the invariant. -/
theorem alive_bufferWrites {q : List Action} {s : State} (b : Alive s) (hp : s.bufPresent = true)
    (hq : q.all (actionOk s.par.raw) = true) : Alive (bufferWrites q s) := by
  induction q generalizing s with
  | nil => exact b
  | cons a q ih =>
    rw [List.all_cons, Bool.and_eq_true] at hq
    cases a with
    | emit e => exact ih b hp hq.2
    | refresh c => exact ih (alive_refresh c b hp) hp hq.2
    | loadGlyph ks => exact ih (alive_loadGlyph b (by simpa [actionOk] using hq.1)) hp hq.2

/-- So do its actions: the events among them are of the alphabet. -/
theorem alive_runActions {q : List Action} {s : State} (b : Alive s) (hp : s.bufPresent = true)
    (hq : q.all (actionOk s.par.raw) = true) : Alive (runActions q s) := by
  have hb := alive_bufferWrites b hp hq
  have he : (eventsOf q).all (eventOk s.par.raw) = true := by
    clear hb
    induction q with
    | nil => rfl
    | cons a q ih =>
      rw [List.all_cons, Bool.and_eq_true] at hq
      cases a with
      | emit e => rw [eventsOf_emit, List.all_cons, ih hq.2, Bool.and_true]; exact hq.1
      | refresh c => exact ih hq.2
      | loadGlyph ks => exact ih hq.2
  refine ⟨hb.cfg, hb.buf, hb.alive, hb.err0, hb.err1, hb.err2, hb.str, hb.gl, memWf_paintFb _ hb.fbw, ?_, hb.idleBus⟩
  show ((bufferWrites q s).wire ++ eventsOf q).all (eventOk (bufferWrites q s).par.raw) = true
  rw [List.all_append, hb.wire, Bool.true_and, bufferWrites_par, he]

/-- A running command has a buffer (60_exceptions.md R232): it is INIT past its allocation, or READY accepted it. -/
theorem bufPresent_of_endingOk {s : State} {e : Ending} (b : Alive s) (h : endingOk s e = true) :
    s.bufPresent = true := by
  cases e <;> simp only [endingOk, Bool.and_eq_true, decide_eq_true_eq] at h
  · exact (b.err1 h.1).2
  · exact h.1.2
  · exact (b.err1 h.1).2
  · exact (b.err1 h.1).2

/-- A command's actions, to the next asynchronous piece or to the end, give a state that meets the invariant. -/
theorem inv_drain {s : State} (r : Running) (b : Alive s) (hq : r.queue.all (actionOk s.par.raw) = true)
    (hsel : selAfter s.sel (eventsOf r.queue) = false) (he : endingOk s r.ending = true) : Inv (drain r s) := by
  have hs := splitAsync_append r.queue
  have ha := splitAsync_all hq
  have hp := bufPresent_of_endingOk b he
  have hr := alive_runActions b hp ha.1
  have he' : endingOk (runActions (splitAsync r.queue).1 s) r.ending = true :=
    endingOk_congr he (by simp [runActions]) (by simp [runActions]) (by simp [runActions]) (by simp [runActions])
  rw [drain]
  split
  · rename_i now hnow
    rw [hnow] at hs hr he'
    simp only [Option.getD_none, List.append_nil] at hs
    refine inv_finish _ ⟨hr.cfg, hr.buf, hr.alive, hr.err0, hr.err1, hr.err2, hr.str, hr.gl, hr.fbw, hr.wire,
      hr.idleBus⟩ ?_ (endingOk_congr he' rfl rfl rfl rfl) rfl
    simpa [runActions, hs] using hsel
  · rename_i now rest hnow
    rw [hnow] at hs ha hr he'
    simp only [Option.getD_some] at hs
    rw [← hs, eventsOf_append, selAfter_append] at hsel
    refine ⟨.inl hr.cfg, hr.buf, ?_, ?_, hr.str, hr.gl, hr.fbw⟩
    · exact ⟨fun h => ⟨hr.err0 h, by simp⟩, hr.err1, fun h => ⟨hr.err2 h, by simp⟩, fun h => absurd h hr.alive⟩
    · refine ⟨by simp, ?_, hr.wire⟩
      simp only [Option.all_some, runningOk, Bool.and_eq_true]
      refine ⟨⟨?_, ?_⟩, endingOk_congr he' rfl rfl rfl rfl⟩
      · simpa [runActions] using ha.2 _ rfl
      · simpa [runActions] using hsel

/-- Write emits events of the alphabet (42_transfer_window.md R130, R133). -/
theorem eventOk_write (p : Params) (bs : List Byte) : (write p.raw bs).all (eventOk p.raw) = true := by
  rw [List.all_eq_true]
  intro e he
  simp only [write, List.mem_map] at he
  obtain ⟨q, hq, rfl⟩ := he
  have := pieces_mem (params_maxXfer p) hq
  simp only [eventOk, writeMode, Bool.and_eq_true, decide_eq_true_eq, this, and_self, true_and]
  split <;> simp_all

/-- So does WriteCmd. -/
theorem eventOk_writeCmd (p : Params) (c : Byte) (a : List Byte) : (writeCmd p.raw c a).all (eventOk p.raw) = true
    := by
  simp only [writeCmd, List.all_append, List.cons_append, List.all_cons, eventOk_write]
  split <;> simp [eventOk, eventOk_write]

/-- So do transactions. -/
theorem eventOk_drawEvents (ds : List Draw) (s : State) : (drawEvents ds s).all (eventOk s.par.raw) = true := by
  induction ds generalizing s with
  | nil => rfl
  | cons d ds ih =>
    have := ih (prepare d s)
    rw [drawEvents, List.all_append]
    rw [prepare_par] at this
    rw [this, Bool.and_true]
    have hp : (payload (prepare d s) d).all (eventOk s.par.raw) = true := by
      cases d with
      | pixel x y c => exact eventOk_write s.par _
      | fill w c =>
        simp only [payload, streamFill, List.all_append, Bool.and_eq_true]
        refine ⟨?_, eventOk_write s.par _⟩
        rw [List.all_eq_true]
        intro e he
        obtain ⟨l, hl, hel⟩ := List.mem_flatten.mp he
        rw [(List.mem_replicate.mp hl).2] at hel
        exact List.all_eq_true.mp (eventOk_write s.par _) e hel
      | blit w ks => exact eventOk_write s.par _
    simp only [txn, setWindow, List.all_append, List.cons_append, List.all_cons, prepare_par, eventOk_write, hp]
    simp [eventOk]

/-- A present buffer that meets the invariant can be filled. -/
theorem bufUsable_of_inv {s : State} (h : bufInv s) (hp : s.bufPresent = true) : bufUsable s := by
  obtain ⟨h1, h2, h3, h4, h5⟩ := h.1 hp
  have := (params_facts s.par).2.2.2.1
  refine ⟨by omega, h2, fun c hc => ?_⟩
  simpa [hc] using h5

/-- A glyph's pixels fit GLYPH_BUF. -/
def blitOk (d : Draw) : Prop := ∀ w ks, d = .blit w ks → ks.length ≤ glyphSlots

/-- A command's actions are allowed if its events are of the alphabet and its glyphs fit GLYPH_BUF. -/
theorem actionOk_all {p : RawParams} {q : List Action} (he : (eventsOf q).all (eventOk p) = true)
    (hg : ∀ ks, Action.loadGlyph ks ∈ q → ks.length ≤ glyphSlots) : q.all (actionOk p) = true := by
  induction q with
  | nil => rfl
  | cons a q ih =>
    have hq := fun ks hk => hg ks (List.mem_cons_of_mem a hk)
    cases a with
    | emit e =>
      rw [eventsOf_emit, List.all_cons, Bool.and_eq_true] at he
      rw [List.all_cons, ih he.2 hq, Bool.and_true]
      exact he.1
    | refresh c => exact ih he hq
    | loadGlyph ks =>
      rw [List.all_cons, ih he hq, Bool.and_true]
      exact decide_eq_true (hg ks List.mem_cons_self)

/-- A list of transactions gives a state that meets the invariant. -/
theorem inv_perform {ds : List Draw} {e : Ending} {s : State} (b : Alive s) (hs : s.sel = false)
    (hb : ∀ d ∈ ds, blitOk d) (he : endingOk s e = true) : Inv (perform ds e s) := by
  refine inv_drain _ b (actionOk_all (by simpa using eventOk_drawEvents ds s) fun ks hk => ?_) ?_ he
  · obtain ⟨w, hw⟩ := loadGlyph_mem_drawActions hk
    exact hb _ hw w ks rfl
  · simpa [hs] using selAfter_drawEvents ds s

/-- So does a list of events. -/
theorem inv_launch {es : List WireEvent} {e : Ending} {s : State} (b : Alive s)
    (hes : es.all (eventOk s.par.raw) = true) (hsel : selAfter s.sel es = false) (he : endingOk s e = true) :
    Inv (launch es e s) :=
  inv_drain _ b (actionOk_all (by simpa using hes) (by simp)) (by simpa using hsel) he

/-- Fault entry gives a state that meets the invariant. -/
theorem inv_raise {s : State} (c : ErrCode) (a : Word) (h : Inv { s with latch := [] })
    (hc : isFaultCode c = true) (hr : s.running = none) : Inv (raise c a s) := by
  obtain ⟨h1, h2, h3, h4, h5, h6, h7⟩ := h
  refine ⟨?_, h2, ?_, ?_, h5, h6, h7⟩
  · rcases h1 with h1 | ⟨a, b, c, d, e, f⟩
    · exact .inl h1
    · exact .inr ⟨a, b, c, d, e, .inr rfl⟩
  · simp [engineInv, hc, hr]
  · refine ⟨h4.1, ?_, h4.2.2⟩
    show s.running.all _ = true
    rw [hr]; rfl

/-- READY between commands. -/
theorem alive_of_inv {s : State} (h : Inv { s with latch := [] }) (he : s.engine = .ready) (hr : s.running = none)
    : Alive s ∧ s.sel = false ∧ s.bufPresent = true := by
  obtain ⟨h1, h2, h3, h4, h5, h6, h7⟩ := h
  have hb := h4.1 hr
  have h3' := h3.2.1 he
  refine ⟨⟨?_, h2, by simp [he], by simp [he], fun _ => h3', by simp [he], h5, h6, h7, h4.2.2, hb.2.1⟩, hb.1, h3'.2⟩
  rcases h1 with h1 | ⟨_, _, _, _, _, h | h⟩
  · exact h1
  · simp [he] at h
  · simp [he] at h

/-- PlotPixel sends no glyph. -/
theorem blitOk_plotPixel {s c p} : ∀ d ∈ plotPixel s c p, blitOk d := by
  intro d hd
  rw [plotPixel] at hd
  split at hd
  · obtain rfl := List.mem_singleton.mp hd
    intro _ _ h; cases h
  · simp at hd
theorem blitOk_plotAll {s c ps} : ∀ d ∈ plotAll s c ps, blitOk d := by
  intro d hd
  obtain ⟨p, -, hp⟩ := List.mem_flatMap.mp hd
  exact blitOk_plotPixel d hp
theorem blitOk_hSpan {s x y w c} : ∀ d ∈ hSpan s x y w c, blitOk d := by
  intro d hd
  simp only [hSpan] at hd
  split at hd
  · simp at hd
  · split at hd
    · simp at hd
    · obtain rfl := List.mem_singleton.mp hd
      intro _ _ h; cases h
theorem blitOk_vSpan {s x y w c} : ∀ d ∈ vSpan s x y w c, blitOk d := by
  intro d hd
  simp only [vSpan] at hd
  split at hd
  · simp at hd
  · split at hd
    · simp at hd
    · obtain rfl := List.mem_singleton.mp hd
      intro _ _ h; cases h
theorem blitOk_fillBox {s x y w h c} : ∀ d ∈ fillBox s x y w h c, blitOk d := by
  intro d hd
  simp only [fillBox] at hd
  split at hd
  · simp at hd
  · split at hd
    · simp at hd
    · obtain rfl := List.mem_singleton.mp hd
      intro _ _ h; cases h
theorem blitOk_spanAll {s c ps} : ∀ d ∈ spanAll s c ps, blitOk d := by
  intro d hd
  obtain ⟨p, -, hp⟩ := List.mem_flatMap.mp hd
  exact blitOk_hSpan d hp
theorem blitOk_rectDraws {s x y w h c} : ∀ d ∈ rectDraws s x y w h c, blitOk d := by
  intro d hd
  rw [rectDraws] at hd
  split at hd
  · simp only [List.mem_append] at hd
    rcases hd with ((hd | hd) | hd) | hd
    · exact blitOk_hSpan d hd
    · exact blitOk_hSpan d hd
    · exact blitOk_vSpan d hd
    · exact blitOk_vSpan d hd
  · simp at hd
theorem blitOk_glyphDraws {s : State} {f : Font} {g : Glyph} {cx cy : Int} {fg bg : Color} :
    ∀ d ∈ glyphDraws s f g cx cy fg bg, blitOk d := by
  intro d hd
  have hok := drawOk_glyphDraws d hd
  simp only [glyphDraws] at hd
  split at hd
  · simp at hd
  · split at hd
    · rename_i w hw hlt
      obtain rfl := List.mem_singleton.mp hd
      have := hok.2.2.2.2.2.2
      intro w' ks h
      cases h
      simp only [drawColors, drawWindow] at this
      rw [this]
      simp only [glyphThreshold, glyphSlots] at *
      omega
    · obtain ⟨p, -, hp⟩ := List.mem_flatMap.mp hd
      exact blitOk_plotPixel d hp
theorem blitOk_stringWalk {s : State} {f : Font} {fg bg : Color} (cx cy : Int) (cs : List Byte) :
    ∀ d ∈ (stringWalk s f fg bg cx cy cs).draws, blitOk d := by
  induction cs generalizing cx cy with
  | nil => intro d hd; simp [stringWalk] at hd
  | cons c cs ih =>
    intro d hd
    rw [stringWalk] at hd
    split at hd
    · exact ih _ _ d hd
    · dsimp only at hd
      generalize (if decide (nat16 s.cfgWidth < cx + nat8 _) = true then (0 : Int) else cx) = cx' at hd
      generalize (if decide (nat16 s.cfgWidth < cx + nat8 _) = true then cy + nat8 f.yAdvance else cy) = cy' at hd
      split at hd
      · simp at hd
      · split at hd
        · exact ih _ _ d hd
        · split at hd
          · rcases List.mem_append.mp hd with hd | hd
            · exact blitOk_glyphDraws d hd
            · exact ih _ _ d hd
          · simp at hd

/-- What R104 (b) says of P_INIT_SEQ: SEL ends at 0, and its events are of the alphabet. -/
theorem bracketedOk_facts {m a b es} (h : bracketedOk m a b es = true) : selAfter b es = false ∧ ∀ p
    : RawParams, p.maxXfer = m → p.asyncEnable = a → es.all (eventOk p) = true := by
  induction es generalizing b with
  | nil => simpa [bracketedOk, selAfter] using h
  | cons e es ih =>
    cases e with
    | xfer md bs =>
      simp only [bracketedOk, Bool.and_eq_true] at h
      obtain ⟨⟨⟨⟨h1, h2⟩, h3⟩, h4⟩, h5⟩ := h
      refine ⟨(ih h5).1, fun p hp hq => ?_⟩
      rw [List.all_cons, (ih h5).2 p hp hq, Bool.and_true]
      simp only [eventOk, hp, hq, Bool.and_eq_true]
      exact ⟨⟨h2, h3⟩, h4⟩
    | _ =>
      simp only [bracketedOk] at h
      exact ⟨(ih h).1, fun p hp hq => by rw [List.all_cons, (ih h).2 p hp hq]; rfl⟩

/-- Releasing the buffer keeps its invariant. -/
theorem bufInv_release {s : State} (h : bufInv s) : bufInv (release s) := by
  refine ⟨by simp, fun _ => ?_⟩
  simp only [release_bufBytes, release_bufData, release_bufTag]
  split
  · simp
  · exact h.2 (by simp_all)

/-- An allocation keeps the buffer's invariant (10_state.md R30). -/
theorem bufInv_allocate {s : State} (hint) (h : bufInv s)
    (hc : geometryOf s = calibAt s.par.raw.calib s.cfgPanel s.cfgRot) : bufInv (allocate hint s) := by
  have hf := params_facts s.par
  have hg := calibAt_facts s.par s.cfgPanel s.cfgRot
  dsimp only at hg
  rw [← hc] at hg
  simp only [geometryOf] at hg
  have hsz : (BitVec.ofNat 32 (allocSize s hint)).toNat = allocSize s hint ∧ allocSize s hint % 2 = 0
      ∧ s.par.raw.bufMinBytes ≤ allocSize s hint ∧ allocSize s hint ≤ s.cfgWidth.toNat * s.par.raw.kLines * 2 := by
    obtain ⟨_, _, _, _, h5, h6⟩ := hg
    have h2 := hf.2.2.2.1
    have h22 := hf.2.2.2.2.1
    simp only [allocSize, BitVec.toNat_ofNat]
    generalize s.cfgWidth.toNat * s.par.raw.kLines = m at *
    generalize s.par.raw.bufMinBytes = b at *
    split <;> omega
  refine ⟨fun hp => ?_, fun hp => ?_⟩
  · simp only [allocate_bufPresent] at hp
    simp only [allocate_bufBytes, allocate_bufData, allocate_bufTag, hp, if_true, allocate_par, hsz.1]
    refine ⟨by simp [freshBytes], hsz.2.1, hsz.2.2.1, ?_, rfl⟩
    rw [List.any_eq_true]
    refine ⟨_, calibAt_mem _ s.cfgPanel s.cfgRot, ?_⟩
    rw [← hc]
    exact decide_eq_true hsz.2.2.2
  · simp only [allocate_bufPresent] at hp
    have := (bufInv_release h).2 rfl
    simpa [hp] using this

end Sys2Proof.Machine
end

