-- ==== Sys2Proof/Laws/PerInstr.lean ====
section
/-! SUPPORT. Statements made per command, about its syntax. -/

namespace Sys2Proof.Laws.Encoding

open Sys2Proof Sys2Proof.Machine

/-- A command's encoding is its OPC, then operand words: `cmdLen` words in all, which is the fixed length of its row
of 30_encoding.md R85 or, with a character list, more (R86). -/
def Statement (i : Instr) : Prop :=
  (encode i).head? = some (opcOf i) ∧ (encode i).length = cmdLen i
    ∧ ∃ n, baseLen (opcOf i).toNat = some n ∧ n ≤ cmdLen i

theorem init (panel rot : Byte) (hint : BitVec 32) : Statement (.init panel rot hint) :=
  ⟨rfl, rfl, _, rfl, Nat.le_refl _⟩

theorem deinit : Statement .deinit := ⟨rfl, rfl, _, rfl, Nat.le_refl _⟩

theorem setRotation (rot : Byte) : Statement (.setRotation rot) := ⟨rfl, rfl, _, rfl, Nat.le_refl _⟩

theorem getGeometry : Statement .getGeometry := ⟨rfl, rfl, _, rfl, Nat.le_refl _⟩

theorem invert (on : Bool) : Statement (.invert on) := ⟨rfl, rfl, _, rfl, Nat.le_refl _⟩

theorem tearing (on : Bool) : Statement (.tearing on) := ⟨rfl, rfl, _, rfl, Nat.le_refl _⟩

theorem fillScreen (c : Color) : Statement (.fillScreen c) := ⟨rfl, rfl, _, rfl, Nat.le_refl _⟩

theorem drawPixel (x y : Word) (c : Color) : Statement (.drawPixel x y c) := ⟨rfl, rfl, _, rfl, Nat.le_refl _⟩

theorem drawLine (x0 y0 x1 y1 : Word) (c : Color) : Statement (.drawLine x0 y0 x1 y1 c) := ⟨rfl, rfl, _, rfl, Nat.le_refl _⟩

theorem drawHLine (x y w : Word) (c : Color) : Statement (.drawHLine x y w c) := ⟨rfl, rfl, _, rfl, Nat.le_refl _⟩

theorem drawVLine (x y h : Word) (c : Color) : Statement (.drawVLine x y h c) := ⟨rfl, rfl, _, rfl, Nat.le_refl _⟩

theorem drawRect (x y w h : Word) (c : Color) : Statement (.drawRect x y w h c) := ⟨rfl, rfl, _, rfl, Nat.le_refl _⟩

theorem fillRect (x y w h : Word) (c : Color) : Statement (.fillRect x y w h c) := ⟨rfl, rfl, _, rfl, Nat.le_refl _⟩

theorem drawCircle (x0 y0 r : Word) (c : Color) : Statement (.drawCircle x0 y0 r c) := ⟨rfl, rfl, _, rfl, Nat.le_refl _⟩

theorem fillCircle (x0 y0 r : Word) (c : Color) : Statement (.fillCircle x0 y0 r c) := ⟨rfl, rfl, _, rfl, Nat.le_refl _⟩

theorem drawTriangle (x1 y1 x2 y2 x3 y3 : Word) (c : Color) : Statement (.drawTriangle x1 y1 x2 y2 x3 y3 c) :=
  ⟨rfl, rfl, _, rfl, Nat.le_refl _⟩

theorem fillTriangle (x1 y1 x2 y2 x3 y3 : Word) (c : Color) : Statement (.fillTriangle x1 y1 x2 y2 x3 y3 c) :=
  ⟨rfl, rfl, _, rfl, Nat.le_refl _⟩

theorem drawChar (x y : Word) (ch font : Byte) (fg bg : Color) : Statement (.drawChar x y ch font fg bg) :=
  ⟨rfl, rfl, _, rfl, Nat.le_refl _⟩

theorem drawString (x y : Word) (font : Byte) (fg bg : Color) (chars : List Byte) :
    Statement (.drawString x y font fg bg chars) :=
  ⟨rfl, by simp [encode, cmdLen, packChars_length]; omega, _, rfl, Nat.le_add_right _ _⟩

theorem getTextBounds (font : Byte) (chars : List Byte) : Statement (.getTextBounds font chars) :=
  ⟨rfl, by simp [encode, cmdLen, packChars_length]; omega, _, rfl, Nat.le_add_right _ _⟩

end Sys2Proof.Laws.Encoding
end

