-- ==== Sys2Proof/Laws/Run.lean ====
section
/-! SUPPORT. Runs of the machine, one step at a time. -/

namespace Sys2Proof.Machine

/-- A run of no step. -/
theorem run_zero (s : State) : Host.Core.run Sys2Proof.core 0 s = .next s := rfl

/-- A run whose first step has a next state. -/
theorem run_next {s t : State} (k : Nat) (h : step s = .next t) :
    Host.Core.run Sys2Proof.core (k + 1) s = Host.Core.run Sys2Proof.core k t := by
  have h' : Sys2Proof.core.step s = .next t := h
  exact (by simp only [Host.Core.run, h'] :
    Host.Core.run Sys2Proof.core (k + 1) s = Host.Core.run Sys2Proof.core k t)

/-- A command's actions do not depend on the transport's answers, and leave them. -/
theorem runActions_inputs (q : List Action) (o : Option Running) (l : List Bool) (n : Nat) (s : State) :
    runActions q { s with running := o, transportScript := l, draws := n }
      = { runActions q s with running := o, transportScript := l, draws := n } := by
  have h : bufferWrites q { s with running := o, transportScript := l, draws := n }
      = { bufferWrites q s with running := o, transportScript := l, draws := n } := by
    induction q generalizing s with
    | nil => rfl
    | cons a q ih =>
      cases a with
      | emit e => exact ih s
      | refresh c => exact ih (refresh c s)
      | loadGlyph ks => exact ih (loadGlyph ks s)
  rw [runActions, h]
  rfl

/-- How many asynchronous pieces the two parts of a split hold. -/
theorem splitAsync_count (q : List Action) :
    asyncCount (eventsOf q) = match (splitAsync q).2 with | none => 0 | some r => asyncCount (eventsOf r) + 1 := by
  induction q with
  | nil => rfl
  | cons a q ih =>
    cases a with
    | emit e =>
      rw [splitAsync, eventsOf_emit, asyncCount, List.filter_cons]
      by_cases ha : isAsync e
      · rw [if_pos ha, if_pos ha]
        rfl
      · rw [if_neg ha, if_neg ha]
        exact ih
    | refresh c => exact ih
    | loadGlyph ks => exact ih

/-- A command whose transport completes every piece: after two steps a piece it has done all its actions and ended
(42_transfer_window.md R135, 20_memory.md R73). -/
theorem drain_run (q : List Action) (e : Ending) (s : State) (rest)
    (hx : s.xferBusy = false) (hm : memWf s.fb = true)
    (hs : s.transportScript = List.replicate (asyncCount (eventsOf q)) true ++ rest) :
    Host.Core.run core (2 * asyncCount (eventsOf q)) (drain ⟨q, e⟩ s)
      = .next
        (finish e
          { runActions q s with
            running := none, transportScript := rest, draws := s.draws + asyncCount (eventsOf q) }) := by
  generalize hn : asyncCount (eventsOf q) = n
  induction n generalizing q s with
  | zero =>
    have hq : allSync (eventsOf q) := by
      intro e he
      have := List.length_eq_zero_iff.mp hn
      rw [List.filter_eq_nil_iff] at this
      simpa using this e he
    rw [drain_sync hq]
    rw [hn] at hs
    have ht : (runActions q s).transportScript = rest := by simpa [runActions] using hs
    have hd : (runActions q s).draws = s.draws := by simp [runActions]
    rw [← ht, ← hd]
    rfl
  | succ n ih =>
    have hsplit := splitAsync_append q
    have h2 := splitAsync_count q
    rw [hn] at h2
    rw [drain]
    split
    · rename_i now hd; rw [hd] at h2; cases h2
    · rename_i now r hd
      rw [hd] at h2 hsplit
      simp only [Nat.add_right_cancel_iff] at h2
      simp only [Option.getD_some] at hsplit
      rw [hn] at hs
      generalize hu : runActions now s = u
      have hus : u.transportScript = s.transportScript ∧ u.draws = s.draws ∧ memWf u.fb = true
          ∧ u.xferBusy = false := by
        subst hu
        refine ⟨by simp [runActions], by simp [runActions], ?_, by simp [runActions, hx]⟩
        exact memWf_paintFb _ (by simpa using hm)
      obtain ⟨hu1, hu2, hu3, hu4⟩ := hus
      have ht : transportStep { u with xferBusy := true, running := some ⟨r, e⟩ }
          = { u with
            running := some ⟨r, e⟩, transportScript := List.replicate n true ++ rest
            draws := s.draws + 1 } := by
        simp [transportStep, transportAnswer, hu1, hu2, hu4, hs, List.replicate_succ]
      rw [show 2 * (n+1) = (2 * n + 1) + 1 by omega, run_next _ (by rw [step, if_pos rfl]), ht]
      rw [run_next (2 * n)
        (t := drain ⟨r, e⟩
          { u with
            running := some ⟨r, e⟩, transportScript := List.replicate n true ++ rest
            draws := s.draws + 1 })
        (by rw [step, if_neg (by simp [hu4])])]
      rw [ih r _ (by simpa using hu4) (by simpa using hu3) (by simp [← h2]) h2.symm]
      congr 2
      rw [runActions_inputs, ← hu, runActions_append _ _ hm, hsplit, Nat.add_comm n 1, ← Nat.add_assoc]

/-- So with a command of events alone. -/
theorem launch_run (es : List WireEvent) (e : Ending) (s : State) (rest) (hx : s.xferBusy = false)
    (hm : memWf s.fb = true) (hs : s.transportScript = List.replicate (asyncCount es) true ++ rest) :
    Host.Core.run core (2 * asyncCount es) (launch es e s)
      = .next
        (finish e
          { emitAll es s with
            running := none, transportScript := rest, draws := s.draws + asyncCount es }) := by
  have h := drain_run (es.map .emit) e s rest hx hm (by simpa using hs)
  rw [runActions_map_emit, eventsOf_map_emit] at h
  exact h

/-- And with a list of transactions: the end does not depend on the waits. -/
theorem perform_run (ds : List Draw) (e : Ending) (s : State) (rest) (hx : s.xferBusy = false)
    (hm : memWf s.fb = true) (hs : s.transportScript = List.replicate (asyncCount (drawEvents ds s)) true ++ rest) :
    Host.Core.run core (2 * asyncCount (drawEvents ds s)) (perform ds e s)
      = .next
        (finish e
          { emitAll (drawEvents ds s) (settle ds s) with
            running := none, transportScript := rest, draws := s.draws + asyncCount (drawEvents ds s) }) := by
  have h := drain_run (drawActions ds s) e s rest hx hm (by simpa using hs)
  rw [runActions_drawActions, eventsOf_drawActions] at h
  exact h

end Sys2Proof.Machine
end

