-- ==== Sys2Proof/Tests/Slice0.lean ====
section
/-! SUPPORT. The model's own tests: ill-formed terms, words written out from 30_encoding.md R84 and R85, one step of
each command on the vectors of 95_test_vectors.md (named in each docstring), and a witness for each statement's
hypotheses. Every expected value is the spec's or is worked out from its rules by hand. -/

namespace Sys2Proof.Tests

open Sys2Proof Sys2Proof.Machine

/-! ## The example machine of 95_test_vectors.md section 1 -/

/-- Font TF's glyphs. -/
def glyphsTF : List Glyph := [⟨0, 0, 0, 4, 0, 0⟩, ⟨0, 3, 3, 4, 0, 0xFD⟩, ⟨2, 2, 2, 3, 1, 0xFE⟩]

/-- Font TF, id 0. -/
def fontTF : Font := ⟨0x20, 0x22, 5, glyphsTF, [0x5D, 0x00, 0xD0]⟩

/-- Font TFS, id 1: TF with two bitmap bytes. -/
def fontTFS : Font := ⟨0x20, 0x22, 5, glyphsTF, [0x5D, 0x00]⟩

/-- Font TB, id 2. -/
def fontTB : Font :=
  ⟨0x41, 0x42, 40, [⟨0, 40, 40, 40, 0, 0xD8⟩, ⟨0, 40, 39, 40, 0, 0xD9⟩], List.replicate 200 0xFF⟩

/-- The example parameters. -/
def exampleParams : Params :=
  ⟨{ Config.exampleRaw with fonts := [(0, fontTF), (1, fontTFS), (2, fontTB)] }, by decide +kernel⟩

/-- The example parameters with the asynchronous mode (vector T5). -/
def asyncParams : Params :=
  ⟨{ Config.exampleRaw with fonts := [(0, fontTF), (1, fontTFS)], asyncEnable := true }, by decide +kernel⟩

/-- The same with threshold 3, so that SetWindow's Writes of 4 bytes are asynchronous too. -/
def lowParams : Params := ⟨{ asyncParams.raw with asyncThreshold := 3 }, by decide +kernel⟩

/-- The reset state of the example machine, with an allocator that gives these answers. -/
def start (answers : List Bool) : State := { State.reset with par := exampleParams, allocScript := answers }

/-- "From READY": the state after INIT 0, 0, 0, but at the start of a stream of its own. -/
def ready : State :=
  { State.reset with
    par := exampleParams, engine := .ready, cfgWidth := 135, cfgHeight := 240, cfgXshift := 53, cfgYshift := 40
    bufPresent := true, bufBytes := 1080, bufData := List.replicate 1080 0 }

/-- `ready` with the asynchronous mode. -/
def asyncReady : State := { ready with par := asyncParams }

/-- The next state of an outcome, or the reset state. -/
def after (o : Host.Outcome State Fault Refusal) : State :=
  match o with
  | .next t => t
  | .fault _ => State.reset
  | .refused _ => State.reset

/-- The points of the paint log. -/
def points (s : State) : List (Int × Int) := s.paintLog.map (fun p => (p.x, p.y))

/-- The frames of the wire. -/
def frames (s : State) : List Frame := framesFrom .cmd none s.wire

/-- The window frame of the spec's notation: `c2A` and four bytes, `c2B` and four bytes, `c2C` and the payload. -/
def frameOf (x y bs : List Byte) : Frame :=
  (.cmd, 0x2A) :: x.map (fun b => (.data, b)) ++ (.cmd, 0x2B) :: y.map (fun b => (.data, b))
    ++ (.cmd, 0x2C) :: bs.map (fun b => (.data, b))

/-- How an instruction of a stream is decoded. -/
def isCommand (ws : List Word) (i : Instr) : Bool := decide (decode ws = .command i)

/-! ## Well-formedness -/

/-- 65536 characters do not fit a COUNT word. -/
theorem test_string_too_long :
    wellFormed (.drawString 0 0 0 0 0 (List.replicate 65536 0x21)) = false := by
  simp only [wellFormed, charsFit, List.length_replicate, Nat.lt_irrefl, decide_false]

theorem test_bounds_too_long : wellFormed (.getTextBounds 0 (List.replicate 65536 0x21)) = false := by
  simp only [wellFormed, charsFit, List.length_replicate, Nat.lt_irrefl, decide_false]

/-! ## Decoding -/

/-- Configuration commands: E1, E2, E3, E10, and words written out from R85. -/
theorem test_decode_config :
    (isCommand [0x0001, 0x0000, 0x0000, 0x0000] (.init 0 0 0)
      && isCommand [0x0001, 0x6302, 0x0400, 0x0000] (.init 2 99 1024)
      && isCommand [0x0001, 0x0000, 0x0000, 0x0001] (.init 0 0 65536)
      && isCommand [0x0002] .deinit && isCommand [0x0003, 0x00C8] (.setRotation 200) && isCommand [0x0004] .getGeometry
      && isCommand [0x0005, 0x0001] (.invert true) && isCommand [0x0005, 0x0000] (.invert false)
      && isCommand [0x0006, 0x0001] (.tearing true)) = true := by decide

/-- Primitives: E4, E5, and words written out from R85, each operand in its place. -/
theorem test_decode_primitives :
    (isCommand [0x0010, 0xF81F] (.fillScreen 0xF81F) && isCommand [0x0011, 1, 2, 3] (.drawPixel 1 2 3)
      && isCommand [0x0012, 0xFFFE, 0x0000, 0x0004, 0x0000, 0xF800] (.drawLine 0xFFFE 0 4 0 0xF800)
      && isCommand [0x0013, 1, 2, 3, 4] (.drawHLine 1 2 3 4) && isCommand [0x0014, 1, 2, 3, 4] (.drawVLine 1 2 3 4)
      && isCommand [0x0015, 1, 2, 3, 4, 5] (.drawRect 1 2 3 4 5)
      && isCommand [0x0016, 1, 2, 3, 4, 5] (.fillRect 1 2 3 4 5)
      && isCommand [0x0017, 0x000A, 0x000A, 0xFFFF, 0x07E0] (.drawCircle 10 10 0xFFFF 0x07E0)
      && isCommand [0x0018, 1, 2, 3, 4] (.fillCircle 1 2 3 4)
      && isCommand [0x0019, 1, 2, 3, 4, 5, 6, 7] (.drawTriangle 1 2 3 4 5 6 7)
      && isCommand [0x001A, 1, 2, 3, 4, 5, 6, 7] (.fillTriangle 1 2 3 4 5 6 7)) = true := by decide

/-- Text: E6 to E9, and a byte pair that tells ch from font. -/
theorem test_decode_text :
    (isCommand [0x0020, 0x000A, 0x0014, 0x0021, 0xFFFF, 0x0000] (.drawChar 10 20 0x21 0 0xFFFF 0)
      && isCommand [0x0020, 0x000A, 0x0014, 0x0521, 0xFFFF, 0x0000] (.drawChar 10 20 0x21 5 0xFFFF 0)
      && isCommand [0x0021, 0x0000, 0x000A, 0x0000, 0xFFFF, 0x0000, 0x0003, 0x2221, 0x0021]
          (.drawString 0 10 0 0xFFFF 0 [0x21, 0x22, 0x21])
      && isCommand [0x0022, 0x0000, 0x0000] (.getTextBounds 0 [])
      && isCommand [0x0022, 0x0000, 0x0003, 0x4121, 0x0021] (.getTextBounds 0 [0x21, 0x41, 0x21])) = true := by decide

/-- X1 to X10, X13: the fault and its FAULT_ARG. -/
theorem test_decode_faults :
    decode [0x0000] = .malformed .illegalCommand 0x0000 ∧ decode [0x0107] = .malformed .illegalCommand 0x0107
      ∧ decode [0x0111, 0, 0, 0] = .malformed .reservedField 0 ∧ decode [0x0011, 0x0001] = .malformed .truncated 2
      ∧ decode [0x0021, 0, 0, 0, 0, 0] = .malformed .truncated 6
      ∧ decode [0x0021, 0, 0, 0, 0, 0, 3, 0x2121] = .malformed .truncated 8
      ∧ decode [0x0003, 0x0101] = .malformed .reservedField 1 ∧ decode [0x0005, 0x0002] = .malformed .reservedField 1
      ∧ decode [0x0022, 0x0000, 0x0001, 0x4121] = .malformed .reservedField 3
      ∧ decode [0x0022, 0x0100, 0x0000] = .malformed .reservedField 1
      ∧ decode [0x0001, 0x0003, 0, 0] = .command (.init 3 0 0) := by decide

/-- The opcode table's numbering: the first word is the low one, and the words past nbits are zeros. -/
theorem test_decodeTableWord :
    decodeTableWord 16 0x0016 = some (.fillRect 0 0 0 0 0) ∧ decodeTableWord 32 0x63030001 = some (.init 3 0x63 0)
      ∧ decodeTableWord 16 0x0107 = none := by decide

/-- A word placed for the next fetch is what the first step after reset runs. -/
theorem test_withFetchWord :
    (∀ t, t = State.reset.withFetchWord 16 0x0010 → step t = exec (.fillScreen 0) (loadLatch (.fillScreen 0) t))
      ∧ ∀ t, t = State.reset.withFetchWord 32 0x63020001 → step t = exec (.init 2 0x63 0) (loadLatch (.init 2 0x63 0) t) :=
  ⟨fun _ h => by subst h; rfl, fun _ h => by subst h; rfl⟩

/-! ## One step of each command -/

/-- K1: INIT 0, 0, 0 from reset: CFG, the request, the wire trace event by event, STATUS, CP. -/
theorem test_init_granted :
    let t := after (step { start [true] with cmds := [0x0001, 0x0000, 0x0000, 0x0000] })
    geometryOf t = ⟨135, 240, 53, 40⟩ ∧ t.alloc = [.alloc 1080 true]
      ∧ t.wire = [.rst false, .delay 10, .rst true, .delay 10, .delay 20, .sel, .dc .cmd, .xfer .sync [0x36],
          .dc .data, .xfer .sync [0xC0], .desel]
      ∧ statusWord t = 0x0001 ∧ t.cp = 4 ∧ t.bufBytes = 1080 ∧ t.bufTag = none := by decide +kernel

/-- K2: the allocator refuses. -/
theorem test_init_refused :
    let t := after (step { start [false] with cmds := [0x0001, 0x0000, 0x0000, 0x0000] })
    geometryOf t = ⟨135, 240, 53, 40⟩ ∧ t.alloc = [.alloc 1080 false] ∧ t.wire = [] ∧ statusWord t = 0x0102
      ∧ t.faultCp = 0 ∧ t.faultArg = 0 ∧ t.cp = 4 := by decide +kernel

/-- K5: the sizes of the requests for h = 0, 1, 2, 3, 100, 101, 5000, 65536. -/
theorem test_allocSize :
    [0, 1, 2, 3, 100, 101, 5000, 65536].map (allocSize ready) = [1080, 2, 2, 2, 100, 100, 1080, 1080] := by
  decide +kernel

/-- K9, K10: DEINIT from READY, and from reset. -/
theorem test_deinit :
    let t := after (exec .deinit ready)
    t.alloc = [.free] ∧ t.bufPresent = false ∧ t.bufBytes = 0 ∧ statusWord t = 0x0000 ∧ t.cfgWidth = 135
      ∧ t.wire = [] ∧ (after (exec .deinit (start []))).alloc = [] ∧ (after (exec .deinit (start []))).cp = 1 := by
  decide +kernel

/-- K11, K13: SET_ROTATION 1, and 200 as 0. -/
theorem test_setRotation :
    let t := after (exec (.setRotation 1) ready)
    geometryOf t = ⟨240, 135, 40, 52⟩ ∧ t.cfgRot = 1 ∧ frames t = [[(.cmd, 0x36), (.data, 0xA0)]] ∧ t.alloc = []
      ∧ t.bufBytes = 1080 ∧ frames (after (exec (.setRotation 200) ready)) = [[(.cmd, 0x36), (.data, 0xC0)]] := by
  decide +kernel

/-- The geometry L3.2 reads back: RES = (240, 240, 1, 1). -/
theorem test_getGeometry :
    let t := after (exec .getGeometry { ready with cfgWidth := 240, cfgRot := 1, cfgPanel := 1 })
    (t.res0, t.res1, t.res2, t.res3) = (240, 240, 1, 1) ∧ t.cp = 1 := by decide +kernel

/-- K14. -/
theorem test_invert :
    frames (after (exec (.invert true) ready)) = [[(.cmd, 0x21)]]
      ∧ frames (after (exec (.invert false) ready)) = [[(.cmd, 0x20)]] := by decide +kernel

/-- K15, with P_TEON_PARAM none and 0x00. -/
theorem test_tearing :
    frames (after (exec (.tearing true) ready)) = [[(.cmd, 0x35)]]
      ∧ frames (after (exec (.tearing false) ready)) = [[(.cmd, 0x34)]]
      ∧ framesFrom .cmd none (tearingEvents { Config.exampleRaw with teonParam := some 0 } true)
          = [[(.cmd, 0x35), (.data, 0x00)]] := by decide +kernel

/-- FILL_SCREEN of a 3 by 2 screen: one window, row-major (R165). -/
theorem test_fillScreen :
    let t := after (exec (.fillScreen 0x1234) { ready with cfgWidth := 3, cfgHeight := 2 })
    points t = [(0, 0), (1, 0), (2, 0), (0, 1), (1, 1), (2, 1)] ∧ t.bufTag = some 0x1234
      ∧ frames t
          = [frameOf [0, 0x35, 0, 0x37] [0, 0x28, 0, 0x29]
              [0x12, 0x34, 0x12, 0x34, 0x12, 0x34, 0x12, 0x34, 0x12, 0x34, 0x12, 0x34]] := by decide +kernel

/-- T1: the events of a pixel, one by one. -/
theorem test_drawPixel :
    let t := after (exec (.drawPixel 10 20 0xF800) ready)
    t.wire = [.sel, .dc .cmd, .xfer .sync [0x2A], .dc .data, .xfer .sync [0x00, 0x3F, 0x00, 0x3F], .dc .cmd,
        .xfer .sync [0x2B], .dc .data, .xfer .sync [0x00, 0x3C, 0x00, 0x3C], .dc .cmd, .xfer .sync [0x2C], .dc .data,
        .xfer .sync [0xF8, 0x00], .desel]
      ∧ t.paintLog = [⟨10, 20, 0xF800⟩] ∧ fbRead t 10 20 = some 0xF800 ∧ fbRead t 10 21 = none := by decide +kernel

/-- S2: off the screen nothing is sent; the last visible pixel is. -/
theorem test_drawPixel_clipped :
    (after (exec (.drawPixel 135 0 1) ready)).wire = [] ∧ (after (exec (.drawPixel 0 240 1) ready)).wire = []
      ∧ (after (exec (.drawPixel 0xFFFF 0 1) ready)).wire = []
      ∧ frames (after (exec (.drawPixel 134 239 1) ready))
          = [frameOf [0x00, 0xBB, 0x00, 0xBB] [0x01, 0x17, 0x01, 0x17] [0x00, 0x01]] := by decide +kernel

/-- P1, S4. -/
theorem test_drawLine :
    points (after (exec (.drawLine 0 0 5 2 7) ready)) = [(0, 0), (1, 0), (2, 1), (3, 1), (4, 2), (5, 2)]
      ∧ points (after (exec (.drawLine 5 2 0 0 7) ready)) = [(0, 0), (1, 0), (2, 1), (3, 1), (4, 2), (5, 2)] := by
  decide +kernel

/-- P2 (steep), P6 and P7 (clipped). -/
theorem test_drawLine_steep :
    points (after (exec (.drawLine 0 0 2 5 7) ready)) = [(0, 0), (0, 1), (1, 2), (1, 3), (2, 4), (2, 5)]
      ∧ points (after (exec (.drawLine 0xFFFE 0 2 0 7) ready)) = [(0, 0), (1, 0), (2, 0)]
      ∧ points (after (exec (.drawLine 0 0 4 0xFFFC 7) ready)) = [(0, 0)] := by decide +kernel

/-- T8, P10, P11. -/
theorem test_drawHLine :
    frames (after (exec (.drawHLine 0xFFFB 3 10 1) ready))
        = [frameOf [0x00, 0x35, 0x00, 0x39] [0x00, 0x2B, 0x00, 0x2B] [0, 1, 0, 1, 0, 1, 0, 1, 0, 1]]
      ∧ (after (exec (.drawHLine 0 0 0xFFFF 1) ready)).wire = []
      ∧ (after (exec (.drawHLine 0 240 5 1) ready)).wire = [] := by decide +kernel

/-- T9. -/
theorem test_drawVLine :
    frames (after (exec (.drawVLine 2 238 5 1) ready))
      = [frameOf [0x00, 0x37, 0x00, 0x37] [0x01, 0x16, 0x01, 0x17] [0, 1, 0, 1]] := by decide +kernel

/-- P12: top, bottom, left, right. -/
theorem test_drawRect :
    let t := after (exec (.drawRect 0 0 3 2 0x1111) ready)
    points t = [(0, 0), (1, 0), (2, 0), (0, 1), (1, 1), (2, 1), (0, 0), (0, 1), (2, 0), (2, 1)]
      ∧ (frames t).length = 4 := by decide +kernel

/-- P13, P14. -/
theorem test_drawRect_small :
    (after (exec (.drawRect 5 5 0 7 1) ready)).wire = []
      ∧ points (after (exec (.drawRect 5 5 1 1 1) ready)) = [(5, 5), (5, 5), (5, 5), (5, 5)] := by decide +kernel

/-- P15: clipped at the far corner; P18: at the near one. -/
theorem test_fillRect :
    (frames (after (exec (.fillRect 130 235 10 10 1) ready))).map (List.take 11)
        = [frameOf [0x00, 0xB7, 0x00, 0xBB] [0x01, 0x13, 0x01, 0x17] []]
      ∧ (points (after (exec (.fillRect 130 235 10 10 1) ready))).length = 25
      ∧ frames (after (exec (.fillRect 0xFFF6 0xFFF6 11 11 1) ready))
          = [frameOf [0x00, 0x35, 0x00, 0x35] [0x00, 0x28, 0x00, 0x28] [0, 1]] := by decide +kernel

/-- T3 (S1): the payload is sent in Writes of 1080, 1080 and 240 bytes. -/
theorem test_fillRect_writes :
    ((after (exec (.fillRect 10 20 30 40 0x07E0) ready)).wire.map (fun e => (xferBytes [e]).length)).filter (· ≠ 0)
        = [1, 4, 1, 4, 1, 1080, 1080, 240]
      ∧ (after (exec (.fillRect 10 20 30 40 0x07E0) ready)).bufTag = some 0x07E0 := by decide +kernel

/-- P20. -/
theorem test_drawCircle :
    points (after (exec (.drawCircle 5 5 1 7) ready))
      = [(5, 6), (5, 4), (6, 5), (4, 5), (6, 5), (4, 5), (6, 5), (4, 5), (5, 6), (5, 6), (5, 4), (5, 4)] := by
  decide +kernel

/-- P22, P23. -/
theorem test_drawCircle_clipped :
    (after (exec (.drawCircle 5 5 0xFFFF 7) ready)).wire = []
      ∧ points (after (exec (.drawCircle 0 0 2 7) ready)) = [(0, 2), (2, 0), (1, 2), (2, 1), (2, 1), (1, 2)] := by
  decide +kernel

/-- P25: the spans; S5: the first spans of the larger disc and how many there are. -/
theorem test_fillCircle :
    discSpans 5 5 1 = [⟨4, 5, 3⟩, ⟨4, 5, 3⟩, ⟨4, 5, 3⟩, ⟨5, 6, 1⟩, ⟨5, 4, 1⟩]
      ∧ (discSpans 60 80 25).take 9
          = [⟨35, 80, 51⟩, ⟨59, 105, 3⟩, ⟨59, 55, 3⟩, ⟨35, 81, 51⟩, ⟨35, 79, 51⟩, ⟨58, 105, 5⟩, ⟨58, 55, 5⟩,
             ⟨35, 82, 51⟩, ⟨35, 78, 51⟩]
      ∧ (discSpans 60 80 25).length = 73 := by decide +kernel

/-- P27: clipped spans. -/
theorem test_fillCircle_clipped :
    points (after (exec (.fillCircle 0 0 2 1) ready))
      = [(0, 0), (1, 0), (2, 0), (0, 2), (1, 2), (0, 1), (1, 1), (2, 1), (0, 1), (1, 1), (2, 1), (0, 2), (1, 2)] := by
  decide +kernel

/-- P29. -/
theorem test_drawTriangle :
    points (after (exec (.drawTriangle 0 0 4 0 2 3 7) ready))
      = [(0, 0), (1, 0), (2, 0), (3, 0), (4, 0), (4, 0), (3, 1), (3, 2), (2, 3), (0, 0), (1, 1), (1, 2), (2, 3)] := by
  decide +kernel

/-- P31, and the counts of P30, P32, P33. -/
theorem test_fillTriangle :
    points (after (exec (.fillTriangle 0 0 0 0 3 3 7) ready)) = [(0, 0), (1, 1), (2, 2), (3, 3)]
      ∧ (points (after (exec (.fillTriangle 0 0 4 0 2 3 7) ready))).length = 20
      ∧ (points (after (exec (.fillTriangle 0 0 2 2 4 4 7) ready))).length = 12
      ∧ (points (after (exec (.fillTriangle 0 0 1 3 3 1 7) ready))).length = 14 := by decide +kernel

/-- G2, and G5, clipped at the near corner. -/
theorem test_drawChar :
    frames (after (exec (.drawChar 10 20 0x22 0 0xFFFF 0) ready))
        = [frameOf [0x00, 0x40, 0x00, 0x41] [0x00, 0x3A, 0x00, 0x3B] [0xFF, 0xFF, 0xFF, 0xFF, 0, 0, 0xFF, 0xFF]]
      ∧ (after (exec (.drawChar 0xFFFF 1 0x21 0 0xFFFF 0) ready)).paintLog = [⟨0, 0, 0xFFFF⟩, ⟨1, 0, 0⟩] := by
  decide +kernel

/-- X15 and X18: an absent font, and a glyph past the bitmap though it is off the screen. -/
theorem test_drawChar_faults :
    statusWord (after (exec (.drawChar 10 20 0x21 5 0xFFFF 0) ready)) = 0x1503
      ∧ (after (exec (.drawChar 10 20 0x21 5 0xFFFF 0) ready)).faultArg = 0xFFFF
      ∧ statusWord (after (exec (.drawChar 0xFFF0 20 0x22 1 0xFFFF 0) ready)) = 0x1503
      ∧ (after (exec (.drawChar 0xFFF0 20 0x22 1 0xFFFF 0) ready)).faultArg = 0x0022 := by decide +kernel

/-- S8: the wrap that swallows a space. -/
theorem test_drawString :
    frames (after (exec (.drawString 128 10 0 0xFFFF 0 [0x21, 0x20, 0x21]) ready))
        = [frameOf [0x00, 0xB5, 0x00, 0xB7] [0x00, 0x2F, 0x00, 0x31]
             [0, 0, 0xFF, 0xFF, 0, 0, 0xFF, 0xFF, 0xFF, 0xFF, 0xFF, 0xFF, 0, 0, 0xFF, 0xFF, 0, 0],
           frameOf [0x00, 0x35, 0x00, 0x37] [0x00, 0x34, 0x00, 0x36]
             [0, 0, 0xFF, 0xFF, 0, 0, 0xFF, 0xFF, 0xFF, 0xFF, 0xFF, 0xFF, 0, 0, 0xFF, 0xFF, 0, 0]] := by
  decide +kernel

/-- X17: a fault at the second character keeps the first; G12: a string that stops below the screen. -/
theorem test_drawString_stops :
    let t := after (exec (.drawString 10 20 1 0xFFFF 0 [0x21, 0x22]) ready)
    statusWord t = 0x1503 ∧ t.faultArg = 0x0022 ∧ t.cp = 0 ∧ (frames t).length = 1 ∧ (points t).length = 9
      ∧ (after (exec (.drawString 132 240 0 0xFFFF 0 [0x21, 0x21]) ready)).wire = []
      ∧ (after (exec (.drawString 132 240 0 0xFFFF 0 [0x21, 0x21]) ready)).cp = 8 := by decide +kernel

/-- X21 and G18. -/
theorem test_getTextBounds :
    let t := after (exec (.getTextBounds 1 [0x21, 0x22]) (start []))
    (t.res0, t.res1, t.engine, t.cp) = (7, 3, .uninit, 4)
      ∧ [[0x21], [], [0x20], [0x20, 0x21], [0x22, 0x21], [0x21, 0x21], [0x41], [0x21, 0x41, 0x21]].map
          (fun cs => boundsResult (boundsWalk fontTF 0 none cs))
        = [(3, 3), (0, 0), (0, 0), (3, 3), (5, 3), (7, 3), (0, 0), (7, 3)] := by decide +kernel

/-- T5: a 16-byte Write is asynchronous, so the step ends with XFER_BUSY = 1; the transport completes it; the engine
then ends the command. -/
theorem test_async :
    let a := after (exec (.fillRect 0 0 4 2 0x1234) { asyncReady with transportScript := [false, true] })
    let b := after (step a)
    let c := after (step b)
    let d := after (step c)
    (a.xferBusy, a.sel, a.cp, b.xferBusy, c.xferBusy, d.cp, d.sel) = (true, true, 0, true, false, 6, false)
      ∧ (points d).length = 8
      ∧ (after (exec (.drawPixel 0 0 1) asyncReady)).xferBusy = false := by decide +kernel

/-- 42_transfer_window.md R146, R147: where a command waits in its second window, the first one is in the paint log
and in FB; a reset there leaves it in the paint log and forgets FB. -/
theorem test_async_paints :
    let a := after (exec (.drawString 0 3 0 7 0 [0x21, 0x21]) { asyncReady with transportScript := [true] })
    let c := after (step (after (step a)))
    let d := after (hostMove .reset c)
    (points a, c.xferBusy, (frameView c).length) = ([], true, 1)
      ∧ points c = [(0, 0), (1, 0), (2, 0), (0, 1), (1, 1), (2, 1), (0, 2), (1, 2), (2, 2)] ∧ fbRead c 1 0 = some 7
      ∧ d.paintLog = c.paintLog ∧ (frameView d).length = 1 ∧ fbRead d 1 0 = none := by decide +kernel

/-- 44_text.md R206, R209: a string that waits on its first glyph has that glyph's colours in GLYPH_BUF, and the
second glyph's (G2: fg fg, bg fg) once it has been taken up again. -/
theorem test_async_glyphBuf :
    let a := after (exec (.drawString 0 10 0 7 0 [0x21, 0x22]) { asyncReady with transportScript := [true] })
    let b := after (step (after (step a)))
    a.xferBusy = true ∧ a.glyphBuf.take 9 = [0, 7, 0, 7, 7, 7, 0, 7, 0]
      ∧ b.running = none ∧ b.glyphBuf.take 4 = [7, 7, 0, 7] := by decide +kernel

/-- 42_transfer_window.md R137, R143, 70_reset_and_hazards.md R267: a fill that waits inside SetWindow has not yet
refreshed the buffer; where it waits on its payload it has. -/
theorem test_async_refresh :
    let a := after (exec (.fillRect 0 0 4 2 0x1234)
      { asyncReady with par := lowParams, transportScript := [true, true] })
    let b := after (step (after (step a)))
    let c := after (step (after (step b)))
    (a.xferBusy, b.xferBusy, c.xferBusy) = (true, true, true)
      ∧ a.wire = [.sel, .dc .cmd, .xfer .sync [0x2A], .dc .data, .xfer .async [0x00, 0x35, 0x00, 0x38]]
      ∧ (a.bufTag, b.bufTag, c.bufTag) = (none, none, some 0x1234) ∧ b.bufData.take 4 = [0, 0, 0, 0]
      ∧ c.bufData.take 4 = [0x12, 0x34, 0x12, 0x34] := by decide +kernel

/-- L3.4: NOT_READY at CP 0, and the INIT behind it is never run. -/
theorem test_notReady :
    let t := after (step { start [] with cmds := [0x0011, 5, 5, 0xFFFF, 0x0001, 0, 0, 0] })
    statusWord t = 0x1303 ∧ t.faultCp = 0 ∧ t.faultArg = 0x0011 ∧ t.cp = 0 ∧ step t = .next t := by
  refine ⟨by decide +kernel, by decide +kernel, by decide +kernel, by decide +kernel, rfl⟩


/-! ## Witnesses

One theorem for each statement with hypotheses: a state and operands that meet them, for each clause, at a boundary
where the clause has one. -/

/-- The engine halted by an illegal command. -/
def halted : State := { State.reset with engine := .halted, errCode := .illegalCommand }

/-- A fill that waits for its asynchronous piece. -/
def busy : State := after (exec (.fillRect 0 0 4 2 0x1234) { asyncReady with transportScript := [false, true] })

/-- That fill, its piece completed, about to be taken up; and a string that ends in a fault, about to be. -/
def resumed : State := { busy with xferBusy := false }
def resumedFault : State := { ready with sel := true, running := some ⟨[.emit .desel], .faulted .fontFault 0x22⟩ }

/-- A fill that has waited inside SetWindow, about to be taken up; it will wait again. -/
def halfway : State :=
  { after (exec (.fillRect 0 0 4 2 0x1234) { asyncReady with par := lowParams }) with xferBusy := false }

/-- The transport completes each asynchronous piece of the command, as `endsIn` assumes. -/
def scripted (i : Instr) (s : State) : Prop :=
  ∃ rest, s.transportScript = List.replicate (asyncCount (commandEvents i s)) true ++ rest

theorem reset_inv : Inv State.reset := by
  refine ⟨Or.inr (by decide +kernel), ⟨fun h => (nomatch h), fun _ => by decide⟩, ?_, ?_, ?_, by decide +kernel, rfl⟩
  · exact ⟨fun _ => ⟨Or.inl rfl, fun _ => rfl⟩, fun h => (nomatch h), fun h => (nomatch h), fun h => (nomatch h)⟩
  · exact ⟨fun _ => by decide, rfl, rfl⟩
  · exact ⟨rfl, Nat.le_refl _⟩

theorem halted_inv : Inv halted := by
  refine ⟨Or.inr (by decide +kernel), ⟨fun h => (nomatch h), fun _ => by decide⟩, ?_, ?_, ?_, by decide +kernel, rfl⟩
  · exact ⟨fun h => (nomatch h), fun h => (nomatch h), fun h => (nomatch h), fun _ => by decide⟩
  · exact ⟨fun _ => by decide, rfl, rfl⟩
  · exact ⟨rfl, Nat.le_refl _⟩

theorem ready_inv : Inv ready := by
  refine ⟨Or.inl (by decide +kernel), ⟨fun _ => by decide +kernel, fun h => nomatch h⟩, ?_, ?_, ?_,
    by decide +kernel, rfl⟩
  · exact ⟨fun h => (nomatch h), fun _ => by decide, fun h => (nomatch h), fun h => (nomatch h)⟩
  · exact ⟨fun _ => by decide, rfl, rfl⟩
  · exact ⟨rfl, Nat.le_refl _⟩

/-- A machine about to run that fill. -/
def asyncFill : State := { asyncReady with transportScript := [true], cmds := [0x0016, 0, 0, 4, 2, 0x1234] }

theorem asyncFill_inv : Inv asyncFill := by
  refine ⟨Or.inl (by decide +kernel), ⟨fun _ => by decide +kernel, fun h => nomatch h⟩, ?_, ?_, ?_,
    by decide +kernel, rfl⟩
  · exact ⟨fun h => (nomatch h), fun _ => by decide, fun h => (nomatch h), fun h => (nomatch h)⟩
  · exact ⟨fun _ => by decide, rfl, rfl⟩
  · exact ⟨rfl, Nat.zero_le _⟩

theorem ready_draws : drawReady ready :=
  ⟨rfl, rfl, rfl, rfl, rfl, ⟨by decide +kernel, by decide +kernel, fun _ h => nomatch h⟩,
    ⟨by decide +kernel, by decide +kernel⟩, by decide +kernel, rfl⟩

theorem asyncFill_draws : drawReady asyncFill :=
  ⟨rfl, rfl, rfl, rfl, rfl, ⟨by decide +kernel, by decide +kernel, fun _ h => nomatch h⟩,
    ⟨by decide +kernel, by decide +kernel⟩, by decide +kernel, rfl⟩

theorem witness_DecodeEncode : wellFormed (.drawString 0 0 0 0 0 (List.replicate 65535 0x21)) = true := by
  simp only [wellFormed, charsFit, List.length_replicate, decide_eq_true_eq]
  omega

theorem witness_EncodeDecode : decode [0x0010, 0xFFFF] = .command (.fillScreen 0xFFFF) := by decide

theorem witness_IllegalOpcode :
    ([0x0000, 0x0107, 0x000F, 0x001B, 0x001F, 0x0023, 0xFFFF] : List Word).all
      (fun h =>
        decide ((lowByte h).toNat = 0x00 ∨ (0x07 ≤ (lowByte h).toNat ∧ (lowByte h).toNat ≤ 0x0F)
          ∨ (0x1B ≤ (lowByte h).toNat ∧ (lowByte h).toNat ≤ 0x1F)
          ∨ (0x23 ≤ (lowByte h).toNat ∧ (lowByte h).toNat ≤ 0xFF))) = true := by decide

theorem witness_TruncatedCommand :
    (highByte 0x0011 = 0 ∧ baseLen (lowByte 0x0011).toNat = some 4 ∧ ([1, 2] : List Word).length + 1 < 4)
      ∧ (highByte 0x0021 = 0 ∧ baseLen (lowByte 0x0021).toNat = some 7 ∧ (lowByte 0x0021).toNat = 0x21
          ∧ 7 ≤ ([0, 0, 0, 0, 0, 1] : List Word).length + 1
          ∧ ([0, 0, 0, 0, 0, 1] : List Word).length + 1 < 7 + ((([0, 0, 0, 0, 0, 1] : List Word).getD 5 0).toNat + 1) / 2)
      ∧ highByte 0x0022 = 0 ∧ baseLen (lowByte 0x0022).toNat = some 3 ∧ (lowByte 0x0022).toNat = 0x22
      ∧ 3 ≤ ([0, 1] : List Word).length + 1
      ∧ ([0, 1] : List Word).length + 1 < 3 + ((([0, 1] : List Word).getD 1 0).toNat + 1) / 2 := by decide

theorem witness_ReservedFields :
    (baseLen (lowByte 0x0101).toNat ≠ none ∧ highByte 0x0101 ≠ 0) ∧ highByte 0x0100 ≠ 0 ∧ flagReserved 0x0002 ≠ 0
      ∧ flagReserved 0x8000 ≠ 0 ∧ (((0 : Word).toNat + 1) / 2 ≤ ([] : List Word).length)
      ∧ (((1 : Word).toNat + 1) / 2 ≤ ([0x4121] : List Word).length ∧ highByte 0x0002 = 0 ∧ (1 : Word).toNat % 2 = 1
          ∧ highByte (([0x4121] : List Word).getD ((1 : Word).toNat / 2) 0) ≠ 0) := by decide

theorem witness_StepRunsDecoded :
    let s : State := { ready with cmds := [0x0004, 0x0011, 1, 2, 3], cp := 1 }
    s.xferBusy = false ∧ s.running = none ∧ s.engine ≠ .halted ∧ streamOk s.cmds = true ∧ s.cp.toNat < s.cmds.length
      ∧ decode (s.cmds.drop s.cp.toNat) = .command (.drawPixel 1 2 3) := by decide

theorem witness_StepTakesDecodeFault :
    let s : State := { ready with cmds := [0x0004, 0x0011, 1], cp := 1 }
    s.xferBusy = false ∧ s.running = none ∧ s.engine ≠ .halted ∧ streamOk s.cmds = true ∧ s.cp.toNat < s.cmds.length
      ∧ decode (s.cmds.drop s.cp.toNat) = .malformed .truncated 2 := by decide

theorem witness_IdleAndHaltedStay :
    (halted.xferBusy = false ∧ halted.running = none ∧ halted.engine = .halted)
      ∧ ready.xferBusy = false ∧ ready.running = none ∧ streamOk ready.cmds = true
      ∧ ready.cp.toNat = ready.cmds.length := by decide

theorem witness_OnlyResetLeavesHalted : Inv halted ∧ halted.engine = .halted := ⟨halted_inv, rfl⟩

theorem witness_FaultsArePrecise :
    State.reset.engine ≠ .halted ∧ (∀ x y font fg bg chars, Instr.drawPixel 1 2 3 ≠ .drawString x y font fg bg chars)
      ∧ ∃ t, exec (.drawPixel 1 2 3) State.reset = .next t ∧ t.engine = .halted :=
  ⟨by decide, fun _ _ _ _ _ _ h => (nomatch h), _, rfl, rfl⟩

theorem witness_NotReadyFaults :
    State.reset.engine = .uninit ∧ ({ State.reset with engine := .allocFailed } : State).engine = .allocFailed
      ∧ (∀ p r h, Instr.fillScreen 0 ≠ .init p r h) ∧ Instr.fillScreen 0 ≠ .deinit ∧ Instr.fillScreen 0 ≠ .getGeometry
      ∧ ∀ f cs, Instr.fillScreen 0 ≠ .getTextBounds f cs := by
  refine ⟨rfl, rfl, ?_, ?_, ?_, ?_⟩ <;> intros <;> intro h <;> cases h

theorem witness_OperandFaults :
    (ready.engine ≠ .halted ∧ 3 ≤ (3 : Byte).toNat) ∧ ready.engine = .ready ∧ fontAt ready.par.raw.fonts 5 = none
      ∧ State.reset.engine ≠ .halted ∧ fontAt (start []).par.raw.fonts 3 = none := by decide +kernel

/-- A read between commands and one while a command waits for its last piece; a stream that fits, the longest one and
a word more, and a stream in use. -/
theorem witness_HostPort :
    ready.running = none ∧ (∃ r, busy.running = some r ∧ (eventsOf r.queue).all (fun e => !isAsync e) = true)
      ∧ (idle ready = true ∧ (ready.cmds ++ [0x0004]).length < 4294967296)
      ∧ (∃ s : State, idle s = true ∧ 4294967296 ≤ (s.cmds ++ [0x0004]).length) ∧ idle halted = false := by
  refine ⟨rfl, ⟨_, rfl, by decide +kernel⟩, by decide, ?_, by decide⟩
  obtain ⟨ws, h⟩ : ∃ ws : List Word, ws.length = 4294967295 := ⟨_, List.length_replicate (a := 0x0004)⟩
  refine ⟨{ ready with cp := 4294967295, cmds := ws }, ?_, by simp [h]⟩
  show decide ((4294967295 : BitVec 32).toNat = ws.length) = true
  rw [h]
  decide

theorem witness_StepKeepsInv : Inv ready ∧ ∃ t, step ready = .next t := ⟨ready_inv, _, rfl⟩

theorem witness_HostMoveKeepsInv :
    Inv ready ∧ (∃ t, hostMove .reset ready = .next t) ∧ ∃ t, hostMove (.append [0x0004]) ready = .next t :=
  ⟨ready_inv, ⟨_, rfl⟩, _, rfl⟩

theorem witness_StepNeverStops : Inv State.reset := reset_inv

theorem witness_InvGivesDrawReady : Inv ready ∧ ready.engine = .ready ∧ ready.running = none := ⟨ready_inv, rfl, rfl⟩

theorem witness_RegisterOwners :
    (∃ t, exec (.drawLine 0 0 1 1 7) ready = .next t) ∧ Instr.drawLine 0 0 1 1 7 ≠ .getGeometry
      ∧ (∀ f cs, Instr.drawLine 0 0 1 1 7 ≠ .getTextBounds f cs) ∧ (∀ p r h, Instr.drawLine 0 0 1 1 7 ≠ .init p r h)
      ∧ (∀ r, Instr.drawLine 0 0 1 1 7 ≠ .setRotation r)
      ∧ ∃ r t, resumed.running = some r ∧ step resumed = .next t :=
  ⟨⟨_, rfl⟩, fun h => (nomatch h), fun _ _ h => (nomatch h), fun _ _ _ h => (nomatch h), fun _ h => (nomatch h),
    _, _, rfl, rfl⟩

theorem witness_FaultRegisterOwners : ∃ t, step { ready with cmds := [0x0000] } = .next t ∧ t.engine = .halted :=
  ⟨_, rfl, rfl⟩

theorem witness_BufferOwners :
    (∃ t, exec (.drawLine 0 0 1 1 7) ready = .next t) ∧ (∀ p r h, Instr.drawLine 0 0 1 1 7 ≠ .init p r h)
      ∧ Instr.drawLine 0 0 1 1 7 ≠ .deinit ∧ (∀ c, Instr.drawLine 0 0 1 1 7 ≠ .fillScreen c)
      ∧ (∀ x y w h c, Instr.drawLine 0 0 1 1 7 ≠ .fillRect x y w h c)
      ∧ (∀ x y w c, Instr.drawLine 0 0 1 1 7 ≠ .drawHLine x y w c)
      ∧ (∀ x y h c, Instr.drawLine 0 0 1 1 7 ≠ .drawVLine x y h c)
      ∧ (∀ x y w h c, Instr.drawLine 0 0 1 1 7 ≠ .drawRect x y w h c)
      ∧ (∀ x y r c, Instr.drawLine 0 0 1 1 7 ≠ .fillCircle x y r c)
      ∧ (∀ x y ch f fg bg, Instr.drawLine 0 0 1 1 7 ≠ .drawChar x y ch f fg bg)
      ∧ (∀ x y f fg bg cs, Instr.drawLine 0 0 1 1 7 ≠ .drawString x y f fg bg cs)
      ∧ asyncReady.running = none ∧ (∃ t, exec (.drawString 0 10 0 7 0 [0x21]) asyncReady = .next t ∧ t.running ≠ none)
      ∧ (∃ t, exec (.fillRect 0 0 4 2 0x1234) asyncReady = .next t ∧ t.running ≠ none)
      ∧ (∃ r t, busy.running = some r ∧ step busy = .next t ∧ busy.xferBusy = true)
      ∧ (resumed.running = some ⟨[.emit .desel], .complete 6⟩ ∧ resumed.xferBusy = false
        ∧ ∃ t, step resumed = .next t)
      ∧ ∃ r t, halfway.running = some r ∧ Action.refresh 0x1234 ∈ r.queue ∧ halfway.xferBusy = false
        ∧ step halfway = .next t ∧ t.running ≠ none := by
  refine ⟨⟨_, rfl⟩, ?_⟩
  simp only [ne_eq, reduceCtorEq, not_false_eq_true, implies_true, true_and]
  exact ⟨rfl, ⟨_, rfl, by decide +kernel⟩, ⟨_, rfl, by decide +kernel⟩, ⟨_, _, rfl, rfl, by decide +kernel⟩,
    ⟨by decide +kernel, rfl, _, rfl⟩, _, _, rfl, by decide +kernel, rfl, rfl, by decide +kernel⟩

theorem witness_TracesOnlyGrow :
    (∃ t, step { ready with cmds := [0x0011, 0, 0, 7] } = .next t ∧ memWf ready.fb = true ∧ t.fb ≠ [])
      ∧ ∃ t, hostMove .reset resumed = .next t :=
  ⟨⟨_, rfl, rfl, by decide +kernel⟩, _, rfl⟩

theorem witness_CommandPointer :
    (∃ t, exec (.drawPixel 1 2 3) ready = .next t ∧ t.running = none ∧ t.engine ≠ .halted)
      ∧ (∃ t, exec (.drawPixel 1 2 3) State.reset = .next t ∧ t.running = none ∧ t.engine = .halted)
      ∧ (∃ t, exec (.fillRect 0 0 4 2 0x1234) asyncReady = .next t ∧ t.running ≠ none)
      ∧ ready.running = none ∧ asyncReady.running = none ∧ State.reset.running = none ∧ ready.engine ≠ .halted
      ∧ asyncReady.engine ≠ .halted ∧ State.reset.engine ≠ .halted
      ∧ (∃ r t, busy.running = some r ∧ step busy = .next t ∧ t.running ≠ none)
      ∧ (∃ r t, resumed.running = some r ∧ step resumed = .next t ∧ t.running = none ∧ endingLen r.ending = some 6)
      ∧ ∃ r t, resumedFault.running = some r ∧ step resumedFault = .next t ∧ t.running = none
          ∧ endingLen r.ending = none :=
  ⟨⟨_, rfl, by decide +kernel, by decide +kernel⟩, ⟨_, rfl, by decide +kernel, by decide +kernel⟩,
    ⟨_, rfl, by decide +kernel⟩, rfl, rfl, rfl, by decide, by decide, by decide,
    ⟨_, _, rfl, rfl, by decide +kernel⟩, ⟨_, _, rfl, rfl, by decide +kernel, rfl⟩, _, _, rfl, rfl, rfl, rfl⟩

theorem witness_RotationNormalised : (3 : Byte).toNat < 4 ∧ 4 ≤ (4 : Byte).toNat ∧ 4 ≤ (99 : Byte).toNat := by decide

/-- The boundaries of the hint: 0, 1, the minimum 2, the maximum 1080. -/
theorem witness_AllocationSize :
    geometryOf ready = calibAt ready.par.raw.calib 0 0 ∧ (1 : BitVec 32) ≠ 0
      ∧ (1 : BitVec 32).toNat ≤ ready.par.raw.bufMinBytes ∧ ready.par.raw.bufMinBytes ≤ (2 : BitVec 32).toNat
      ∧ (1080 : BitVec 32).toNat ≤ ready.cfgWidth.toNat * ready.par.raw.kLines * 2
      ∧ ready.cfgWidth.toNat * ready.par.raw.kLines * 2 ≤ (1080 : BitVec 32).toNat := by decide +kernel

theorem witness_InitGranted :
    (2 : Byte).toNat < 3 ∧ (start [true]).engine ≠ .halted ∧ (start [true]).running = none
      ∧ (start [true]).sel = false ∧ syncOnly (start [true]) ∧ allocAnswer (start [true]) = true :=
  ⟨by decide, by decide, rfl, rfl, rfl, rfl⟩

theorem witness_InitRefused :
    (0 : Byte).toNat < 3 ∧ (start [false]).engine ≠ .halted
      ∧ ((start [false]).bufPresent = false
          → (start [false]).bufBytes = 0 ∧ (start [false]).bufData = [] ∧ (start [false]).bufTag = none)
      ∧ allocAnswer (start [false]) = false := by decide

theorem witness_Deinit :
    (ready.engine ≠ .halted ∧ ready.bufPresent = true)
      ∧ State.reset.engine ≠ .halted ∧ State.reset.bufPresent = false := by decide

theorem witness_SetRotation :
    ready.engine = .ready ∧ ready.running = none ∧ ready.sel = false ∧ syncOnly ready := ⟨rfl, rfl, rfl, rfl⟩

theorem witness_GetGeometry : State.reset.engine ≠ .halted := by decide

theorem witness_InvertAndTearing :
    ready.engine = .ready ∧ ready.running = none ∧ ready.sel = false ∧ syncOnly ready := ⟨rfl, rfl, rfl, rfl⟩

theorem witness_WritePieces : WireEvent.xfer .sync [0x2A] ∈ write exampleParams.raw [0x2A] := by decide +kernel

/-- The last column and row. -/
theorem witness_WindowFrame :
    cfgFits ready ∧ 0 ≤ 134 ∧ 134 < ready.cfgWidth.toNat ∧ 239 ≤ 239 ∧ 239 < ready.cfgHeight.toNat :=
  ⟨⟨by decide, by decide⟩, by decide, by decide, by decide, by decide⟩

/-- BUF_BYTES is 1080: 540 pixels are one full chunk with no remainder, 541 leave 2 bytes, 0 nothing, and 1 no full
chunk. -/
theorem witness_BufferFill :
    bufUsable ready ∧ 2 * 540 / ready.bufBytes.toNat = 1 ∧ 2 * 540 % ready.bufBytes.toNat = 0
      ∧ 2 * 541 / ready.bufBytes.toNat = 1 ∧ 2 * 541 % ready.bufBytes.toNat = 2
      ∧ (fillChunks ready 0x1234 0).length = 0 ∧ (fillChunks ready 0x1234 540).length = 1
      ∧ fillChunks ready 0x1234 1 = [.xfer .sync [0x12, 0x34]]
      ∧ isPrimitive (.fillRect 0 0 4 2 0x1234) = true ∧ drawReady asyncFill :=
  ⟨⟨by decide, by decide, fun _ h => nomatch h⟩, by decide, by decide, by decide, by decide, by decide +kernel,
    by decide +kernel, by decide +kernel, rfl, asyncFill_draws⟩

theorem witness_SuspendsAtAsyncPiece :
    (Inv asyncFill ∧ asyncFill.xferBusy = false ∧ ∃ t, step asyncFill = .next t ∧ t.running ≠ none)
      ∧ busy.xferBusy = true ∧ busy.transportScript = List.replicate 1 false ++ [true]
      ∧ (∃ r, resumed.running = some r ∧ resumed.xferBusy = false ∧ (drain r resumed).running = none)
      ∧ ∃ r, halfway.running = some r ∧ halfway.xferBusy = false ∧ (drain r halfway).running ≠ none :=
  ⟨⟨asyncFill_inv, rfl, _, rfl, by decide +kernel⟩, by decide +kernel, by decide +kernel,
    ⟨_, rfl, rfl, by decide +kernel⟩, _, rfl, rfl, by decide +kernel⟩

/-- A fill, a character and the string of that character, each with an asynchronous piece; a string that faults after
it; and the configuration commands. -/
theorem witness_AsyncRunCompletes :
    (isPrimitive (.fillRect 0 0 4 2 0x1234) = true ∧ drawReady asyncFill ∧ scripted (.fillRect 0 0 4 2 0x1234) asyncFill)
      ∧ (fontAt asyncFill.par.raw.fonts 0 = some fontTF ∧ charLookup fontTF 0x21 = some ⟨0, 3, 3, 4, 0, 0xFD⟩
          ∧ glyphInRange fontTF ⟨0, 3, 3, 4, 0, 0xFD⟩ = true ∧ scripted (.drawChar 10 20 0x21 0 7 0) asyncFill)
      ∧ ((stringWalk asyncFill fontTF 7 0 0 10 [0x21, 0x22]).fault = none
          ∧ scripted (.drawString 0 10 0 7 0 [0x21, 0x22]) asyncFill)
      ∧ (fontAt asyncFill.par.raw.fonts 1 = some fontTFS
          ∧ (stringWalk asyncFill fontTFS 7 0 0 10 [0x21, 0x22]).fault = some 0x0022
          ∧ scripted (.drawString 0 10 1 7 0 [0x21, 0x22]) asyncFill)
      ∧ ((2 : Byte).toNat < 3 ∧ (start [true]).engine ≠ .halted ∧ (start [true]).running = none
          ∧ (start [true]).xferBusy = false ∧ (start [true]).sel = false ∧ memWf (start [true]).fb = true
          ∧ allocAnswer (start [true]) = true ∧ scripted (.init 2 0 0) (start [true]))
      ∧ (asyncFill.engine = .ready ∧ asyncFill.running = none ∧ asyncFill.xferBusy = false ∧ asyncFill.sel = false
          ∧ memWf asyncFill.fb = true ∧ scripted (.setRotation 1) asyncFill ∧ scripted (.invert true) asyncFill
          ∧ scripted (.tearing true) asyncFill) :=
  ⟨⟨rfl, asyncFill_draws, [], by decide +kernel⟩,
    ⟨by decide +kernel, by decide +kernel, by decide +kernel, [], by decide +kernel⟩,
    ⟨by decide +kernel, [], by decide +kernel⟩, ⟨by decide +kernel, by decide +kernel, [], by decide +kernel⟩,
    ⟨by decide, by decide, rfl, rfl, rfl, rfl, rfl, [], by decide +kernel⟩,
    rfl, rfl, rfl, rfl, rfl, ⟨[true], by decide +kernel⟩, ⟨[true], by decide +kernel⟩, [true], by decide +kernel⟩

/-- The parameters of `asyncFill` without the asynchronous mode. -/
def syncParams : Params := ⟨{ asyncParams.raw with asyncEnable := false }, by decide +kernel⟩

/-- An asynchronous machine, and a synchronous one whose buffer has another size and other contents. -/
theorem witness_FramesIgnoreTransport :
    let i : Instr := .fillRect 0 0 4 2 0x1234
    let t : State := { ready with par := syncParams, bufBytes := 4, bufData := [1, 2, 3, 4] }
    (∀ p r h, i ≠ .init p r h) ∧ drawReady asyncFill ∧ drawReady t ∧ geometryOf asyncFill = geometryOf t
      ∧ asyncFill.cfgPanel = t.cfgPanel ∧ asyncFill.par.raw.calib = t.par.raw.calib
      ∧ asyncFill.par.raw.fonts = t.par.raw.fonts ∧ asyncFill.par.raw.madctl = t.par.raw.madctl
      ∧ asyncFill.par.raw.teonParam = t.par.raw.teonParam
      ∧ asyncFill.transportScript = List.replicate (asyncCount (commandEvents i asyncFill)) true ++ []
      ∧ t.transportScript = List.replicate (asyncCount (commandEvents i t)) true ++ [] :=
  ⟨fun _ _ _ h => (nomatch h), asyncFill_draws,
    ⟨rfl, rfl, rfl, rfl, rfl, ⟨by decide, by decide, fun _ h => nomatch h⟩, ⟨by decide, by decide⟩,
      by decide +kernel, rfl⟩,
    rfl, rfl, rfl, rfl, rfl, rfl, by decide +kernel, by decide +kernel⟩

/-- The first column off the screen, and a negative one. -/
theorem witness_DrawPixel :
    drawReady ready ∧ syncOnly ready ∧ (ready.cfgWidth.toNat : Int) ≤ (135 : Word).toInt ∧ (0xFFFF : Word).toInt < 0 :=
  ⟨ready_draws, rfl, by decide, by decide⟩

theorem witness_PointCommands : drawReady ready ∧ syncOnly ready := ⟨ready_draws, rfl⟩

theorem witness_SpanCommands : drawReady ready ∧ syncOnly ready := ⟨ready_draws, rfl⟩

theorem witness_BoxCommands : drawReady ready ∧ syncOnly ready := ⟨ready_draws, rfl⟩

theorem witness_FillCircle : drawReady ready ∧ syncOnly ready := ⟨ready_draws, rfl⟩

/-- The whole screen as a rectangle. -/
theorem witness_FillRectStreams :
    drawReady ready ∧ syncOnly ready ∧ 0 ≤ (0 : Word).toInt ∧ 0 < (135 : Word).toInt ∧ 0 < (240 : Word).toInt
      ∧ (0 : Word).toInt + (135 : Word).toInt ≤ ready.cfgWidth.toNat
      ∧ (0 : Word).toInt + (240 : Word).toInt ≤ ready.cfgHeight.toNat :=
  ⟨ready_draws, rfl, by decide, by decide, by decide, by decide, by decide⟩

theorem witness_FillScreenIsFillRect :
    drawReady ready ∧ syncOnly ready ∧ ready.cfgWidth.toNat ≤ 32767 ∧ ready.cfgHeight.toNat ≤ 32767 :=
  ⟨ready_draws, rfl, by decide, by decide⟩

theorem witness_NoGeometryErrors :
    isPrimitive (.drawCircle 0x8000 0x7FFF 0x7FFF 1) = true ∧ ready.engine = .ready := ⟨rfl, rfl⟩

/-- A row's midpoint (2 by 1), a diagonal, a steep line, and a line of one point. -/
theorem witness_LineShape :
    ((3, 1) : Int × Int) ∈ linePoints 0 0 3 1
      ∧ ((1 - 0 : Int).natAbs ≤ (2 - 0 : Int).natAbs ∧ (0 : Int) ≤ 2 ∧ linePoints 0 0 2 1 = [(0, 0), (1, 0), (2, 1)])
      ∧ ((2 - 0 : Int).natAbs ≤ (2 - 0 : Int).natAbs ∧ linePoints 0 0 2 2 = [(0, 0), (1, 1), (2, 2)])
      ∧ ((1 - 0 : Int).natAbs < (2 - 0 : Int).natAbs ∧ linePoints 1 0 0 2 = [(1, 0), (1, 1), (0, 2)])
      ∧ linePoints 5 5 5 5 = [(5, 5)] := by decide

/-- The radii 0 (no step), 1 and 3, and a negative one. -/
theorem witness_CircleWalk :
    ((0 : Int) ≤ 0 ∧ circleSteps 0 = []) ∧ ((0 : Int) < 1 ∧ (circleSteps 1)[0]? = some (1, 0))
      ∧ ((0 : Int) ≤ 3 ∧ (circleSteps 3)[1]? = some (2, 2)) ∧ ((1, 3) : Int × Int) ∈ circleSteps 3 ∧ (-1 : Int) < 0 := by
  decide

theorem witness_DiscShape :
    (⟨7, 10, 7⟩ : Span) ∈ discSpans 10 10 3 ∧ ((10, 13) : Int × Int) ∈ circlePoints 10 10 3
      ∧ (0 : Int) ≤ 0 ∧ (0 : Int) ≤ 3 ∧ ((1, 3) : Int × Int) ∈ circleSteps 3 ∧ (circleSteps 3)[1]? = some (2, 2)
      ∧ (-1 : Int) < 0 := by decide

/-- With both cases of the major axis, and an edge's midpoint (2 by 1), which goes up. -/
theorem witness_TriangleEdges :
    ((1, 1) : Int × Int) ∈ edgePoints 0 0 2 2 ∧ ((1, 1) : Int × Int) ∈ linePoints 0 0 4 4
      ∧ ((3, 3) : Int × Int) ∈ linePoints 2 2 4 4
      ∧ ((1 - 0 : Int).natAbs ≤ (2 - 0 : Int).natAbs ∧ edgePoints 0 0 2 1 = [(0, 0), (1, 1), (2, 1)])
      ∧ ((1 - 0 : Int).natAbs < (2 - 0 : Int).natAbs ∧ edgePoints 0 0 1 2 = [(0, 0), (1, 1), (1, 2)]) := by decide

/-- '!' of TF, below the threshold, and 'A' of TB at the threshold (G1, G19). -/
theorem witness_DrawChar :
    drawReady ready ∧ syncOnly ready
      ∧ (fontAt ready.par.raw.fonts 0 = some fontTF ∧ charLookup fontTF 0x21 = some ⟨0, 3, 3, 4, 0, 0xFD⟩
          ∧ glyphInRange fontTF ⟨0, 3, 3, 4, 0, 0xFD⟩ = true
          ∧ (glyphPaints ready fontTF ⟨0, 3, 3, 4, 0, 0xFD⟩ 10 20 1 0).length = 9)
      ∧ fontAt ready.par.raw.fonts 2 = some fontTB ∧ charLookup fontTB 0x41 = some ⟨0, 40, 40, 40, 0, 0xD8⟩
      ∧ glyphInRange fontTB ⟨0, 40, 40, 40, 0, 0xD8⟩ = true
      ∧ (glyphPaints ready fontTB ⟨0, 40, 40, 40, 0, 0xD8⟩ 0 40 1 0).length = 1600 :=
  ⟨ready_draws, rfl, by decide +kernel, by decide +kernel, by decide +kernel, by decide +kernel, by decide +kernel⟩

/-- The three cases: none visible (G7), G20's 1560 pixels, G19's 1600. -/
theorem witness_GlyphPaths :
    drawReady ready ∧ (glyphPaints ready fontTF ⟨0, 3, 3, 4, 0, 0xFD⟩ 0 0 1 0).length = 0
      ∧ (glyphPaints ready fontTB ⟨0, 40, 39, 40, 0, 0xD9⟩ 0 39 1 0).length = 1560
      ∧ (glyphPaints ready fontTB ⟨0, 40, 40, 40, 0, 0xD8⟩ 0 40 1 0).length = 1600 :=
  ⟨ready_draws, by decide +kernel, by decide +kernel, by decide +kernel⟩

/-- The quotation mark of TFS needs byte 2 of a bitmap of 2. -/
theorem witness_GlyphFault :
    ready.engine = .ready ∧ fontAt ready.par.raw.fonts 1 = some fontTFS
      ∧ charLookup fontTFS 0x22 = some ⟨2, 2, 2, 3, 1, 0xFE⟩ ∧ 0 < (2 : Byte).toNat
      ∧ fontTFS.bitmap.length ≤ ((2 : Word).toNat * 8 + (2 : Byte).toNat * (2 : Byte).toNat - 1) / 8 := by
  decide +kernel

/-- The characters on either side of the font's range. -/
theorem witness_NoGlyphNoEvent :
    ready.engine = .ready ∧ ready.running = none ∧ fontAt ready.par.raw.fonts 0 = some fontTF
      ∧ ((0x1F : Byte).toNat < fontTF.first.toNat ∨ fontTF.last.toNat < (0x1F : Byte).toNat)
      ∧ ((0x23 : Byte).toNat < fontTF.first.toNat ∨ fontTF.last.toNat < (0x23 : Byte).toNat)
      ∧ ∀ c ∈ ([0x1F, 0x23] : List Byte), c.toNat < fontTF.first.toNat ∨ fontTF.last.toNat < c.toNat := by
  decide +kernel

theorem witness_DrawString :
    drawReady ready ∧ syncOnly ready ∧ fontAt ready.par.raw.fonts 0 = some fontTF
      ∧ (stringWalk ready fontTF 1 0 0 10 [0x21, 0x22]).fault = none
      ∧ fontAt ready.par.raw.fonts 1 = some fontTFS
      ∧ (stringWalk ready fontTFS 1 0 0 10 [0x21, 0x22]).fault = some 0x0022 :=
  ⟨ready_draws, rfl, by decide +kernel, by decide +kernel, by decide +kernel, by decide +kernel⟩

/-- Each clause: no glyph; below the screen (240 is not, 241 is); a wrapped space; a glyph out of range; a glyph that
just fits the row (131 + 4 = 135) and one that just does not. -/
theorem witness_StringLoop :
    charLookup fontTF 0x41 = none ∧ (ready.cfgHeight.toNat : Int) < 241 ∧ (240 : Int) ≤ ready.cfgHeight.toNat
      ∧ charLookup fontTF 0x20 = some ⟨0, 0, 0, 4, 0, 0⟩ ∧ glyphInRange fontTFS ⟨2, 2, 2, 3, 1, 0xFE⟩ = false
      ∧ glyphInRange fontTF ⟨0, 3, 3, 4, 0, 0xFD⟩ = true
      ∧ decide ((ready.cfgWidth.toNat : Int) < 131 + (4 : Byte).toNat) = false
      ∧ decide ((ready.cfgWidth.toNat : Int) < 132 + (4 : Byte).toNat) = true := by decide +kernel

/-- Each clause of a round: no glyph, an empty one, and another one. -/
theorem witness_TextBounds :
    (start []).engine ≠ .halted ∧ fontAt (start []).par.raw.fonts 0 = some fontTF
      ∧ charLookup fontTF 0x41 = none ∧ charLookup fontTF 0x20 = some ⟨0, 0, 0, 4, 0, 0⟩
      ∧ (∀ g, charLookup fontTF 0x20 = some g → g.width = 0 ∨ g.height = 0)
      ∧ charLookup fontTF 0x21 = some ⟨0, 3, 3, 4, 0, 0xFD⟩ ∧ charLookup fontTF 0x22 = some ⟨2, 2, 2, 3, 1, 0xFE⟩
      ∧ 0 < (3 : Byte).toNat ∧ 0 < (2 : Byte).toNat :=
  ⟨by decide, by decide +kernel, by decide +kernel, by decide +kernel,
    fun g h => by
      have h' : g = ⟨0, 0, 0, 4, 0, 0⟩ := Option.some.inj (h.symm.trans (by decide +kernel))
      subst h'
      exact Or.inl rfl,
    by decide +kernel, by decide +kernel, by decide, by decide⟩

end Sys2Proof.Tests
end

section
/-! PROOFS. The scope of 00_scope.md R14, R61, R77: what a step does to the stream, the parameters and the traces, and
that the frames and pixels of a command do not depend on the transport. Both rest on one inversion of the commands,
`exec_gated_runsAs`: a command writes registers only, or drains the actions whose events `commandEvents` tells. -/

namespace Sys2Proof.Machine

/-! ## What the ends of a command leave in the traces -/

@[simp] theorem finish_wire (e : Ending) (s : State) : (finish e s).wire = s.wire := by cases e <;> rfl
@[simp] theorem finish_paintLog (e : Ending) (s : State) : (finish e s).paintLog = s.paintLog := by cases e <;> rfl
@[simp] theorem finish_running (e : Ending) (s : State) : (finish e s).running = s.running := by cases e <;> rfl

/-- A command's end keeps FB or makes it unknown everywhere (42_transfer_window.md R147). -/
theorem finish_fb (e : Ending) (s : State) : (finish e s).fb = [] ∨ (finish e s).fb = s.fb := by
  cases e with
  | complete len => exact .inr rfl
  | initialised len => exact .inl rfl
  | rotated len => exact .inl rfl
  | faulted code arg => exact .inr rfl

/-- One stretch of a command: the events it emits, their pixels in the paint log, and in FB unless the command's end
forgets it. -/
theorem drain_paints (r : Running) (s : State) :
    ∃ es, (drain r s).wire = s.wire ++ es ∧ (drain r s).paintLog = s.paintLog ++ paintsOf s es
      ∧ ((drain r s).fb = [] ∨ (drain r s).fb = paintFb s (paintsOf s es)) := by
  rw [drain]
  split
  · rename_i now hn
    rw [runActions_eq]
    exact ⟨eventsOf now, finish_wire _ _, finish_paintLog _ _, finish_fb _ _⟩
  · rename_i now rest hn
    rw [runActions_eq]
    exact ⟨eventsOf now, rfl, rfl, .inr rfl⟩

/-! ## Register writes: what leaves the traces alone -/

/-- From s to u only registers, buffers and the allocator's trace have changed: the stream, the parameters, the wire,
the paint log and FB stand, and the allocator's trace has grown. -/
structure QuietTo (s u : State) : Prop where
  cmds : u.cmds = s.cmds
  par : u.par = s.par
  wire : u.wire = s.wire
  paintLog : u.paintLog = s.paintLog
  fb : u.fb = s.fb
  alloc : ∃ as, u.alloc = s.alloc ++ as

/-- A state that has the same traces, stream and parameters. -/
theorem QuietTo.of_eq {s u : State} (hc : u.cmds = s.cmds) (hp : u.par = s.par) (hw : u.wire = s.wire)
    (hl : u.paintLog = s.paintLog) (hf : u.fb = s.fb) (ha : u.alloc = s.alloc) : QuietTo s u :=
  ⟨hc, hp, hw, hl, hf, [], by simp [ha]⟩

theorem QuietTo.trans {s u v : State} (h : QuietTo s u) (k : QuietTo u v) : QuietTo s v := by
  obtain ⟨as, ha⟩ := h.alloc
  obtain ⟨bs, hb⟩ := k.alloc
  exact ⟨k.cmds.trans h.cmds, k.par.trans h.par, k.wire.trans h.wire, k.paintLog.trans h.paintLog, k.fb.trans h.fb,
    as ++ bs, by rw [hb, ha, List.append_assoc]⟩

theorem quietTo_refl (s : State) : QuietTo s s := .of_eq rfl rfl rfl rfl rfl rfl

theorem quietTo_raise (code : ErrCode) (arg : Word) (s : State) : QuietTo s (raise code arg s) :=
  .of_eq rfl rfl rfl rfl rfl rfl

theorem quietTo_loadLatch (i : Instr) (s : State) : QuietTo s (loadLatch i s) := .of_eq rfl rfl rfl rfl rfl rfl

theorem quietTo_applyGeometry (p : Fin 3) (r : BitVec 2) (s : State) : QuietTo s (applyGeometry p r s) :=
  .of_eq rfl rfl rfl rfl rfl rfl

/-- The buffer's release joins the allocator's trace, if there is a buffer (41_config.md R106). -/
theorem quietTo_release (s : State) : QuietTo s (release s) :=
  ⟨rfl, rfl, rfl, rfl, rfl, if s.bufPresent then [.free] else [], by cases h : s.bufPresent <;> simp [release, h]⟩

/-- So do the release and the request of an allocation (42_transfer_window.md R139). -/
theorem quietTo_allocate (hint : BitVec 32) (s : State) : QuietTo s (allocate hint s) :=
  (quietTo_release s).trans ⟨rfl, rfl, rfl, rfl, rfl, _, rfl⟩

/-- The frame view is one of the wire. -/
theorem frameView_congr {s t : State} (h : t.wire = s.wire) : frameView t = frameView s := by
  rw [frameView, h, frameView]

/-! ## What a command is, as its traces tell -/

/-- What the meaning of the command i makes of s, told by its events: it writes registers only and has no event, or it
drains actions whose events are `commandEvents i s`, from a state that has the traces of s. -/
def RunsAs (i : Instr) (s t : State) : Prop :=
  (commandEvents i s = [] ∧ QuietTo s t ∧ t.running = s.running)
    ∨ ∃ q e u, t = drain ⟨q, e⟩ u ∧ eventsOf q = commandEvents i s ∧ QuietTo s u ∧ u.xferBusy = s.xferBusy
      ∧ u.transportScript = s.transportScript ∧ paintsOf u (commandEvents i s) = paintsOf s (commandEvents i s)

/-- A command that performs its transactions. -/
theorem runsAs_perform {i : Instr} {s : State} {ds : List Draw} (e : Ending) (hc : configEvents i s = [])
    (hd : commandDraws i s = ds) : RunsAs i s (perform ds e s) :=
  .inr ⟨drawActions ds s, e, s, rfl, by rw [eventsOf_drawActions, commandEvents, hc, hd, List.nil_append],
    quietTo_refl s, rfl, rfl, rfl⟩

/-- A command that writes registers only. -/
theorem runsAs_quiet {i : Instr} {s t : State} (hc : configEvents i s = []) (hd : commandDraws i s = [])
    (ht : QuietTo s t) (hr : t.running = s.running) : RunsAs i s t :=
  .inl ⟨by rw [commandEvents, hc, hd]; rfl, ht, hr⟩

/-- A command that sends one controller command, after it may have set the geometry. -/
theorem runsAs_writeCmd {i : Instr} {s u : State} (c : Byte) (args : List Byte) (e : Ending)
    (hc : configEvents i s = writeCmd s.par.raw c args) (hd : commandDraws i s = []) (hu : QuietTo s u)
    (hx : u.xferBusy = s.xferBusy) (ht : u.transportScript = s.transportScript) :
    RunsAs i s (launch (writeCmd s.par.raw c args) e u) := by
  have hes : commandEvents i s = writeCmd s.par.raw c args := by
    rw [commandEvents, hc, hd, drawEvents, List.append_nil]
  exact .inr ⟨_, e, u, rfl, by rw [eventsOf_map_emit, hes], hu, hx, ht,
    by rw [hes, paintsOf_writeCmd, paintsOf_writeCmd]⟩

/-- DRAW_CHAR: a fault, nothing, or its glyph's transactions (44_text.md R208). -/
theorem runsAs_drawCharBody (x y : Word) (ch font : Byte) (fg bg : Color) (s : State) :
    RunsAs (.drawChar x y ch font fg bg) s (drawCharBody x y ch font fg bg s) := by
  rw [drawCharBody]
  split
  · rename_i hf
    exact runsAs_quiet rfl (by simp only [commandDraws, hf]) (quietTo_raise _ _ s) rfl
  · rename_i f hf
    split
    · rename_i hg
      exact runsAs_perform (ds := []) _ rfl (by simp only [commandDraws, hf, hg])
    · rename_i g hg
      split
      · rename_i hr
        exact runsAs_perform _ rfl (by simp only [commandDraws, hf, hg, hr, if_true])
      · rename_i hr
        exact runsAs_quiet rfl (by simp [commandDraws, hf, hg, hr]) (quietTo_raise _ _ s) rfl

/-- DRAW_STRING: a fault for an absent font, or its glyphs' transactions (44_text.md R209). -/
theorem runsAs_drawStringBody (x y : Word) (font : Byte) (fg bg : Color) (chars : List Byte) (s : State) :
    RunsAs (.drawString x y font fg bg chars) s (drawStringBody x y font fg bg chars s) := by
  rw [drawStringBody]
  split
  · rename_i hf
    exact runsAs_quiet rfl (by simp only [commandDraws, hf]) (quietTo_raise _ _ s) rfl
  · rename_i f hf
    exact runsAs_perform _ rfl (by simp only [commandDraws, hf])

/-- GET_TEXT_BOUNDS writes result registers or faults (44_text.md R212). -/
theorem runsAs_textBoundsBody (font : Byte) (chars : List Byte) (s : State) :
    RunsAs (.getTextBounds font chars) s (textBoundsBody font chars s) := by
  rw [textBoundsBody]
  split
  · exact runsAs_quiet rfl rfl (quietTo_raise _ _ s) rfl
  · exact runsAs_quiet rfl rfl (.of_eq rfl rfl rfl rfl rfl rfl) rfl

/-- TEARING sends one controller command (41_config.md R110). -/
theorem runsAs_tearing (on : Bool) (s : State) :
    RunsAs (.tearing on) s (launch (tearingEvents s.par.raw on) (.complete 2) s) := by
  cases on with
  | true => exact runsAs_writeCmd 0x35 s.par.raw.teonParam.toList _ rfl rfl (quietTo_refl s) rfl rfl
  | false => exact runsAs_writeCmd 0x34 [] _ rfl rfl (quietTo_refl s) rfl rfl

/-- A primitive performs its transactions, where the state accepts it (43_primitives.md R160). -/
theorem exec_primitive {i : Instr} (h : isPrimitive i = true) (s : State) :
    exec i s = .next
      (gated (gateOf i) (opcOf i) (fun t => perform (commandDraws i t) (.complete (cmdLen i)) t) s) := by
  cases i <;> cases h <;> rfl

/-- Every command but INIT, where the state accepts it, runs as its events tell. -/
theorem exec_gated_runsAs {i : Instr} (hi : ∀ p r h, i ≠ .init p r h) (s : State) :
    ∃ t, exec i s = .next (gated (gateOf i) (opcOf i) (fun _ => t) s) ∧ RunsAs i s t := by
  cases hp : isPrimitive i with
  | true =>
    exact ⟨_, exec_primitive hp s, runsAs_perform _ (by cases i <;> cases hp <;> rfl) rfl⟩
  | false =>
    cases i with
    | init p r h => exact absurd rfl (hi p r h)
    | deinit =>
      exact ⟨_, rfl, runsAs_quiet rfl rfl ((quietTo_release s).trans (.of_eq rfl rfl rfl rfl rfl rfl)) rfl⟩
    | setRotation rot =>
      exact ⟨_, rfl, runsAs_writeCmd 0x36 _ _ rfl rfl (quietTo_applyGeometry _ _ s) rfl rfl⟩
    | getGeometry => exact ⟨_, rfl, runsAs_quiet rfl rfl (.of_eq rfl rfl rfl rfl rfl rfl) rfl⟩
    | invert on => exact ⟨_, rfl, runsAs_writeCmd (if on then 0x21 else 0x20) [] _ rfl rfl (quietTo_refl s) rfl rfl⟩
    | tearing on => exact ⟨_, rfl, runsAs_tearing on s⟩
    | drawChar x y ch font fg bg => exact ⟨_, rfl, runsAs_drawCharBody x y ch font fg bg s⟩
    | drawString x y font fg bg chars => exact ⟨_, rfl, runsAs_drawStringBody x y font fg bg chars s⟩
    | getTextBounds font chars => exact ⟨_, rfl, runsAs_textBoundsBody font chars s⟩
    | _ => cases hp

/-! ## Traces only grow (00_scope.md R14, 20_memory.md R61, R70, R77) -/

/-- What a step can do to the traces: nothing, forget FB, or a stretch of a command. -/
def TraceStep (s t : State) : Prop :=
  ∃ u, QuietTo s u ∧ (t = u ∨ t = forgetFb u ∨ ∃ r, t = drain r u)

theorem traceStep_quiet {s t : State} (h : QuietTo s t) : TraceStep s t := ⟨t, h, .inl rfl⟩

theorem RunsAs.traceStep {i : Instr} {s t : State} (h : RunsAs i s t) : TraceStep s t := by
  obtain ⟨-, hq, -⟩ | ⟨q, e, u, rfl, -, hq, -⟩ := h
  · exact traceStep_quiet hq
  · exact ⟨u, hq, .inr (.inr ⟨_, rfl⟩)⟩

/-- The end of an INIT whose request is refused restarts FB (41_config.md R103, 42_transfer_window.md R147). -/
theorem refusal_traceStep {s u : State} (h : QuietTo s u) :
    TraceStep s (advance 4 { forgetFb u with engine := .allocFailed, errCode := .allocError }) :=
  ⟨advance 4 { u with engine := .allocFailed, errCode := .allocError }, h.trans (.of_eq rfl rfl rfl rfl rfl rfl),
    .inr (.inl rfl)⟩

/-- INIT: BAD_PANEL, a refused request that forgets FB, or a stretch of its events (41_config.md R103). -/
theorem initBody_traceStep (panel rot : Byte) (hint : BitVec 32) (s : State) :
    TraceStep s (initBody panel rot hint s) := by
  have hq (p : Fin 3) : QuietTo s (allocate hint (applyGeometry p (normRot rot) s)) :=
    (quietTo_applyGeometry p _ s).trans (quietTo_allocate hint _)
  rw [initBody]
  split
  · rw [initPanel]
    dsimp only
    split
    · exact ⟨_, hq _, .inr (.inr ⟨_, rfl⟩)⟩
    · exact refusal_traceStep (hq _)
  · exact traceStep_quiet (quietTo_raise _ _ s)

/-- A gate adds only the state itself and NOT_READY (60_exceptions.md R232). -/
theorem gated_traceStep {g : Gate} {opc : Word} {body : State → State} {s : State} (h : TraceStep s (body s)) :
    TraceStep s (gated g opc body s) := by
  obtain ht | ht | ht := gated_outcome (g := g) (opc := opc) (body := body) (s := s) rfl
  · rw [ht]; exact traceStep_quiet (quietTo_refl s)
  · rw [ht]; exact traceStep_quiet (quietTo_raise _ _ s)
  · rw [ht]; exact h

theorem exec_traceStep {i : Instr} {s t : State} (h : exec i s = .next t) : TraceStep s t := by
  by_cases hi : ∃ p r k, i = .init p r k
  · obtain ⟨p, r, k, rfl⟩ := hi
    cases h
    exact gated_traceStep (initBody_traceStep p r k s)
  · obtain ⟨u, hu, hr⟩ := exec_gated_runsAs (i := i) (fun p r k hk => hi ⟨p, r, k, hk⟩) s
    cases hu.symm.trans h
    exact gated_traceStep hr.traceStep

theorem step_traceStep {s t : State} (h : step s = .next t) : TraceStep s t := by
  obtain rfl | ⟨r, -, rfl⟩ | rfl | ⟨-, i, hi⟩ | ⟨-, code, arg, rfl⟩ := step_outcome h
  · exact traceStep_quiet (.of_eq rfl rfl rfl rfl rfl rfl)
  · exact ⟨s, quietTo_refl s, .inr (.inr ⟨r, rfl⟩)⟩
  · exact traceStep_quiet (quietTo_refl _)
  · obtain ⟨u, hu, ht⟩ := exec_traceStep hi
    exact ⟨u, (quietTo_loadLatch i s).trans hu, ht⟩
  · exact traceStep_quiet (quietTo_raise _ _ s)

/-- The paint log has gained the pixels of exactly the frames that the frame view has gained, under the shift in force
in t, and FB has taken them, unless it is unknown everywhere (42_transfer_window.md R134, R146, R147). -/
def PaintsFrames (s t : State) : Prop :=
  ∃ fs ps, frameView t = frameView s ++ fs ∧ t.paintLog = s.paintLog ++ ps
    ∧ ps = fs.flatMap (framePaints (nat16 t.cfgXshift) (nat16 t.cfgYshift))
    ∧ (memWf s.fb = true → t.fb ≠ [] → ∀ x y,
        fbRead t x y = if visible t x y = true then (paintedAt ps x y).or (fbRead s x y) else fbRead s x y)

theorem QuietTo.fbRead_eq {s u : State} (h : QuietTo s u) (x y : Int) : fbRead u x y = fbRead s x y := by
  simp only [fbRead, h.fb]

theorem QuietTo.paintsFrames {s t : State} (h : QuietTo s t) : PaintsFrames s t :=
  ⟨[], [], by simpa using frameView_congr h.wire, by simpa using h.paintLog, rfl,
    fun _ _ x y => by simp [h.fbRead_eq, paintedAt]⟩

theorem QuietTo.paintsFrames_forgetFb {s u : State} (h : QuietTo s u) : PaintsFrames s (forgetFb u) :=
  ⟨[], [], by rw [List.append_nil]; exact frameView_congr h.wire, by simpa using h.paintLog, rfl,
    fun _ hf => absurd rfl hf⟩

theorem QuietTo.paintsFrames_drain {s u : State} (h : QuietTo s u) (r : Running) : PaintsFrames s (drain r u) := by
  obtain ⟨es, hw, hp, hf⟩ := drain_paints r u
  refine ⟨newFrames u es, paintsOf u es, by rw [frameView_append hw, frameView_congr h.wire],
    by rw [hp, h.paintLog], by simp only [paintsOf, drain_cfgXshift, drain_cfgYshift], fun hm hne x y => ?_⟩
  have hv : visible (drain r u) x y = visible u x y := by simp [visible]
  rw [hv, ← h.fbRead_eq]
  exact fbRead_paint _ x y (h.fb ▸ hm) (hf.resolve_left hne)

theorem TraceStep.paintsFrames {s t : State} (h : TraceStep s t) : PaintsFrames s t := by
  obtain ⟨u, hu, rfl | rfl | ⟨r, rfl⟩⟩ := h
  · exact hu.paintsFrames
  · exact hu.paintsFrames_forgetFb
  · exact hu.paintsFrames_drain r

/-- A step leaves the stream and the parameters, and the traces of the wire and the allocator grow. -/
theorem TraceStep.grows {s t : State} (h : TraceStep s t) :
    t.cmds = s.cmds ∧ t.par = s.par ∧ (∃ es, t.wire = s.wire ++ es) ∧ ∃ es, t.alloc = s.alloc ++ es := by
  obtain ⟨u, hu, rfl | rfl | ⟨r, rfl⟩⟩ := h
  · exact ⟨hu.cmds, hu.par, ⟨[], by simp [hu.wire]⟩, hu.alloc⟩
  · exact ⟨hu.cmds, hu.par, ⟨[], by simp [hu.wire]⟩, hu.alloc⟩
  · obtain ⟨es, hw, -⟩ := drain_paints r u
    exact ⟨by simp [hu.cmds], by simp [hu.par], ⟨es, by rw [hw, hu.wire]⟩, by simpa using hu.alloc⟩

/-- A host move changes no trace (log 16). -/
theorem hostMove_traces {m : HostMove} {s t : State} (h : hostMove m s = .next t) :
    t.wire = s.wire ∧ t.alloc = s.alloc ∧ t.paintLog = s.paintLog := by
  cases m with
  | reset => cases h; exact ⟨rfl, rfl, rfl⟩
  | append ws =>
    rw [hostMove] at h
    split at h
    · cases h
    · split at h
      · cases h
      · cases h; exact ⟨rfl, rfl, rfl⟩

/-- Settles O25: every step is a quiet change of registers, at most followed by a stretch of a command or by FB's
restart. -/
theorem tracesOnlyGrow : Obligations.TracesOnlyGrow := by
  refine ⟨fun s t h => ?_, fun m s t h => hostMove_traces h⟩
  obtain ⟨hc, hp, hw, ha⟩ := (step_traceStep h).grows
  exact ⟨hc, hp, hw, ha, (step_traceStep h).paintsFrames⟩

end Sys2Proof.Machine
end

section
/-! PROOFS. The frames and pixels of a command, and that the transport's parameters and the buffer do not show in them
(00_scope.md R14, 42_transfer_window.md R134). -/

namespace Sys2Proof.Machine

/-! ## What a command of READY has added to the traces once its pieces have completed -/

/-- Once the transport has completed each of its pieces, a command of READY but INIT has ended, the frame view has
gained the frames of its events, and the paint log their pixels (42_transfer_window.md R135, R146). -/
theorem command_traces {i : Instr} {s : State} {rest : List Bool} (hi : ∀ p r h, i ≠ .init p r h) (hs : drawReady s)
    (ht : s.transportScript = List.replicate (asyncCount (commandEvents i s)) true ++ rest) :
    ∃ s1 s2, exec i s = .next s1
      ∧ Host.Core.run core (2 * asyncCount (commandEvents i s)) s1 = .next s2 ∧ s2.running = none
      ∧ frameView s2 = frameView s ++ newFrames s (commandEvents i s)
      ∧ s2.paintLog = s.paintLog ++ paintsOf s (commandEvents i s) := by
  obtain ⟨he, hr, hx, -, -, -, -, -, hm⟩ := hs
  obtain ⟨s1, h1, hrun⟩ := exec_gated_runsAs hi s
  rw [gated_ready _ _ _ he] at h1
  obtain ⟨hes, hq, hr1⟩ | ⟨q, e, u, rfl, hes, hq, hux, hut, hup⟩ := hrun
  · rw [hes]
    exact ⟨s1, s1, h1, rfl, hr1.trans hr, by simpa using frameView_congr hq.wire, by simpa using hq.paintLog⟩
  · have hd := drain_run q e u rest (hux.trans hx) (hq.fb ▸ hm) (by rw [hes, hut, ht])
    rw [hes] at hd
    refine ⟨_, _, h1, hd, finish_running _ _, ?_, ?_⟩
    · rw [frameView_append (s := u) (es := commandEvents i s) (by simp [runActions, hes]),
        newFrames_congr hq.wire, frameView_congr hq.wire]
    · rw [← hq.paintLog, ← hup, finish_paintLog, runActions_eq, hes]
      rfl

/-! ## The transactions of a command depend on the geometry and the fonts alone -/

/-- The geometry in force, register by register (10_state.md R26). -/
theorem geometryOf_inj {s t : State} (h : geometryOf s = geometryOf t) :
    s.cfgWidth = t.cfgWidth ∧ s.cfgHeight = t.cfgHeight ∧ s.cfgXshift = t.cfgXshift ∧ s.cfgYshift = t.cfgYshift :=
  Geometry.mk.inj h

section
variable {s t : State} (hg : geometryOf s = geometryOf t)
include hg

theorem visible_congr : visible s = visible t := by
  obtain ⟨hw, hh, -, -⟩ := geometryOf_inj hg
  funext x y
  simp only [visible, hw, hh]

theorem plotPixel_congr : plotPixel s = plotPixel t := by
  funext c p
  rw [plotPixel, visible_congr hg, plotPixel]

theorem fillBox_congr : fillBox s = fillBox t := by
  obtain ⟨hw, hh, -, -⟩ := geometryOf_inj hg
  funext x y w h c
  simp only [fillBox, hw, hh]

theorem hSpan_congr : hSpan s = hSpan t := by
  obtain ⟨hw, hh, -, -⟩ := geometryOf_inj hg
  funext x y w c
  simp only [hSpan, hw, hh]

theorem vSpan_congr : vSpan s = vSpan t := by
  obtain ⟨hw, hh, -, -⟩ := geometryOf_inj hg
  funext x y h c
  simp only [vSpan, hw, hh]

theorem glyphDraws_congr : glyphDraws s = glyphDraws t := by
  obtain ⟨hw, hh, -, -⟩ := geometryOf_inj hg
  funext f g cx cy fg bg
  simp only [glyphDraws, glyphWindow, plotPixel_congr hg, hw, hh]

theorem stringWalk_congr : stringWalk s = stringWalk t := by
  obtain ⟨hw, hh, -, -⟩ := geometryOf_inj hg
  funext f fg bg cx cy cs
  induction cs generalizing cx cy with
  | nil => rfl
  | cons c cs ih => simp only [stringWalk, ih, glyphDraws_congr hg, hw, hh]

theorem drawFrame_congr : drawFrame s = drawFrame t := by
  obtain ⟨-, -, hx, hy⟩ := geometryOf_inj hg
  funext d
  simp only [drawFrame, hx, hy]

/-- What a command draws depends on the geometry in force and the fonts. -/
theorem commandDraws_congr (hf : s.par.raw.fonts = t.par.raw.fonts) (i : Instr) :
    commandDraws i s = commandDraws i t := by
  obtain ⟨hw, hh, -, -⟩ := geometryOf_inj hg
  cases i <;>
    simp only [commandDraws, plotAll, spanAll, rectDraws, fillBox_congr hg, plotPixel_congr hg, hSpan_congr hg,
      vSpan_congr hg, glyphDraws_congr hg, stringWalk_congr hg, hw, hh, hf]

end

/-! ## The frames of a command do not show the transport -/

theorem drawReady.bufUsable {s : State} (h : drawReady s) : bufUsable s := by
  obtain ⟨-, -, -, -, -, hb, -⟩ := h
  exact hb

/-- A command but INIT sends one controller command or none, the same under the same controller parameter bytes. -/
theorem newFrames_configEvents {i : Instr} {s t : State} (hi : ∀ p r h, i ≠ .init p r h)
    (hm : s.par.raw.madctl = t.par.raw.madctl) (ht : s.par.raw.teonParam = t.par.raw.teonParam) :
    newFrames s (configEvents i s) = newFrames t (configEvents i t) := by
  cases i with
  | init p r h => exact absurd rfl (hi p r h)
  | setRotation rot => simp only [configEvents, newFrames_writeCmd, hm]
  | invert on => simp only [configEvents, newFrames_writeCmd]
  | tearing on => cases on <;> simp [configEvents, newFrames_writeCmd, ht]
  | _ => simp only [configEvents, newFrames_nil]

/-- A command's frames are those of its controller command and one for each of its transactions. -/
theorem newFrames_commandEvents {s : State} (hb : bufUsable s) (i : Instr) :
    newFrames s (commandEvents i s)
      = newFrames s (configEvents i s) ++ (commandDraws i s).map (drawFrame s) := by
  rw [commandEvents, newFrames_append, newFrames_drawEvents _ hb]

/-- Settles O40: a command's frames are told by its configuration command and its transactions, and neither depends on
the transport's parameters or the buffer; its pixels are those of its frames. -/
theorem framesIgnoreTransport : Obligations.FramesIgnoreTransport := by
  intro i s t as bs hi hs ht hg _ _ hf hm hte has hbs
  obtain ⟨s1, s2, hs1, hs2, hsr, hsf, hsp⟩ := command_traces hi hs has
  obtain ⟨t1, t2, ht1, ht2, htr, htf, htp'⟩ := command_traces hi ht hbs
  have hframes : newFrames t (commandEvents i t) = newFrames s (commandEvents i s) := by
    rw [newFrames_commandEvents ht.bufUsable, newFrames_commandEvents hs.bufUsable, newFrames_configEvents hi hm hte,
      commandDraws_congr hg hf, drawFrame_congr hg]
  have hpaints : paintsOf t (commandEvents i t) = paintsOf s (commandEvents i s) := by
    obtain ⟨-, -, hx, hy⟩ := geometryOf_inj hg
    rw [paintsOf, paintsOf, hframes, hx, hy]
  rw [hframes] at htf
  rw [hpaints] at htp'
  exact ⟨s1, t1, s2, t2, _, _, hs1, ht1, hs2, ht2, hsr, htr, hsf, htf, hsp, htp'⟩

end Sys2Proof.Machine
end

section
/-! PROOFS. What one step can do, said once (20_memory.md R73, 42_transfer_window.md R135, 60_exceptions.md R232): which
agent moves, what one stretch of a command does, and what a command's meaning makes of a state. The statements about the
state's owners and about waiting commands are read off these inversions. -/

namespace Sys2Proof.Machine

/-! ## Which agent moves -/

/-- While a transfer is outstanding the step is the transport's (42_transfer_window.md R135). -/
theorem step_busy {s : State} (hx : s.xferBusy = true) : step s = .next (transportStep s) := by
  rw [step, if_pos hx]

/-- With the bus free, a suspended command goes on. -/
theorem step_resumes {s : State} {r : Running} (hr : s.running = some r) (hx : s.xferBusy = false) :
    step s = .next (drain r s) := by
  rw [step, if_neg (by simp [hx]), hr]

/-- Otherwise the engine fetches. -/
theorem step_fetches {s : State} (hr : s.running = none) (hx : s.xferBusy = false) : step s = fetchStep s := by
  rw [step, if_neg (by simp [hx]), hr]

/-- A step with a command suspended waits for its transfer, or takes the command up. -/
theorem step_suspended {s t : State} {r : Running} (hr : s.running = some r) (h : step s = .next t) :
    (s.xferBusy = true ∧ t = transportStep s) ∨ (s.xferBusy = false ∧ t = drain r s) := by
  cases hx : s.xferBusy with
  | true =>
    rw [step_busy hx] at h
    cases h
    exact .inl ⟨rfl, rfl⟩
  | false =>
    rw [step_resumes hr hx] at h
    cases h
    exact .inr ⟨rfl, rfl⟩

/-- In HALTED, and at the end of the stream, a fetch changes nothing (60_exceptions.md R237, 70_reset_and_hazards.md
R272). -/
theorem fetchStep_stays {s : State}
    (h : s.engine = .halted ∨ (streamOk s.cmds = true ∧ s.cp.toNat = s.cmds.length)) : fetchStep s = .next s := by
  by_cases he : s.engine = .halted
  · rw [fetchStep, if_pos he]
  · obtain ⟨hs, hc⟩ := h.resolve_left he
    rw [fetchStep, if_neg he, if_neg (by simp [hs]), if_pos hc]

/-- Inside the stream and outside HALTED a fetch runs the command at CP (70_reset_and_hazards.md R272). -/
theorem fetchStep_command {s : State} {i : Instr} (he : s.engine ≠ .halted) (hs : streamOk s.cmds = true)
    (hc : s.cp.toNat < s.cmds.length) (hd : decode (wordsAt s) = .command i) :
    fetchStep s = exec i (loadLatch i s) := by
  rw [fetchStep, if_neg he, if_neg (by simp [hs]), if_neg (by omega), if_neg (by omega), hd]

/-- Or it takes the fault the words at CP raise (60_exceptions.md R233). -/
theorem fetchStep_malformed {s : State} {code : ErrCode} {arg : Word} (he : s.engine ≠ .halted)
    (hs : streamOk s.cmds = true) (hc : s.cp.toNat < s.cmds.length)
    (hd : decode (wordsAt s) = .malformed code arg) : fetchStep s = .next (raise code arg s) := by
  rw [fetchStep, if_neg he, if_neg (by simp [hs]), if_neg (by omega), if_neg (by omega), hd]

/-- What a fetch can do: stay, run the command at CP, or take the fault its words raise. -/
theorem fetchStep_outcome {s t : State} (h : fetchStep s = .next t) :
    t = s ∨ (s.engine ≠ .halted ∧ ∃ i, decode (wordsAt s) = .command i ∧ exec i (loadLatch i s) = .next t)
      ∨ ∃ code arg, decode (wordsAt s) = .malformed code arg ∧ t = raise code arg s := by
  by_cases he : s.engine = .halted
  · cases (fetchStep_stays (.inl he)).symm.trans h
    exact .inl rfl
  by_cases hs : streamOk s.cmds = false
  · rw [fetchStep, if_neg he, if_pos hs] at h
    cases h
  by_cases hc : s.cp.toNat = s.cmds.length
  · cases (fetchStep_stays (.inr ⟨by simpa using hs, hc⟩)).symm.trans h
    exact .inl rfl
  by_cases hl : s.cmds.length < s.cp.toNat
  · rw [fetchStep, if_neg he, if_neg hs, if_neg hc, if_pos hl] at h
    cases h
  cases hd : decode (wordsAt s) with
  | command i =>
    rw [fetchStep_command he (by simpa using hs) (by omega) hd] at h
    exact .inr (.inl ⟨he, i, rfl, h⟩)
  | malformed code arg =>
    rw [fetchStep_malformed he (by simpa using hs) (by omega) hd] at h
    cases h
    exact .inr (.inr ⟨code, arg, rfl, rfl⟩)

/-! ## One stretch of a command -/

/-- A stretch of a command ends it, with all its actions done, or leaves it waiting with the rest still to do
(42_transfer_window.md R135). -/
theorem drain_cases (r : Running) (s : State) :
    ((splitAsync r.queue).2 = none ∧ (splitAsync r.queue).1 = r.queue
        ∧ drain r s = finish r.ending { runActions r.queue s with running := none })
      ∨ ∃ rest, (splitAsync r.queue).2 = some rest
        ∧ drain r s
          = { runActions (splitAsync r.queue).1 s with xferBusy := true, running := some ⟨rest, r.ending⟩ } := by
  rw [drain]
  split
  · rename_i now hn
    obtain ⟨rfl, -⟩ := splitAsync_none hn
    rw [hn]
    exact .inl ⟨rfl, rfl, rfl⟩
  · rename_i now rest hn
    rw [hn]
    exact .inr ⟨rest, rfl, rfl⟩

@[simp] theorem runActions_cp (q : List Action) (s : State) : (runActions q s).cp = s.cp := by simp [runActions]
@[simp] theorem runActions_engine (q : List Action) (s : State) : (runActions q s).engine = s.engine := by
  simp [runActions]
@[simp] theorem runActions_wire (q : List Action) (s : State) :
    (runActions q s).wire = s.wire ++ eventsOf q := by simp [runActions]
@[simp] theorem runActions_faultCp (q : List Action) (s : State) : (runActions q s).faultCp = s.faultCp := by
  simp [runActions]
@[simp] theorem runActions_faultArg (q : List Action) (s : State) : (runActions q s).faultArg = s.faultArg := by
  simp [runActions]

/-- The events of a stretch join the wire. -/
theorem drain_wire (r : Running) (s : State) :
    (drain r s).wire = s.wire ++ eventsOf (splitAsync r.queue).1 := by
  obtain ⟨-, hq, hd⟩ | ⟨rest, -, hd⟩ := drain_cases r s
  · rw [hd, hq, finish_wire]
    exact runActions_wire _ _
  · rw [hd]
    exact runActions_wire _ _

/-- A stretch leaves the command waiting exactly where there is a rest to do. -/
theorem drain_running (r : Running) (s : State) :
    (drain r s).running = (splitAsync r.queue).2.map fun rest => ⟨rest, r.ending⟩ := by
  obtain ⟨hn, -, hd⟩ | ⟨rest, hn, hd⟩ := drain_cases r s
  · rw [hd, hn, finish_running]
    rfl
  · rw [hd, hn]
    rfl

/-- A command's end moves CP by the ending's length, if it has one (10_state.md R22). -/
theorem finish_cp {e : Ending} {n : Nat} (h : endingLen e = some n) (s : State) :
    (finish e s).cp = s.cp + BitVec.ofNat 32 n := by
  cases e <;> cases h <;> rfl

/-- An ending that moves CP is no fault. -/
theorem finish_alive {e : Ending} {n : Nat} {s : State} (h : endingLen e = some n) (hs : s.engine ≠ .halted) :
    (finish e s).engine ≠ .halted := by
  cases e with
  | complete len => exact hs
  | initialised len => exact EngineState.noConfusion
  | rotated len => exact hs
  | faulted code arg => cases h

/-- An ending that moves CP leaves the fault registers (10_state.md R25). -/
theorem finish_faultRegs {e : Ending} {n : Nat} (h : endingLen e = some n) (s : State) :
    (finish e s).faultCp = s.faultCp ∧ (finish e s).faultArg = s.faultArg := by
  cases e <;> cases h <;> exact ⟨rfl, rfl⟩

/-- An ending that does not move CP is fault entry (60_exceptions.md R233). -/
theorem finish_faulted {e : Ending} (h : endingLen e = none) (s : State) :
    (finish e s).cp = s.cp ∧ (finish e s).engine = .halted ∧ (finish e s).faultCp = s.cp := by
  cases e <;> cases h
  exact ⟨rfl, rfl, rfl⟩

/-- FAULT_CP and FAULT_ARG are as in s, or the engine is halted with the CP of s in FAULT_CP. -/
def FaultRegsOwned (s t : State) : Prop :=
  (t.faultCp = s.faultCp ∧ t.faultArg = s.faultArg) ∨ (t.engine = .halted ∧ t.faultCp = s.cp)

/-- A stretch writes FAULT_CP and FAULT_ARG only where the command ends in fault entry (10_state.md R25). -/
theorem drain_faultRegs (r : Running) (s : State) : FaultRegsOwned s (drain r s) := by
  obtain ⟨-, -, hd⟩ | ⟨rest, -, hd⟩ := drain_cases r s
  · rw [hd]
    cases he : endingLen r.ending with
    | some n =>
      obtain ⟨h1, h2⟩ := finish_faultRegs he { runActions r.queue s with running := none }
      exact .inl ⟨h1.trans (runActions_faultCp _ _), h2.trans (runActions_faultArg _ _)⟩
    | none =>
      obtain ⟨-, h1, h2⟩ := finish_faulted he { runActions r.queue s with running := none }
      exact .inr ⟨h1, h2.trans (runActions_cp _ _)⟩
  · rw [hd]
    exact .inl ⟨runActions_faultCp _ _, runActions_faultArg _ _⟩

/-- Where a command waits, CP has not moved. -/
theorem drain_waits_cp {r r' : Running} {s : State} (h : (drain r s).running = some r') :
    (drain r s).cp = s.cp ∧ r'.ending = r.ending := by
  obtain ⟨-, hcp, -⟩ := drain_waits (r := r) (s := s) (by simp [h])
  obtain ⟨-, he, -⟩ := (drain_queue r s).2 r' h
  exact ⟨hcp, he⟩

/-! ## What a command's meaning makes of a state -/

/-- What the command i may write before its first event, or with none: the registers it owns (10_state.md R23, R26,
R27, R29). -/
structure RegisterWrites (i : Instr) (s u : State) : Prop where
  cp : u.cp = s.cp
  running : u.running = s.running
  faultCp : u.faultCp = s.faultCp
  faultArg : u.faultArg = s.faultArg
  glyphBuf : u.glyphBuf = s.glyphBuf
  alive : s.engine ≠ .halted → u.engine ≠ .halted
  res23 : i ≠ .getGeometry → u.res2 = s.res2 ∧ u.res3 = s.res3
  res01 : i ≠ .getGeometry → (∀ f cs, i ≠ .getTextBounds f cs) → u.res0 = s.res0 ∧ u.res1 = s.res1
  geometry : (∀ p r h, i ≠ .init p r h) → (∀ r, i ≠ .setRotation r) →
    geometryOf u = geometryOf s ∧ u.cfgRot = s.cfgRot
  panel : (∀ p r h, i ≠ .init p r h) → u.cfgPanel = s.cfgPanel
  allocator : (∀ p r h, i ≠ .init p r h) → i ≠ .deinit →
    u.bufPresent = s.bufPresent ∧ u.bufBytes = s.bufBytes ∧ u.alloc = s.alloc ∧ u.allocScript = s.allocScript
  buffer : (∀ p r h, i ≠ .init p r h) → i ≠ .deinit → u.bufData = s.bufData ∧ u.bufTag = s.bufTag

/-- Writing nothing. -/
theorem registerWrites_refl (i : Instr) (s : State) : RegisterWrites i s s where
  cp := rfl
  running := rfl
  faultCp := rfl
  faultArg := rfl
  glyphBuf := rfl
  alive := id
  res23 _ := ⟨rfl, rfl⟩
  res01 _ _ := ⟨rfl, rfl⟩
  geometry _ _ := ⟨rfl, rfl⟩
  panel _ := rfl
  allocator _ _ := ⟨rfl, rfl, rfl, rfl⟩
  buffer _ _ := ⟨rfl, rfl⟩

/-- INIT writes the geometry and the buffer (41_config.md R103). -/
theorem registerWrites_init (panel rot : Byte) (hint : BitVec 32) (p : Fin 3) (s : State) :
    RegisterWrites (.init panel rot hint) s (allocate hint (applyGeometry p (normRot rot) s)) where
  cp := rfl
  running := rfl
  faultCp := rfl
  faultArg := rfl
  glyphBuf := rfl
  alive := id
  res23 _ := ⟨rfl, rfl⟩
  res01 _ _ := ⟨rfl, rfl⟩
  geometry hi _ := absurd rfl (hi _ _ _)
  panel hi := absurd rfl (hi _ _ _)
  allocator hi _ := absurd rfl (hi _ _ _)
  buffer hi _ := absurd rfl (hi _ _ _)

/-- So does an INIT whose request is refused, which ends there (60_exceptions.md R234). -/
theorem registerWrites_refused (panel rot : Byte) (hint : BitVec 32) (p : Fin 3) (s : State) :
    RegisterWrites (.init panel rot hint) s
      { forgetFb (allocate hint (applyGeometry p (normRot rot) s)) with
        engine := .allocFailed, errCode := .allocError } :=
  { registerWrites_init panel rot hint p s with alive := fun _ => EngineState.noConfusion }

/-- DEINIT releases the buffer (41_config.md R106). -/
theorem registerWrites_deinit (s : State) : RegisterWrites .deinit s { release s with engine := .uninit } where
  cp := rfl
  running := rfl
  faultCp := rfl
  faultArg := rfl
  glyphBuf := rfl
  alive _ := EngineState.noConfusion
  res23 _ := ⟨rfl, rfl⟩
  res01 _ _ := ⟨rfl, rfl⟩
  geometry _ _ := ⟨rfl, rfl⟩
  panel _ := rfl
  allocator _ hi := absurd rfl hi
  buffer _ hi := absurd rfl hi

/-- SET_ROTATION writes the geometry of the panel in force (41_config.md R107). -/
theorem registerWrites_setRotation (rot : Byte) (s : State) :
    RegisterWrites (.setRotation rot) s (applyGeometry s.cfgPanel (normRot rot) s) :=
  { registerWrites_refl (.setRotation rot) s with geometry := fun _ hi => absurd rfl (hi _) }

/-- What the meaning of the command i, where it is accepted, makes of s: a fault with no other effect, register writes
and CP past the command, or, after register writes, a stretch of its transactions or of its controller commands. -/
inductive CommandOutcome (i : Instr) (s : State) : State → Prop
  | faults (code : ErrCode) (arg : Word) : CommandOutcome i s (raise code arg s)
  | ends (u : State) (hu : RegisterWrites i s u) : CommandOutcome i s (advance (cmdLen i) u)
  | performs (e : Ending) (he : ∀ n, endingLen e = some n → n = cmdLen i) :
      CommandOutcome i s (perform (commandDraws i s) e s)
  | launches (es : List WireEvent) (e : Ending) (he : ∀ n, endingLen e = some n → n = cmdLen i) (u : State)
      (hu : RegisterWrites i s u) : CommandOutcome i s (launch es e u)

/-- An ending moves CP by one length. -/
theorem endingLen_unique {e : Ending} {len : Nat} (h : endingLen e = some len) (n : Nat)
    (hn : endingLen e = some n) : n = len := Option.some.inj (hn.symm.trans h)

/-- A string's end moves CP by the command's length or faults (44_text.md R209). -/
theorem endingLen_stringEnding (len : Nat) (o : Option Word) (n : Nat) (h : endingLen (stringEnding len o) = some n) :
    n = len := by
  cases o with
  | none => exact endingLen_unique rfl n h
  | some arg => cases h

/-- INIT: BAD_PANEL, a refused request, or its events (41_config.md R103). -/
theorem initBody_outcome (panel rot : Byte) (hint : BitVec 32) (s : State) :
    CommandOutcome (.init panel rot hint) s (initBody panel rot hint s) := by
  rw [initBody]
  split
  · rename_i hp
    rw [initPanel]
    dsimp only
    split
    · exact .launches _ _ (endingLen_unique rfl) _ (registerWrites_init panel rot hint _ s)
    · exact .ends _ (registerWrites_refused panel rot hint _ s)
  · exact .faults _ _

/-- DRAW_CHAR: a fault, nothing, or its glyph's transactions (44_text.md R208). -/
theorem drawCharBody_outcome (x y : Word) (ch font : Byte) (fg bg : Color) (s : State) :
    CommandOutcome (.drawChar x y ch font fg bg) s (drawCharBody x y ch font fg bg s) := by
  have hp := CommandOutcome.performs (i := .drawChar x y ch font fg bg) (s := s) (.complete 6) (endingLen_unique rfl)
  rw [drawCharBody]
  split
  · exact .faults _ _
  · rename_i f hf
    split
    · exact .launches _ _ (endingLen_unique rfl) s (registerWrites_refl _ s)
    · rename_i g hg
      split
      · rename_i hr
        simpa only [commandDraws, hf, hg, hr, if_true] using hp
      · exact .faults _ _

/-- DRAW_STRING: a fault for an absent font, or its glyphs' transactions (44_text.md R209). -/
theorem drawStringBody_outcome (x y : Word) (font : Byte) (fg bg : Color) (chars : List Byte) (s : State) :
    CommandOutcome (.drawString x y font fg bg chars) s (drawStringBody x y font fg bg chars s) := by
  have hp := fun o => CommandOutcome.performs (i := .drawString x y font fg bg chars) (s := s) _
    (endingLen_stringEnding (cmdLen (.drawString x y font fg bg chars)) o)
  rw [drawStringBody]
  split
  · exact .faults _ _
  · rename_i f hf
    simpa only [commandDraws, hf, cmdLen] using hp _

/-- GET_TEXT_BOUNDS writes RES0 and RES1 or faults (44_text.md R212). -/
theorem textBoundsBody_outcome (font : Byte) (chars : List Byte) (s : State) :
    CommandOutcome (.getTextBounds font chars) s (textBoundsBody font chars s) := by
  rw [textBoundsBody]
  split
  · exact .faults _ _
  · exact .ends _ { registerWrites_refl (.getTextBounds font chars) s with res01 := fun _ hi => absurd rfl (hi _ _) }

/-- Every command's meaning, where the state accepts it. -/
theorem exec_gated_outcome (i : Instr) (s : State) :
    ∃ t, exec i s = .next (gated (gateOf i) (opcOf i) (fun _ => t) s) ∧ CommandOutcome i s t := by
  cases hp : isPrimitive i with
  | true => exact ⟨_, exec_primitive hp s, .performs _ (endingLen_unique rfl)⟩
  | false =>
    cases i with
    | init p r h => exact ⟨_, rfl, initBody_outcome p r h s⟩
    | deinit => exact ⟨_, rfl, .ends _ (registerWrites_deinit s)⟩
    | setRotation rot =>
      exact ⟨_, rfl, .launches _ _ (endingLen_unique rfl) _ (registerWrites_setRotation rot s)⟩
    | getGeometry =>
      exact ⟨_, rfl, .ends _ { registerWrites_refl .getGeometry s with
        res23 := fun hi => absurd rfl hi, res01 := fun hi => absurd rfl hi }⟩
    | invert on => exact ⟨_, rfl, .launches _ _ (endingLen_unique rfl) s (registerWrites_refl _ s)⟩
    | tearing on => exact ⟨_, rfl, .launches _ _ (endingLen_unique rfl) s (registerWrites_refl _ s)⟩
    | drawChar x y ch font fg bg => exact ⟨_, rfl, drawCharBody_outcome x y ch font fg bg s⟩
    | drawString x y font fg bg chars => exact ⟨_, rfl, drawStringBody_outcome x y font fg bg chars s⟩
    | getTextBounds font chars => exact ⟨_, rfl, textBoundsBody_outcome font chars s⟩
    | _ => cases hp

/-- Only HALTED does not decode (60_exceptions.md R232). -/
theorem halted_of_notDecoded {g : Gate} {e : EngineState} (h : accepts g e = .notDecoded) : e = .halted := by
  cases e with
  | halted => rfl
  | _ => cases g <;> cases h

/-- What running a command can do: nothing in HALTED, else what its meaning or NOT_READY does. -/
theorem exec_outcome {i : Instr} {s t : State} (h : exec i s = .next t) :
    (s.engine = .halted ∧ t = s) ∨ CommandOutcome i s t := by
  obtain ⟨b, hb, ho⟩ := exec_gated_outcome i s
  cases hb.symm.trans h
  by_cases he : s.engine = .halted
  · exact .inl ⟨he, gated_halted _ _ _ he⟩
  · right
    rw [gated]
    split
    · exact ho
    · exact .faults _ _
    · rename_i hn
      exact absurd (halted_of_notDecoded hn) he

end Sys2Proof.Machine
end

section
/-! PROOFS. The invariant of every run (10_state.md R22, R28 to R33, R38): it holds after reset, every step and every
host move keeps it, and from it every step has a next state. -/

namespace Sys2Proof.Machine

/-! ## What the decoder answers -/

/-- A command that is decoded is there in full, and words that are no command raise a fault's code. -/
def decodedOk (n : Nat) : Decoded → Prop
  | .command i => cmdLen i ≤ n
  | .malformed code _ => isFaultCode code = true

theorem decodedOk_reserved {n i : Nat} {c : Prop} [Decidable c] {k : Decoded} (hk : decodedOk n k) :
    decodedOk n (if c then reservedAt i else k) := by
  split
  · rfl
  · exact hk

theorem decodedOk_listed {n : Nat} {h : Word} {k : Decoded} (hk : decodedOk n k) : decodedOk n (listed h k) :=
  decodedOk_reserved hk

theorem decodedOk_decodeString (h x y f : Word) (fg bg : Color) (n : Word) (rest : List Word) :
    decodedOk (h :: x :: y :: f :: fg :: bg :: n :: rest).length
      (decodeString (h :: x :: y :: f :: fg :: bg :: n :: rest) x y f fg bg n.toNat rest) := by
  rw [decodeString]
  split
  · rfl
  · refine decodedOk_reserved (decodedOk_reserved ?_)
    simp only [decodedOk, cmdLen, unpackChars_length n.toNat rest (by omega), List.length_cons]
    omega

theorem decodedOk_decodeBounds (h f n : Word) (rest : List Word) :
    decodedOk (h :: f :: n :: rest).length (decodeBounds (h :: f :: n :: rest) f n.toNat rest) := by
  rw [decodeBounds]
  split
  · rfl
  · refine decodedOk_reserved (decodedOk_reserved ?_)
    simp only [decodedOk, cmdLen, unpackChars_length n.toNat rest (by omega), List.length_cons]
    omega

/-- Every header's decoding (30_encoding.md R85 to R88). -/
theorem decodedOk_decodeOps (h : Word) (ops : List Word) : decodedOk (h :: ops).length (decodeOps h ops) := by
  unfold decodeOps
  split
  all_goals first | refine decodedOk_listed ?_ | exact rfl
  -- DEINIT and GET_GEOMETRY are their header word; the others have their operand words or are TRUNCATED.
  all_goals first | exact Nat.le_add_left 1 _ | split
  all_goals first
    | exact Nat.le_add_left _ _
    | exact decodedOk_reserved (Nat.le_add_left _ _)
    | exact decodedOk_decodeString ..
    | exact decodedOk_decodeBounds ..
    | exact rfl

theorem decodedOk_decode (ws : List Word) : decodedOk ws.length (decode ws) := by
  cases ws with
  | nil => rfl
  | cons h ops => exact decodedOk_decodeOps h ops

/-- A decoded command's words are there (30_encoding.md R86). -/
theorem cmdLen_le_of_decode {ws : List Word} {i : Instr} (h : decode ws = .command i) : cmdLen i ≤ ws.length := by
  simpa only [h, decodedOk] using decodedOk_decode ws

/-- Words that are no command raise a fault's code (60_exceptions.md R231). -/
theorem isFaultCode_of_decode {ws : List Word} {code : ErrCode} {arg : Word} (h : decode ws = .malformed code arg) :
    isFaultCode code = true := by
  simpa only [h, decodedOk] using decodedOk_decode ws

/-! ## The invariant where a command ends with no event -/

/-- A command of n words is about to run: the engine is between commands and not halted, and the words are there. -/
structure AtCommand (n : Nat) (s : State) : Prop where
  inv : Inv { s with latch := [] }
  idle : s.running = none
  alive : s.engine ≠ .halted
  fits : s.cp.toNat + n ≤ s.cmds.length

/-- Between commands the bus is free and the latch empty (10_state.md R21, R32, R33). -/
theorem busInv_idle {s : State} (hr : s.running = none) (hsel : s.sel = false) (hx : s.xferBusy = false)
    (hl : s.latch = []) (hw : s.wire.all (eventOk s.par.raw) = true) : busInv s :=
  ⟨fun _ => ⟨hsel, hx, hl⟩, by rw [hr]; rfl, hw⟩

/-- CP past a command that has left the invariant (10_state.md R22). -/
theorem inv_advance {n : Nat} {u : State} (h : AtCommand n u) : Inv (advance n u) := by
  obtain ⟨⟨hcfg, hbuf, ⟨h0, h1, h2, -⟩, ⟨hbus, -, hwire⟩, hstr, hgl, hfb⟩, hidle, halive, hfits⟩ := h
  obtain ⟨hsel, hx, -⟩ := hbus hidle
  refine ⟨hcfg, hbuf, ⟨h0, h1, h2, fun he => absurd he halive⟩, busInv_idle hidle hsel hx rfl hwire,
    ⟨hstr.1, ?_⟩, hgl, hfb⟩
  rw [advance_cp, cp_advance (s := u) hstr hfits]
  exact hfits

/-- The buffer's release and UNINIT (41_config.md R106). -/
theorem AtCommand.deinit {n : Nat} {s : State} (h : AtCommand n s) :
    AtCommand n { release s with engine := .uninit } := by
  obtain ⟨⟨hcfg, hbuf, ⟨h0, h1, h2, -⟩, ⟨hbus, -, hwire⟩, hstr, hgl, hfb⟩, hidle, halive, hfits⟩ := h
  obtain ⟨hsel, hx, -⟩ := hbus hidle
  refine ⟨⟨?_, bufInv_release hbuf, ⟨fun _ => ⟨?_, fun _ => rfl⟩, nofun, nofun, nofun⟩,
    busInv_idle hidle hsel hx rfl hwire, hstr, hgl, hfb⟩, hidle, EngineState.noConfusion, hfits⟩
  · obtain hcfg | ⟨hg, hrot, hpan, -, hrun, -⟩ := hcfg
    · exact .inl hcfg
    · exact .inr ⟨hg, hrot, hpan, rfl, hrun, .inl rfl⟩
  · show s.errCode = .none ∨ s.errCode = .allocError
    cases he : s.engine with
    | uninit => exact (h0 he).1
    | ready => exact .inl (h1 he).1
    | allocFailed => exact .inr (h2 he).1
    | halted => exact absurd he halive

/-- A refused request: the table's geometry, no buffer, ALLOC_FAILED (41_config.md R103, 60_exceptions.md R234). -/
theorem AtCommand.refused {n : Nat} {s : State} (p : Fin 3) (r : BitVec 2) (hint : BitVec 32) (h : AtCommand n s)
    (ha : allocAnswer s = false) :
    AtCommand n
      { forgetFb (allocate hint (applyGeometry p r s)) with engine := .allocFailed, errCode := .allocError } := by
  obtain ⟨⟨-, hbuf, -, ⟨hbus, -, hwire⟩, hstr, hgl, -⟩, hidle, -, hfits⟩ := h
  obtain ⟨hsel, hx, -⟩ := hbus hidle
  have hp : (allocate hint (applyGeometry p r s)).bufPresent = false := ha
  exact ⟨⟨.inl rfl, bufInv_allocate (s := applyGeometry p r s) hint hbuf rfl,
    ⟨nofun, nofun, fun _ => ⟨rfl, fun _ => hp⟩, nofun⟩,
    busInv_idle hidle hsel hx rfl hwire, hstr, hgl, rfl⟩, hidle, EngineState.noConfusion, hfits⟩

/-- A granted request: the table's geometry and a fresh buffer, with INIT's events still to send (41_config.md R103). -/
theorem AtCommand.granted {n : Nat} {s : State} (p : Fin 3) (r : BitVec 2) (hint : BitVec 32) (h : AtCommand n s)
    (ha : allocAnswer s = true) : Alive (allocate hint (applyGeometry p r s)) := by
  obtain ⟨⟨-, hbuf, ⟨h0, h1, h2, -⟩, ⟨hbus, -, hwire⟩, hstr, hgl, hfb⟩, hidle, halive, -⟩ := h
  obtain ⟨-, hx, -⟩ := hbus hidle
  exact ⟨rfl, bufInv_allocate (s := applyGeometry p r s) hint hbuf rfl, halive, fun he => (h0 he).1,
    fun he => ⟨(h1 he).1, ha⟩, fun he => (h2 he).1, hstr, hgl, hfb, hwire, hx⟩

/-- SET_ROTATION's geometry in READY (41_config.md R107). -/
theorem Alive.withGeometry {s : State} (h : Alive s) (p : Fin 3) (r : BitVec 2) : Alive (applyGeometry p r s) :=
  ⟨rfl, h.buf, h.alive, h.err0, h.err1, h.err2, h.str, h.gl, h.fbw, h.wire, h.idleBus⟩

/-! ## Every command keeps the invariant -/

/-- A fault keeps the invariant. -/
theorem AtCommand.inv_fault {n : Nat} {s : State} (h : AtCommand n s) {code : ErrCode} (arg : Word)
    (hc : isFaultCode code = true) : Inv (raise code arg s) :=
  inv_raise code arg h.inv hc h.idle

/-- A command of READY keeps the invariant if its meaning does there (60_exceptions.md R232). -/
theorem AtCommand.inv_gated {n : Nat} {s : State} (h : AtCommand n s) (opc : Word) {body : State → State}
    (hb : s.engine = .ready → Inv (body s)) : Inv (gated .readyOnly opc body s) := by
  cases he : s.engine with
  | uninit =>
    rw [gated_notReady opc body (.inl he)]
    exact h.inv_fault opc rfl
  | ready =>
    rw [gated_ready _ opc body he]
    exact hb he
  | allocFailed =>
    rw [gated_notReady opc body (.inr he)]
    exact h.inv_fault opc rfl
  | halted => exact absurd he h.alive

/-- A list of transactions of READY keeps the invariant. -/
theorem AtCommand.inv_draws {n : Nat} {s : State} {ds : List Draw} {e : Ending} (h : AtCommand n s)
    (hr : s.engine = .ready) (hd : ∀ d ∈ ds, blitOk d) (he : endingOk s e = true) : Inv (perform ds e s) := by
  obtain ⟨ha, hsel, -⟩ := alive_of_inv h.inv hr h.idle
  exact inv_perform ha hsel hd he

/-- A controller command of READY keeps the invariant. -/
theorem Alive.inv_writeCmd {s : State} (h : Alive s) (c : Byte) (args : List Byte) {e : Ending}
    (he : endingOk s e = true) : Inv (launch (writeCmd s.par.raw c args) e s) :=
  inv_launch h (eventOk_writeCmd s.par c args) (selAfter_writeCmd _ _ _ _) he

/-- READY may complete a command whose words are there. -/
theorem AtCommand.endingOk_complete {n : Nat} {s : State} (h : AtCommand n s) (hr : s.engine = .ready) :
    endingOk s (.complete n) = true := by
  simp [endingOk, hr, h.fits]

/-- So may SET_ROTATION. -/
theorem AtCommand.endingOk_rotated {n : Nat} {s : State} (h : AtCommand n s) (hr : s.engine = .ready) :
    endingOk s (.rotated n) = true := h.endingOk_complete hr

/-- An INIT whose words are there may end in READY if it has a buffer. -/
theorem endingOk_initialised {n : Nat} {s : State} (he : s.engine ≠ .halted) (hp : s.bufPresent = true)
    (hn : s.cp.toNat + n ≤ s.cmds.length) : endingOk s (.initialised n) = true := by
  simp [endingOk, he, hp, hn]

/-- A primitive's transactions carry no glyph. -/
theorem blitOk_commandDraws {i : Instr} (hp : isPrimitive i = true) (s : State) :
    ∀ d ∈ commandDraws i s, blitOk d := by
  cases i with
  | fillScreen c => exact blitOk_fillBox
  | drawPixel x y c => exact blitOk_plotPixel
  | drawLine x0 y0 x1 y1 c => exact blitOk_plotAll
  | drawHLine x y w c => exact blitOk_hSpan
  | drawVLine x y h c => exact blitOk_vSpan
  | drawRect x y w h c => exact blitOk_rectDraws
  | fillRect x y w h c => exact blitOk_fillBox
  | drawCircle x0 y0 r c => exact blitOk_plotAll
  | fillCircle x0 y0 r c => exact blitOk_spanAll
  | drawTriangle x1 y1 x2 y2 x3 y3 c => exact blitOk_plotAll
  | fillTriangle x1 y1 x2 y2 x3 y3 c => exact blitOk_plotAll
  | _ => cases hp

/-- Only READY accepts a primitive. -/
theorem gateOf_primitive {i : Instr} (hp : isPrimitive i = true) : gateOf i = .readyOnly := by
  cases i <;> cases hp <;> rfl

/-- INIT (41_config.md R103, R104). -/
theorem AtCommand.inv_init {s : State} (h : AtCommand 4 s) (panel rot : Byte) (hint : BitVec 32) :
    Inv (initBody panel rot hint s) := by
  rw [initBody]
  split
  · rename_i hp
    rw [initPanel]
    dsimp only
    split
    · rename_i ha
      obtain ⟨-, -, -, -, -, -, -, hseq, -⟩ := params_facts s.par
      obtain ⟨-, hok⟩ := bracketedOk_facts hseq
      refine inv_launch (h.granted _ _ hint ha) ?_ (selAfter_append _ _ _ ▸ selAfter_writeCmd _ _ _ _)
        (endingOk_initialised h.alive ha h.fits)
      rw [List.all_append, Bool.and_eq_true]
      exact ⟨hok s.par.raw rfl rfl, eventOk_writeCmd s.par _ _⟩
    · rename_i ha
      exact inv_advance (h.refused _ _ hint (by simpa using ha))
  · exact h.inv_fault _ rfl

/-- DRAW_CHAR (44_text.md R208). -/
theorem AtCommand.inv_drawChar {s : State} (h : AtCommand 6 s) (hr : s.engine = .ready) (x y : Word) (ch font : Byte)
    (fg bg : Color) : Inv (drawCharBody x y ch font fg bg s) := by
  rw [drawCharBody]
  split
  · exact h.inv_fault _ rfl
  · split
    · exact h.inv_draws (ds := []) hr nofun (h.endingOk_complete hr)
    · split
      · exact h.inv_draws hr blitOk_glyphDraws (h.endingOk_complete hr)
      · exact h.inv_fault _ rfl

/-- DRAW_STRING (44_text.md R209). -/
theorem AtCommand.inv_drawString {s : State} {chars : List Byte} (h : AtCommand (7 + charWords chars.length) s)
    (hr : s.engine = .ready) (x y : Word) (font : Byte) (fg bg : Color) :
    Inv (drawStringBody x y font fg bg chars s) := by
  rw [drawStringBody]
  split
  · exact h.inv_fault _ rfl
  · rename_i f hf
    refine h.inv_draws hr (blitOk_stringWalk _ _ _) ?_
    cases (stringWalk s f fg bg (coord x) (coord y) chars).fault with
    | none => exact h.endingOk_complete hr
    | some arg => simp [stringEnding, endingOk, hr, isFaultCode]

/-- GET_TEXT_BOUNDS (44_text.md R212). -/
theorem AtCommand.inv_textBounds {s : State} {chars : List Byte} (h : AtCommand (3 + charWords chars.length) s)
    (font : Byte) : Inv (textBoundsBody font chars s) := by
  rw [textBoundsBody]
  split
  · exact h.inv_fault _ rfl
  · exact inv_advance ⟨h.inv, h.idle, h.alive, h.fits⟩

/-- Every command keeps the invariant. -/
theorem exec_keepsInv {i : Instr} {s t : State} (h : AtCommand (cmdLen i) s) (he : exec i s = .next t) : Inv t := by
  cases hp : isPrimitive i with
  | true =>
    rw [exec_primitive hp, gateOf_primitive hp] at he
    cases he
    exact h.inv_gated _ fun hr => h.inv_draws hr (blitOk_commandDraws hp s) (h.endingOk_complete hr)
  | false =>
    have hready (hr : s.engine = .ready) : Alive s := (alive_of_inv h.inv hr h.idle).1
    cases i with
    | init panel rot hint =>
      cases he
      rw [gated_always _ _ h.alive]
      exact h.inv_init panel rot hint
    | deinit =>
      cases he
      rw [gated_always _ _ h.alive]
      exact inv_advance h.deinit
    | setRotation rot =>
      cases he
      exact h.inv_gated _ fun hr =>
        ((hready hr).withGeometry _ _).inv_writeCmd _ _ (h.endingOk_rotated hr)
    | getGeometry =>
      cases he
      rw [gated_always _ _ h.alive]
      exact inv_advance ⟨h.inv, h.idle, h.alive, h.fits⟩
    | invert on =>
      cases he
      exact h.inv_gated _ fun hr => (hready hr).inv_writeCmd _ _ (h.endingOk_complete hr)
    | tearing on =>
      cases he
      refine h.inv_gated _ fun hr => ?_
      cases on <;> exact (hready hr).inv_writeCmd _ _ (h.endingOk_complete hr)
    | drawChar x y ch font fg bg =>
      cases he
      exact h.inv_gated _ fun hr => h.inv_drawChar hr x y ch font fg bg
    | drawString x y font fg bg chars =>
      cases he
      exact h.inv_gated _ fun hr => h.inv_drawString hr x y font fg bg
    | getTextBounds font chars =>
      cases he
      rw [gated_always _ _ h.alive]
      exact h.inv_textBounds font
    | _ => cases hp

/-! ## Every step keeps the invariant -/

/-- Between commands the latch is empty already (10_state.md R21). -/
theorem inv_clearLatch {s : State} (h : Inv s) (hr : s.running = none) : Inv { s with latch := [] } := by
  obtain ⟨hcfg, hbuf, heng, ⟨hbus, -, hwire⟩, hstr, hgl, hfb⟩ := h
  obtain ⟨hsel, hx, -⟩ := hbus hr
  exact ⟨hcfg, hbuf, heng, busInv_idle hr hsel hx rfl hwire, hstr, hgl, hfb⟩

/-- A fetched command is about to run. -/
theorem atCommand_loadLatch {s : State} {i : Instr} (h : Inv s) (hr : s.running = none) (he : s.engine ≠ .halted)
    (hd : decode (wordsAt s) = .command i) : AtCommand (cmdLen i) (loadLatch i s) := by
  have hi := inv_clearLatch h hr
  refine ⟨hi, hr, he, ?_⟩
  obtain ⟨-, -, -, -, ⟨-, hcp⟩, -⟩ := h
  have hlen : cmdLen i ≤ s.cmds.length - s.cp.toNat := by
    simpa only [wordsAt, List.length_drop] using cmdLen_le_of_decode hd
  show s.cp.toNat + cmdLen i ≤ s.cmds.length
  omega

/-- In HALTED no command is suspended (60_exceptions.md R233). -/
theorem alive_of_running {s : State} {r : Running} (h : Inv s) (hr : s.running = some r) : s.engine ≠ .halted := by
  obtain ⟨-, -, ⟨-, -, -, h3⟩, -⟩ := h
  intro he
  obtain ⟨-, -, hn⟩ := h3 he
  cases hr.symm.trans hn

/-- A suspended command is about to be taken up. -/
theorem alive_suspended {s : State} {r : Running} (h : Inv s) (hr : s.running = some r) (hx : s.xferBusy = false) :
    Alive s := by
  have halive := alive_of_running h hr
  obtain ⟨hcfg, hbuf, ⟨h0, h1, h2, -⟩, ⟨-, -, hwire⟩, hstr, hgl, hfb⟩ := h
  refine ⟨?_, hbuf, halive, fun he => (h0 he).1, h1, fun he => (h2 he).1, hstr, hgl, hfb, hwire, hx⟩
  obtain hcfg | ⟨-, -, -, -, hn, -⟩ := hcfg
  · exact hcfg
  · cases hr.symm.trans hn

/-- A suspended command, taken up, keeps the invariant (42_transfer_window.md R135). -/
theorem inv_resumed {s : State} {r : Running} (h : Inv s) (hr : s.running = some r) (hx : s.xferBusy = false) :
    Inv (drain r s) := by
  have ⟨_, _, _, ⟨_, hrun, _⟩, _⟩ := h
  rw [hr, Option.all_some] at hrun
  simp only [runningOk, Bool.and_eq_true, Bool.not_eq_true'] at hrun
  obtain ⟨⟨hq, hsel⟩, he⟩ := hrun
  exact inv_drain r (alive_suspended h hr hx) hq hsel he

/-- The transport's step keeps the invariant: a command is suspended there (10_state.md R33). -/
theorem inv_transportStep {s : State} (h : Inv s) (hx : s.xferBusy = true) : Inv (transportStep s) := by
  obtain ⟨hcfg, hbuf, heng, ⟨hbus, hrun, hwire⟩, hstr, hgl, hfb⟩ := h
  refine ⟨hcfg, hbuf, heng, ⟨fun hr => ?_, hrun, hwire⟩, hstr, hgl, hfb⟩
  obtain ⟨-, hn, -⟩ := hbus hr
  cases hx.symm.trans hn

/-- A fetch keeps the invariant. -/
theorem inv_fetched {s t : State} (h : Inv s) (hr : s.running = none) (ht : fetchStep s = .next t) : Inv t := by
  obtain rfl | ⟨he, i, hd, hi⟩ | ⟨code, arg, hd, rfl⟩ := fetchStep_outcome ht
  · exact h
  · exact exec_keepsInv (atCommand_loadLatch h hr he hd) hi
  · exact inv_raise code arg (inv_clearLatch h hr) (isFaultCode_of_decode hd) hr

/-- Settles O18: the transport's step, a suspended command's next stretch and a fetch each keep the invariant. -/
theorem stepKeepsInv : Obligations.StepKeepsInv := by
  intro s t h ht
  cases hx : s.xferBusy with
  | true =>
    cases (step_busy hx).symm.trans ht
    exact inv_transportStep h hx
  | false =>
    cases hr : s.running with
    | some r =>
      cases (step_resumes hr hx).symm.trans ht
      exact inv_resumed h hr hx
    | none => exact inv_fetched h hr ((step_fetches hr hx).symm.trans ht)

/-- Every command has a meaning in every state. -/
theorem exec_next (i : Instr) (s : State) : ∃ t, exec i s = .next t := by
  obtain ⟨t, ht, -⟩ := exec_gated_outcome i s
  exact ⟨_, ht⟩

/-- Settles O20: the stream is one CP can address and CP lies in it, so neither stop of a fetch is reached. -/
theorem stepNeverStops : Obligations.StepNeverStops := by
  intro s h
  obtain ⟨-, -, -, -, ⟨hs, hc⟩, -⟩ := h
  cases hx : s.xferBusy with
  | true => exact ⟨_, step_busy hx⟩
  | false =>
    cases hr : s.running with
    | some r => exact ⟨_, step_resumes hr hx⟩
    | none =>
      rw [step_fetches hr hx]
      by_cases he : s.engine = .halted
      · exact ⟨s, fetchStep_stays (.inl he)⟩
      by_cases hl : s.cp.toNat = s.cmds.length
      · exact ⟨s, fetchStep_stays (.inr ⟨hs, hl⟩)⟩
      cases hd : decode (wordsAt s) with
      | command i =>
        rw [fetchStep_command he hs (by omega) hd]
        exact exec_next i _
      | malformed code arg => exact ⟨_, fetchStep_malformed he hs (by omega) hd⟩

/-! ## Reset and the host's moves -/

/-- The engine's reset gives a state that meets the invariant, over a stream CP can address and a trace of the alphabet
(10_state.md R36). -/
theorem inv_engineReset {s : State} (hs : streamOk s.cmds = true) (hw : s.wire.all (eventOk s.par.raw) = true) :
    Inv (engineReset s) :=
  ⟨.inr ⟨rfl, rfl, rfl, rfl, rfl, .inl rfl⟩, ⟨nofun, fun _ => ⟨rfl, rfl, rfl⟩⟩,
    ⟨fun _ => ⟨.inl rfl, fun _ => rfl⟩, nofun, nofun, nofun⟩, busInv_idle rfl rfl rfl rfl hw, ⟨hs, Nat.zero_le _⟩,
    List.length_replicate, memWf_reset⟩

/-- Settles O17: the state after reset is the reset of itself. -/
theorem resetInv : Obligations.ResetInv := inv_engineReset (s := State.reset) rfl rfl

/-- Words appended at the idle end of the stream keep the invariant (20_memory.md R61). -/
theorem inv_append {s : State} {ws : List Word} (h : Inv s) (hi : idle s = true)
    (hs : streamOk (s.cmds ++ ws) = true) : Inv { s with cmds := s.cmds ++ ws } := by
  simp only [idle, Bool.and_eq_true, Option.isNone_iff_eq_none] at hi
  obtain ⟨⟨⟨-, hr⟩, -⟩, -⟩ := hi
  obtain ⟨hcfg, hbuf, heng, ⟨hbus, -, hwire⟩, ⟨-, hcp⟩, hgl, hfb⟩ := h
  obtain ⟨hsel, hx, hl⟩ := hbus hr
  refine ⟨hcfg, hbuf, heng, busInv_idle hr hsel hx hl hwire, ⟨hs, ?_⟩, hgl, hfb⟩
  rw [List.length_append]
  exact Nat.le_add_right_of_le hcp

/-- Settles O19: an append leaves every register, and the reset's state meets the invariant by its values. -/
theorem hostMoveKeepsInv : Obligations.HostMoveKeepsInv := by
  intro m s t h ht
  cases m with
  | reset =>
    obtain ⟨-, -, -, ⟨-, -, hwire⟩, ⟨hs, -⟩, -⟩ := h
    cases ht
    exact inv_engineReset hs hwire
  | append ws =>
    rw [hostMove] at ht
    split at ht
    · cases ht
    · rename_i hi
      split at ht
      · cases ht
      · rename_i hs
        cases ht
        exact inv_append h (by simpa using hi) (by simpa using hs)

/-- Settles O21: READY has a buffer, and the table's geometry fits the controller's addresses (41_config.md R100). -/
theorem invGivesDrawReady : Obligations.InvGivesDrawReady := by
  intro s ws h he hr
  obtain ⟨hcfg, hbuf, ⟨-, h1, -⟩, ⟨hbus, -⟩, -, hgl, hfb⟩ := h
  obtain ⟨hsel, hx, -⟩ := hbus hr
  have hp := (h1 he).2
  have hg : geometryOf s = calibAt s.par.raw.calib s.cfgPanel s.cfgRot := by
    obtain hcfg | ⟨-, -, -, hn, -⟩ := hcfg
    · exact hcfg
    · cases hp.symm.trans hn
  obtain ⟨-, -, hw, hh, -⟩ := calibAt_facts s.par s.cfgPanel s.cfgRot
  rw [← hg] at hw hh
  exact ⟨he, hr, hx, hsel, hp, bufUsable_of_inv hbuf hp, ⟨hw, hh⟩, hgl, hfb⟩

end Sys2Proof.Machine
end

section
/-! PROOFS. What a command leaves unchanged (10_state.md R22 to R31, 42_transfer_window.md R135, R144): the owners of
the registers and the buffers, and where a command waits. -/

namespace Sys2Proof.Machine

/-- Settles O7: with the bus free and no command suspended the step is a fetch, which loads the latch and runs the
command. -/
theorem stepRunsDecoded : Obligations.StepRunsDecoded := by
  intro s i hx hr he hs hc hd
  rw [step_fetches hr hx, fetchStep_command he hs hc hd]
  rfl

/-! ## Registers (10_state.md R23, R25 to R27) -/

/-- A stretch of a command leaves the geometry (10_state.md R26). -/
theorem geometryOf_drain (r : Running) (s : State) : geometryOf (drain r s) = geometryOf s := by simp [geometryOf]

/-- Settles O22: a fault and a stretch of events leave the registers, and what a command writes before them is its
own. -/
theorem registerOwners : Obligations.RegisterOwners := by
  refine ⟨fun i s t h => ?_, fun r s t hr h => ?_⟩
  · obtain ⟨-, rfl⟩ | ho := exec_outcome h
    · exact ⟨fun _ => ⟨rfl, rfl⟩, fun _ _ => ⟨rfl, rfl⟩, fun _ _ => ⟨rfl, rfl⟩, fun _ => rfl⟩
    · cases ho with
      | faults code arg => exact ⟨fun _ => ⟨rfl, rfl⟩, fun _ _ => ⟨rfl, rfl⟩, fun _ _ => ⟨rfl, rfl⟩, fun _ => rfl⟩
      | ends u hu => exact ⟨hu.res23, hu.res01, hu.geometry, hu.panel⟩
      | performs e he => simp [perform, geometryOf]
      | launches es e he u hu =>
        simpa only [launch, drain_res0, drain_res1, drain_res2, drain_res3, geometryOf_drain, drain_cfgRot,
          drain_cfgPanel] using ⟨hu.res23, hu.res01, hu.geometry, hu.panel⟩
  · obtain ⟨-, rfl⟩ | ⟨-, rfl⟩ := step_suspended hr h
    · exact ⟨rfl, rfl, rfl, rfl, rfl, rfl, rfl⟩
    · simp [geometryOf]

/-- A command writes the fault registers only at fault entry. -/
theorem CommandOutcome.faultRegs {i : Instr} {s t : State} (h : CommandOutcome i s t) : FaultRegsOwned s t := by
  cases h with
  | faults code arg => exact .inr ⟨rfl, rfl⟩
  | ends u hu => exact .inl ⟨hu.faultCp, hu.faultArg⟩
  | performs e he => exact drain_faultRegs _ s
  | launches es e he u hu =>
    have hd := drain_faultRegs ⟨es.map .emit, e⟩ u
    rwa [FaultRegsOwned, hu.faultCp, hu.faultArg, hu.cp] at hd

/-- Settles O23: FAULT_CP and FAULT_ARG are written by `raise` alone, at CP. -/
theorem faultRegisterOwners : Obligations.FaultRegisterOwners := by
  intro s t h
  obtain rfl | ⟨r, -, rfl⟩ | rfl | ⟨-, i, hi⟩ | ⟨-, code, arg, rfl⟩ := step_outcome h
  · exact .inl ⟨rfl, rfl⟩
  · exact drain_faultRegs r s
  · exact .inl ⟨rfl, rfl⟩
  · obtain ⟨-, rfl⟩ | ho := exec_outcome hi
    · exact .inl ⟨rfl, rfl⟩
    · exact ho.faultRegs
  · exact .inr ⟨rfl, rfl⟩

/-! ## CP (10_state.md R22) -/

/-- CP where a stretch ends the command without a fault. -/
theorem drain_ended_cp {r : Running} {s : State} {n : Nat} (h : (drain r s).running = none)
    (he : endingLen r.ending = some n) : (drain r s).cp = s.cp + BitVec.ofNat 32 n := by
  rw [drain_ended h, finish_cp he, runActions_cp]

/-- The state where a stretch ends the command in a fault. -/
theorem drain_ended_fault {r : Running} {s : State} (h : (drain r s).running = none) (he : endingLen r.ending = none) :
    (drain r s).cp = s.cp ∧ (drain r s).engine = .halted ∧ (drain r s).faultCp = s.cp := by
  rw [drain_ended h]
  obtain ⟨h1, h2, h3⟩ := finish_faulted he { runActions r.queue s with running := none }
  exact ⟨h1.trans (runActions_cp _ _), h2, h3.trans (runActions_cp _ _)⟩

/-- A stretch of a command that does not end in a fault halts nothing. -/
theorem drain_alive {r : Running} {s : State} {n : Nat} (he : endingLen r.ending = some n) (hs : s.engine ≠ .halted) :
    (drain r s).engine ≠ .halted := by
  obtain ⟨-, -, hd⟩ | ⟨rest, -, hd⟩ := drain_cases r s
  · rw [hd]
    exact finish_alive he (by simpa using hs)
  · rw [hd]
    simpa using hs

/-- CP after a command of n words: past it, or where it was if the command has faulted or waits to go past it. -/
def CpMoved (n : Nat) (s t : State) : Prop :=
  (t.running = none → t.engine ≠ .halted → t.cp = s.cp + BitVec.ofNat 32 n)
    ∧ (t.running = none → t.engine = .halted → t.cp = s.cp)
    ∧ ∀ r, t.running = some r → t.cp = s.cp ∧ ∀ m, endingLen r.ending = some m → m = n

/-- A stretch moves CP so, if its ending does. -/
theorem cpMoved_drain {r : Running} {n : Nat} {u : State} (hu : u.engine ≠ .halted)
    (he : ∀ m, endingLen r.ending = some m → m = n) : CpMoved n u (drain r u) := by
  refine ⟨fun hr ha => ?_, fun hr hh => ?_, fun r' hr => ?_⟩
  · cases hl : endingLen r.ending with
    | some m => rw [drain_ended_cp hr hl, he m hl]
    | none => exact absurd (drain_ended_fault hr hl).2.1 ha
  · cases hl : endingLen r.ending with
    | some m => exact absurd hh (drain_alive hl hu)
    | none => exact (drain_ended_fault hr hl).1
  · obtain ⟨hcp, hend⟩ := drain_waits_cp hr
    exact ⟨hcp, fun m hm => he m (hend ▸ hm)⟩

/-- A command moves CP by its own length (30_encoding.md R91). -/
theorem CommandOutcome.cpMoved {i : Instr} {s t : State} (h : CommandOutcome i s t) (hr : s.running = none)
    (hs : s.engine ≠ .halted) : CpMoved (cmdLen i) s t := by
  cases h with
  | faults code arg =>
    exact ⟨fun _ ha => absurd rfl ha, fun _ _ => rfl, fun r h => nomatch hr.symm.trans h⟩
  | ends u hu =>
    exact ⟨fun _ _ => by rw [advance_cp, hu.cp], fun _ hh => absurd hh (hu.alive hs),
      fun r h => nomatch (hu.running.trans hr).symm.trans h⟩
  | performs e he => exact cpMoved_drain hs he
  | launches es e he u hu =>
    have hd := cpMoved_drain (r := ⟨es.map .emit, e⟩) (hu.alive hs) he
    rwa [CpMoved, hu.cp] at hd

/-- Settles O26: CP is written by a command's end alone, which a waiting command still has to come to. -/
theorem commandPointer : Obligations.CommandPointer := by
  refine ⟨fun i s t hr hs h => ?_, fun r s t hr h => ?_⟩
  · obtain ⟨hh, -⟩ | ho := exec_outcome h
    · exact absurd hh hs
    · exact ho.cpMoved hr hs
  · obtain ⟨-, rfl⟩ | ⟨-, rfl⟩ := step_suspended hr h
    · rw [transportStep_running, hr]
      refine ⟨fun r' hr' => ?_, nofun, nofun⟩
      cases hr'
      exact ⟨rfl, rfl⟩
    · exact ⟨fun r' h' => drain_waits_cp h', fun h' n hn => drain_ended_cp h' hn, drain_ended_fault⟩

/-! ## Buffers (10_state.md R29, R31, 42_transfer_window.md R144) -/

/-- PlotPixel's transaction is a pixel (43_primitives.md R161). -/
theorem isPixel_plotPixel {s : State} {c : Color} {p : Int × Int} : ∀ d ∈ plotPixel s c p, isPixel d := fun d hd =>
  isPixel_plotAll (pts := [p]) d (by simpa [plotAll] using hd)

/-- What holds of the transactions of every glyph holds of DRAW_CHAR's (44_text.md R208). -/
theorem commandDraws_drawChar {P : Draw → Prop} {x y : Word} {ch font : Byte} {fg bg : Color} {s : State}
    (h : ∀ f g cx cy, ∀ d ∈ glyphDraws s f g cx cy fg bg, P d) :
    ∀ d ∈ commandDraws (.drawChar x y ch font fg bg) s, P d := by
  simp only [commandDraws]
  split
  · nofun
  · split
    · nofun
    · split
      · exact h _ _ _ _
      · nofun

/-- Only FILL_SCREEN, FILL_RECT, DRAW_HLINE, DRAW_VLINE, DRAW_RECT and FILL_CIRCLE fill through the transfer buffer
(42_transfer_window.md R144). -/
theorem noFill_commandDraws {i : Instr} (h1 : ∀ c, i ≠ .fillScreen c) (h2 : ∀ x y w h c, i ≠ .fillRect x y w h c)
    (h3 : ∀ x y w c, i ≠ .drawHLine x y w c) (h4 : ∀ x y h c, i ≠ .drawVLine x y h c)
    (h5 : ∀ x y w h c, i ≠ .drawRect x y w h c) (h6 : ∀ x y r c, i ≠ .fillCircle x y r c) (s : State) :
    ∀ d ∈ commandDraws i s, noFill d := by
  cases i with
  | fillScreen c => exact absurd rfl (h1 _)
  | fillRect x y w h c => exact absurd rfl (h2 _ _ _ _ _)
  | drawHLine x y w c => exact absurd rfl (h3 _ _ _ _)
  | drawVLine x y h c => exact absurd rfl (h4 _ _ _ _)
  | drawRect x y w h c => exact absurd rfl (h5 _ _ _ _ _)
  | fillCircle x y r c => exact absurd rfl (h6 _ _ _ _)
  | drawPixel x y c => exact fun d hd => noFill_of_isPixel (isPixel_plotPixel d hd)
  | drawLine x0 y0 x1 y1 c => exact fun d hd => noFill_of_isPixel (isPixel_plotAll d hd)
  | drawCircle x y r c => exact fun d hd => noFill_of_isPixel (isPixel_plotAll d hd)
  | drawTriangle x1 y1 x2 y2 x3 y3 c => exact fun d hd => noFill_of_isPixel (isPixel_plotAll d hd)
  | fillTriangle x1 y1 x2 y2 x3 y3 c => exact fun d hd => noFill_of_isPixel (isPixel_plotAll d hd)
  | drawChar x y ch font fg bg => exact commandDraws_drawChar fun _ _ _ _ => noFill_glyphDraws
  | drawString x y font fg bg chars =>
    simp only [commandDraws]
    split
    · nofun
    · exact noFill_stringWalk _ _ _
  | _ => nofun

/-- Only DRAW_CHAR and DRAW_STRING draw through GLYPH_BUF (10_state.md R31). -/
theorem noBlit_commandDraws {i : Instr} (h1 : ∀ x y ch f fg bg, i ≠ .drawChar x y ch f fg bg)
    (h2 : ∀ x y f fg bg cs, i ≠ .drawString x y f fg bg cs) (s : State) : ∀ d ∈ commandDraws i s, noBlit d := by
  cases i with
  | drawChar x y ch font fg bg => exact absurd rfl (h1 _ _ _ _ _ _)
  | drawString x y font fg bg chars => exact absurd rfl (h2 _ _ _ _ _ _)
  | fillScreen c => exact fun d hd => noBlit_of_isFill (isFill_fillBox d hd)
  | fillRect x y w h c => exact fun d hd => noBlit_of_isFill (isFill_fillBox d hd)
  | drawHLine x y w c => exact fun d hd => noBlit_of_isFill (isFill_hSpan d hd)
  | drawVLine x y h c => exact fun d hd => noBlit_of_isFill (isFill_vSpan d hd)
  | drawRect x y w h c => exact fun d hd => noBlit_of_isFill (isFill_rectDraws d hd)
  | fillCircle x y r c => exact fun d hd => noBlit_of_isFill (isFill_spanAll d hd)
  | drawPixel x y c => exact fun d hd => noBlit_of_isPixel (isPixel_plotPixel d hd)
  | drawLine x0 y0 x1 y1 c => exact fun d hd => noBlit_of_isPixel (isPixel_plotAll d hd)
  | drawCircle x y r c => exact fun d hd => noBlit_of_isPixel (isPixel_plotAll d hd)
  | drawTriangle x1 y1 x2 y2 x3 y3 c => exact fun d hd => noBlit_of_isPixel (isPixel_plotAll d hd)
  | fillTriangle x1 y1 x2 y2 x3 y3 c => exact fun d hd => noBlit_of_isPixel (isPixel_plotAll d hd)
  | _ => nofun

/-- BUF_DATA and BUF_TAG are as in s, and a command that waits in t from a state between commands refreshes nothing. -/
def BufferKept (s t : State) : Prop :=
  t.bufData = s.bufData ∧ t.bufTag = s.bufTag
    ∧ ∀ r c, s.running = none → t.running = some r → Action.refresh c ∉ r.queue

/-- GLYPH_BUF is as in s, and a command that waits in t from a state between commands loads no glyph. -/
def GlyphKept (s t : State) : Prop :=
  t.glyphBuf = s.glyphBuf ∧ ∀ r ks, s.running = none → t.running = some r → Action.loadGlyph ks ∉ r.queue

/-- Where no command begins to wait, kept buffers are enough. -/
theorem bufferKept_of_eq {s t : State} (hd : t.bufData = s.bufData) (ht : t.bufTag = s.bufTag)
    (hr : t.running = s.running) : BufferKept s t :=
  ⟨hd, ht, fun _ _ hn hs => nomatch (hr.trans hn).symm.trans hs⟩

theorem glyphKept_of_eq {s t : State} (hg : t.glyphBuf = s.glyphBuf) (hr : t.running = s.running) : GlyphKept s t :=
  ⟨hg, fun _ _ hn hs => nomatch (hr.trans hn).symm.trans hs⟩

/-- A command but INIT and DEINIT leaves the buffer's size and the allocator. -/
theorem CommandOutcome.allocator {i : Instr} {s t : State} (h : CommandOutcome i s t) (hi : ∀ p r k, i ≠ .init p r k)
    (hd : i ≠ .deinit) :
    t.bufPresent = s.bufPresent ∧ t.bufBytes = s.bufBytes ∧ t.alloc = s.alloc ∧ t.allocScript = s.allocScript := by
  cases h with
  | faults code arg => exact ⟨rfl, rfl, rfl, rfl⟩
  | ends u hu => exact hu.allocator hi hd
  | performs e he => simp [perform]
  | launches es e he u hu => simpa [launch] using hu.allocator hi hd

/-- A command but INIT and DEINIT that draws without a bulk fill keeps the transfer buffer. -/
theorem CommandOutcome.bufferKept {i : Instr} {s t : State} (h : CommandOutcome i s t) (hi : ∀ p r k, i ≠ .init p r k)
    (hd : i ≠ .deinit) (hf : ∀ d ∈ commandDraws i s, noFill d) : BufferKept s t := by
  cases h with
  | faults code arg => exact bufferKept_of_eq rfl rfl rfl
  | ends u hu =>
    obtain ⟨h1, h2⟩ := hu.buffer hi hd
    exact bufferKept_of_eq h1 h2 hu.running
  | performs e he =>
    obtain ⟨h1, h2, h3⟩ := perform_noFill (e := e) hf
    exact ⟨h1, h2, fun r c _ hr => h3 r c hr⟩
  | launches es e he u hu =>
    obtain ⟨h1, h2, -, h3⟩ := launch_buffers es e u
    obtain ⟨k1, k2⟩ := hu.buffer hi hd
    exact ⟨h1.trans k1, h2.trans k2, fun r c _ hr => (h3 r hr).1 c⟩

/-- A command that draws without a buffered glyph keeps GLYPH_BUF. -/
theorem CommandOutcome.glyphKept {i : Instr} {s t : State} (h : CommandOutcome i s t)
    (hb : ∀ d ∈ commandDraws i s, noBlit d) : GlyphKept s t := by
  cases h with
  | faults code arg => exact glyphKept_of_eq rfl rfl
  | ends u hu => exact glyphKept_of_eq hu.glyphBuf hu.running
  | performs e he =>
    obtain ⟨h1, h2⟩ := perform_noBlit (e := e) hb
    exact ⟨h1, fun r ks _ hr => h2 r ks hr⟩
  | launches es e he u hu =>
    obtain ⟨-, -, h1, h2⟩ := launch_buffers es e u
    exact ⟨h1.trans hu.glyphBuf, fun r ks _ hr => (h2 r hr).2 ks⟩

/-- Settles O24: before its events a command writes the buffers it owns; its stretches write them by their refreshes and
glyph loads, of which only bulk fills and buffered glyphs have any. -/
theorem bufferOwners : Obligations.BufferOwners := by
  refine ⟨fun i s t h => ?_, fun r s t hr h => ?_⟩
  · obtain ⟨-, rfl⟩ | ho := exec_outcome h
    · exact ⟨fun _ _ => ⟨rfl, rfl, rfl, rfl⟩, fun _ _ _ _ _ _ _ _ => bufferKept_of_eq rfl rfl rfl,
        fun _ _ => glyphKept_of_eq rfl rfl⟩
    · exact ⟨ho.allocator,
        fun hi hd h1 h2 h3 h4 h5 h6 => ho.bufferKept hi hd (noFill_commandDraws h1 h2 h3 h4 h5 h6 s),
        fun h1 h2 => ho.glyphKept (noBlit_commandDraws h1 h2 s)⟩
  · obtain ⟨hx, rfl⟩ | ⟨hx, rfl⟩ := step_suspended hr h
    · exact ⟨rfl, rfl, rfl, rfl, fun _ => ⟨rfl, rfl, rfl, rfl⟩, fun hx' => nomatch hx.symm.trans hx'⟩
    · obtain ⟨hd, ht, hg⟩ := drain_buffers r s
      refine ⟨by simp, by simp, by simp, by simp, (fun hx' => nomatch hx.symm.trans hx'), fun _ =>
        ⟨_, _, (splitAsync_append r.queue).symm, hd, ht, hg, fun hn => ?_, fun hn => hg.trans ?_, fun r' hr' => ?_⟩⟩
      · obtain ⟨h1, h2⟩ := bufferWrites_noRefresh s hn
        exact ⟨hd.trans h1, ht.trans h2⟩
      · exact bufferWrites_noGlyph s hn
      · obtain ⟨hq, -⟩ := (drain_queue r s).2 r' hr'
        rw [hq, Option.getD_some]

/-! ## Where a command waits (42_transfer_window.md R135) -/

/-- A command waits only after a stretch, so XFER_BUSY is 1 and the last event is an asynchronous piece. -/
theorem CommandOutcome.waits {i : Instr} {s t : State} (h : CommandOutcome i s t) (hr : s.running = none)
    (hw : t.running ≠ none) : t.xferBusy = true ∧ ∃ bs, t.wire.getLast? = some (.xfer .async bs) := by
  have of_drain {r : Running} {u : State} (hd : (drain r u).running ≠ none) :
      (drain r u).xferBusy = true ∧ ∃ bs, (drain r u).wire.getLast? = some (.xfer .async bs) := by
    obtain ⟨hx, -, -, -, -, -, hl⟩ := drain_waits hd
    exact ⟨hx, hl⟩
  cases h with
  | faults code arg => exact absurd hr hw
  | ends u hu => exact absurd (hu.running.trans hr) hw
  | performs e he => exact of_drain hw
  | launches es e he u hu => exact of_drain hw

/-- n refusals of the transport: only its answers are taken (70_reset_and_hazards.md R272). -/
theorem run_refused (n : Nat) (s : State) (rest : List Bool) (hx : s.xferBusy = true)
    (ht : s.transportScript = List.replicate n false ++ rest) :
    Host.Core.run core n s = .next { s with transportScript := rest, draws := s.draws + n } := by
  induction n generalizing s with
  | zero =>
    rw [List.replicate_zero, List.nil_append] at ht
    subst ht
    rfl
  | succ n ih =>
    have hstep : step s
        = .next { s with transportScript := List.replicate n false ++ rest, draws := s.draws + 1 } := by
      rw [step_busy hx]
      simp [transportStep, transportAnswer, ht, hx, List.replicate_succ]
    rw [run_next n hstep, show s.draws + (n + 1) = s.draws + 1 + n by omega]
    exact ih _ hx rfl

/-- Where nothing is left to do, the stretch is the whole queue and no event of it is asynchronous. -/
theorem splitAsync_whole {q : List Action} (h : (splitAsync q).2 = none) :
    (splitAsync q).1 = q ∧ allSync (eventsOf q) := splitAsync_none (Prod.ext rfl h)

/-- Where something is left, the stretch's last action is an asynchronous piece. -/
theorem splitAsync_getLast {q rest : List Action} (h : (splitAsync q).2 = some rest) :
    ∃ bs, (splitAsync q).1.getLast? = some (.emit (.xfer .async bs)) := by
  obtain ⟨p, bs, hp⟩ := splitAsync_last (Prod.ext rfl h : splitAsync q = ((splitAsync q).1, some rest))
  exact ⟨bs, by rw [hp, List.getLast?_concat]⟩

/-- Settles O38: a stretch is the part of the queue that `splitAsync` cuts off, and every wait comes after a stretch. -/
theorem suspendsAtAsyncPiece : Obligations.SuspendsAtAsyncPiece := by
  refine ⟨fun s t _ hx h hw => ?_, fun s hx => step_busy hx, run_refused, fun r s => ⟨step_resumes, ?_⟩⟩
  · cases hr : s.running with
    | some r =>
      cases (step_resumes hr hx).symm.trans h
      obtain ⟨hb, -, -, -, -, -, hl⟩ := drain_waits hw
      exact ⟨hb, hl⟩
    | none =>
      obtain rfl | ⟨-, i, -, hi⟩ | ⟨code, arg, -, rfl⟩ := fetchStep_outcome ((step_fetches hr hx).symm.trans h)
      · exact absurd hr hw
      · obtain ⟨-, rfl⟩ | ho := exec_outcome hi
        · exact absurd hr hw
        · exact ho.waits hr hw
      · exact absurd hr hw
  · obtain ⟨hd, ht, hg⟩ := drain_buffers r s
    have hq := splitAsync_append r.queue
    refine ⟨_, _, hq.symm, drain_wire r s, hd, ht, hg, splitAsync_dropLast r.queue, fun hn => ?_, fun r' hr' => ?_⟩
    · rw [drain_running, Option.map_eq_none_iff] at hn
      obtain ⟨h1, h2⟩ := splitAsync_whole hn
      exact ⟨by rw [hn]; rfl, by rwa [h1]⟩
    · obtain ⟨hs, he, -⟩ := (drain_queue r s).2 r' hr'
      obtain ⟨hb, -⟩ := drain_waits (r := r) (s := s) (by simp [hr'])
      exact ⟨by rw [hs, ← he]; rfl, hb, splitAsync_getLast hs⟩

end Sys2Proof.Machine
end

section
/-! PROOFS. Reset and what the host sees (10_state.md R24, R35, R36, 70_reset_and_hazards.md R260, R261). -/

namespace Sys2Proof.Machine

/-- Settles O14: the values R36 names are written out in the reset state. -/
theorem resetValues : Obligations.ResetValues := by
  unfold Obligations.ResetValues
  decide

theorem statusWord_reset : statusWord State.reset = 0x0000 := by decide

/-- Settles O15 (`engineReset` is the model's function): the reset takes every register from the reset state
and every trace from the state it resets. -/
theorem engineReset_restores : Obligations.EngineReset := fun s =>
  ⟨engineReset s, rfl, rfl, rfl, frameView_congr rfl, rfl, rfl, statusWord_reset, rfl, rfl, rfl, rfl, rfl, rfl, rfl,
    rfl, rfl, rfl, rfl, rfl, rfl, rfl, rfl, rfl, fun _ _ => ite_self none⟩

/-! ## STATUS (10_state.md R24) -/

/-- STATUS's fields. -/
theorem statusWord_fields (s : State) :
    (statusWord s).extractLsb' 0 2 = engineBits s.engine ∧ (statusWord s).extractLsb' 2 6 = 0
      ∧ (statusWord s).extractLsb' 8 8 = errBits s.errCode := by
  rw [statusWord]
  refine ⟨?_, ?_, BitVec.extractLsb'_append_eq_left⟩
  · rw [BitVec.extractLsb'_append_eq_of_add_le (by decide)]
    exact BitVec.extractLsb'_append_eq_right
  · rw [BitVec.extractLsb'_append_eq_of_add_le (by decide)]
    exact BitVec.extractLsb'_append_eq_left

/-! ## The host's reads (10_state.md R35) -/

/-- Between commands both values of a read are the register. -/
theorem hostRead_idle (late : Bool) (r : HostReg) {s : State} (h : s.running = none) :
    hostRead late r s = hostReg r s := by
  rw [hostRead, settled, h]
  cases late <;> rfl

/-- No event and no buffer write shows in the registers that a command's end leaves to the host. -/
theorem hostReg_finish (reg : HostReg) (e : Ending) (q : List Action) (o : Option Running) (s : State) :
    hostReg reg (finish e { runActions q s with running := o }) = hostReg reg (finish e s) := by
  rw [runActions_eq]
  cases e <;> rfl

/-- A stream CP can address. -/
theorem streamOk_iff (ws : List Word) : streamOk ws = true ↔ ws.length < 4294967296 := by simp [streamOk]

/-- An append to an idle engine, within what CP can address (20_memory.md R61). -/
theorem append_idle {s : State} {ws : List Word} (hi : idle s = true) (h : (s.cmds ++ ws).length < 4294967296) :
    hostMove (.append ws) s = .next { s with cmds := s.cmds ++ ws } := by
  rw [hostMove, if_neg (by simp [hi]), if_neg (by simp [(streamOk_iff _).mpr h])]

/-- Past what CP can address the stream is refused (10_state.md R22). -/
theorem append_tooLong {s : State} {ws : List Word} (hi : idle s = true) (h : 4294967296 ≤ (s.cmds ++ ws).length) :
    hostMove (.append ws) s = .refused .streamTooLong := by
  rw [hostMove, if_neg (by simp [hi]), if_pos (by rw [Bool.eq_false_iff, ne_eq, streamOk_iff]; omega)]

/-- While the engine is not idle an append is refused (20_memory.md R76). -/
theorem append_inUse {s : State} (ws : List Word) (hi : idle s = false) :
    hostMove (.append ws) s = .refused .streamInUse := by
  rw [hostMove, if_pos hi]

/-- Settles O16: STATUS is its two fields, a late read is one of the state the command's end leaves, and an append asks
for an idle engine first. -/
theorem hostPort : Obligations.HostPort := by
  refine ⟨statusWord_fields, by decide, by decide, fun late s hr => ?_, fun r reg s hr hq => ⟨rfl, ?_⟩,
    fun s ws => ⟨append_idle, append_tooLong, append_inUse ws⟩⟩
  · simp only [hostRead_idle late _ hr, hostReg]
    refine ⟨?_, trivial, ?_, ?_, ?_, ?_, ?_⟩
    all_goals exact BitVec.toNat_setWidth_of_le (by decide)
  · rw [drain_sync hq, hostReg_finish, hostRead, settled, hr]
    rfl

end Sys2Proof.Machine
end

section
/-! PROOFS. The buffer's size, fill and order, and DRAW_CHAR (42_transfer_window.md R137, R139, R142, R143, 44_text.md
R200 to R208). -/

namespace Sys2Proof.Machine

/-! ## The request's size (42_transfer_window.md R139) -/

/-- Settles O28: the table's maximum W x K x 2 and the minimum are even, so rounding down touches a hint between them
only. -/
theorem allocationSize : Obligations.AllocationSize := by
  intro s hint p r hg
  obtain ⟨-, -, -, h2, heven, -⟩ := params_facts s.par
  obtain ⟨-, -, -, -, hmin, -⟩ := calibAt_facts s.par p r
  rw [← hg] at hmin
  have hz : hint = 0 ↔ hint.toNat = 0 := by rw [← BitVec.toNat_inj]; rfl
  simp only [geometryOf] at hmin
  simp only [allocSize, hz, ne_eq]
  generalize s.cfgWidth.toNat * s.par.raw.kLines = m at *
  generalize s.par.raw.bufMinBytes = b at *
  split <;> omega

/-! ## Refresh and StreamFill (42_transfer_window.md R142, R143) -/

/-- wire16 sends the high byte first (20_memory.md R65). -/
theorem wire16_eq (c : Color) : wire16 c = [BitVec.ofNat 8 (c.toNat / 256), BitVec.ofNat 8 c.toNat] := by
  simp [wire16, BitVec.extractLsb', Nat.shiftRight_eq_div_pow]

/-- n slots of c, as R143 writes them. -/
theorem fillBytes_flatten (n : Nat) (c : Color) : fillBytes n c = (List.replicate n (wire16 c)).flatten := by
  rw [fillBytes_eq, List.flatMap_def, List.map_replicate]

/-- After Refresh(c) the buffer holds c in every slot, rewritten or not. -/
theorem refresh_bufData_usable {s : State} (c : Color) (h : bufUsable s) :
    (refresh c s).bufData = fillBytes (s.bufBytes.toNat / 2) c := by
  obtain ⟨-, -, ht⟩ := bufUsable_prepare (.fill ⟨0, 0, 0, 0⟩ c) h
  exact ht c rfl

theorem drawReady.engine_eq {s : State} (h : drawReady s) : s.engine = .ready := by
  obtain ⟨he, -⟩ := h
  exact he

/-- Settles O37: the refreshed buffer holds c, its replay is R143's chunks, and a primitive's transactions come in the
order `drawActions_order` gives. -/
theorem bufferFill : Obligations.BufferFill := by
  refine ⟨wire16_eq, fun s c npix h => ?_, fun i s hp hs => ?_⟩
  · have ⟨h2, heven, _⟩ := h
    have hd := refresh_bufData_usable c h
    have hrem : 2 * npix % s.bufBytes.toNat % 2 = 0 := by
      rw [Nat.mod_mod_of_dvd _ (Nat.dvd_of_mod_eq_zero heven), Nat.mul_mod_right]
    simp only [← fillBytes_flatten, fillBytes_length]
    exact ⟨hd, rfl, xferBytes_streamFill (refresh c s) npix c h2 heven hd,
      streamFill_chunks (refresh c s) npix c h2 heven hd, by omega, by omega⟩
  · rw [exec_primitive hp, gated_ready _ _ _ hs.engine_eq, perform, drawActions_order hs.bufUsable]

/-! ## DRAW_CHAR (44_text.md R200 to R208) -/

/-- Which glyph a character has (R200). -/
theorem charLookup_eq_some (f : Font) (c : Byte) (g : Glyph) :
    charLookup f c = some g ↔
      f.first.toNat ≤ c.toNat ∧ c.toNat ≤ f.last.toNat ∧ f.glyphs[c.toNat - f.first.toNat]? = some g := by
  rw [charLookup]
  split
  · rename_i h
    exact ⟨nofun, fun ⟨h1, h2, _⟩ => by omega⟩
  · rename_i h
    exact ⟨fun hg => ⟨by omega, by omega, hg⟩, fun ⟨_, _, hg⟩ => hg⟩

/-- Bit k of a byte, as arithmetic. -/
theorem getLsbD_byte (b : Byte) (k : Nat) : b.getLsbD k = decide (b.toNat / 2 ^ k % 2 = 1) := by
  rw [← BitVec.testBit_toNat, Nat.testBit_eq_decide_div_mod_eq]

/-- Which bit gives a pixel its colour (R201, R204). -/
theorem glyphColor_eq (f : Font) (g : Glyph) (cx cy : Int) (fg bg : Color) (row col : Nat) :
    let b := g.bitmapOffset.toNat * 8 + row * g.width.toNat + col
    glyphColor f g cx cy fg bg (cx + g.xOffset.toInt + col, cy + g.yOffset.toInt + row)
      = if (f.bitmap.getD (b / 8) 0).toNat / 2 ^ (7 - b % 8) % 2 = 1 then fg else bg := by
  simp only [glyphColor, offset8, glyphBit, bitmapByte, glyphBitIndex, getLsbD_byte, add_sub_cancel_left,
    Int.toNat_natCast, decide_eq_true_eq]

/-- DRAW_CHAR of a glyph in range performs its transactions (R208). -/
theorem exec_drawChar {x y : Word} {ch font : Byte} {fg bg : Color} {f : Font} {g : Glyph} {s : State}
    (he : s.engine = .ready) (hf : fontAt s.par.raw.fonts font = some f) (hg : charLookup f ch = some g)
    (hr : glyphInRange f g = true) :
    exec (.drawChar x y ch font fg bg) s
      = .next (perform (glyphDraws s f g x.toInt y.toInt fg bg) (.complete 6) s) := by
  rw [exec, execDrawChar, gated_ready _ _ _ he, drawCharBody]
  simp only [hf, hg, hr, if_true, coord]

/-- Settles O54: DRAW_CHAR is `perform` of `glyphDraws`, whose pixels, frames, buffers and order the glyph's visible
pixels tell. -/
theorem drawChar : Obligations.DrawChar := by
  refine ⟨charLookup_eq_some, glyphColor_eq, fun x y ch font fg bg f g s hs hp hf hg hr => ?_,
    fun x y ch font fg bg f g s hs hf hg hr => ?_⟩
  · have hd := drawing_drawn 6 hs (drawOk_glyphDraws (f := f) (g := g) (cx := x.toInt) (cy := y.toInt) (fg := fg)
      (bg := bg))
    rw [glyphDraws_pixels] at hd
    refine ⟨drawn (glyphDraws s f g x.toInt y.toInt fg bg) 6 s, _, ?_, rfl, hd, ?_,
      glyphBuf_drawn s f g x.toInt y.toInt fg bg 6⟩
    · rw [exec_drawChar hs.engine_eq hf hg hr, perform_sync 6 hp]
    · rw [frameView_drawn _ _ hs.bufUsable, glyphDraws_frames]
  · rw [exec_drawChar hs.engine_eq hf hg hr, perform, drawActions_order hs.bufUsable, glyphDraws_order]

end Sys2Proof.Machine
end

section
/-! PROOFS. The frame of a window transaction (42_transfer_window.md R136, R137), and the faults an operand raises
(60_exceptions.md R231). -/

namespace Sys2Proof.Machine

/-! ## The frame of a window transaction (42_transfer_window.md R136) -/

/-- A number below 65536 goes out as its high byte, then its low byte (20_memory.md R66). -/
theorem wire16_trunc16 {n : Nat} (h : n < 65536) :
    wire16 (trunc16 n) = [BitVec.ofNat 8 (n / 256), BitVec.ofNat 8 n] := by
  rw [wire16_eq, trunc16_toNat (by omega) (by omega), Int.toNat_natCast]

/-- Settles O36 (`windowFrame` is the model's function): the transaction is one `windowFrame`, and the shifted corners
of a visible window fit 16 bits. -/
theorem windowFrame_visible : Obligations.WindowFrame := by
  intro s x0 y0 x1 y1 bs dc hfits hx hx1 hy hy1
  obtain ⟨hw, hh⟩ := hfits
  dsimp only
  have hframe := framesFrom_txn s ⟨x0, y0, x1, y1⟩ (onlyXfers_write s.par.raw bs) dc none []
  simp only [List.append_nil, xferBytes_write, framesFrom, nat16, ← Int.natCast_add, windowFrame] at hframe
  refine ⟨by omega, by omega, ?_⟩
  rw [hframe, wire16_trunc16 (by omega), wire16_trunc16 (by omega), wire16_trunc16 (by omega),
    wire16_trunc16 (by omega)]
  rfl

/-! ## Operand faults (60_exceptions.md R231) -/

/-- Settles O13: where a command is accepted, the check of its panel or font comes before anything else it does. -/
theorem operandFaults : Obligations.OperandFaults := by
  refine ⟨fun panel rot hint s he hp => ?_, fun x y ch font fg bg chars s he hf => ⟨?_, ?_⟩,
    fun font chars s he hf => ?_⟩
  · rw [exec, execInit, gated_always _ _ he, initBody, dif_neg (by omega), raise]
  · rw [exec, execDrawChar, gated_ready _ _ _ he, drawCharBody, hf, raise, absentFont]
  · rw [exec, execDrawString, gated_ready _ _ _ he, drawStringBody, hf, raise, absentFont]
  · rw [exec, execGetTextBounds, gated_always _ _ he, textBoundsBody, hf, raise, absentFont]

end Sys2Proof.Machine
end

section
/-! PROOFS. A command ends in one state whether its transfers wait or not (20_memory.md R73, 42_transfer_window.md
R135). All rests on `endsIn_drain`: a command that drains its actions ends in what its ending makes of all of them, so
that each command has only to name its actions and that state. -/

namespace Sys2Proof.Machine

/-! ## Ending after the waits -/

/-- A command's end does not depend on the transport's answers, and leaves them. -/
theorem finish_inputs (e : Ending) (l : List Bool) (n : Nat) (s : State) :
    finish e { s with transportScript := l, draws := n } = { finish e s with transportScript := l, draws := n } := by
  cases e <;> rfl

@[simp] theorem finish_draws (e : Ending) (s : State) : (finish e s).draws = s.draws := by cases e <;> rfl
@[simp] theorem runActions_draws (q : List Action) (s : State) : (runActions q s).draws = s.draws := by
  simp [runActions]

section
variable {i : Instr} {s u : State} {q : List Action} {es : List WireEvent} {ds : List Draw} {e : Ending}

/-- A command that drains its actions, from a state with the transport's answers of s, ends in what its ending makes of
all of them. -/
theorem endsIn_drain (hi : exec i s = .next (drain ⟨q, e⟩ u)) (hq : eventsOf q = commandEvents i s)
    (hx : u.xferBusy = false) (hm : memWf u.fb = true) (ht : u.transportScript = s.transportScript) :
    endsIn i s (finish e { runActions q u with running := none }) := by
  intro rest hs
  have hrun := drain_run q e u rest hx hm (by rw [hq, ht, hs])
  rw [hq] at hrun
  refine ⟨_, hi, hrun.trans ?_⟩
  rw [finish_draws, runActions_draws, ← finish_inputs]

/-- So does a command that sends controller commands. -/
theorem endsIn_launch (hi : exec i s = .next (launch es e u)) (hes : commandEvents i s = es)
    (hx : u.xferBusy = false) (hm : memWf u.fb = true) (ht : u.transportScript = s.transportScript) :
    endsIn i s (finish e { emitAll es u with running := none }) := by
  rw [← runActions_map_emit]
  exact endsIn_drain hi (by rw [eventsOf_map_emit, hes]) hx hm ht

/-- And a command that performs transactions. -/
theorem endsIn_perform (hs : drawReady s) (hi : exec i s = .next (perform ds e s))
    (hes : commandEvents i s = drawEvents ds s) :
    endsIn i s (finish e { emitAll (drawEvents ds s) (settle ds s) with running := none }) := by
  obtain ⟨-, -, hx, -, -, -, -, -, hm⟩ := hs
  rw [← runActions_drawActions]
  exact endsIn_drain hi (by rw [eventsOf_drawActions, hes]) hx hm rfl

/-- The events of a command that sends no controller command are those of its transactions. -/
theorem commandEvents_draws (hc : configEvents i s = []) (hd : commandDraws i s = ds) :
    commandEvents i s = drawEvents ds s := by
  rw [commandEvents, hc, hd, List.nil_append]

/-- The events of a command without transactions are its controller commands. -/
theorem commandEvents_config (hc : configEvents i s = es) (hd : commandDraws i s = []) : commandEvents i s = es := by
  rw [commandEvents, hc, hd, drawEvents, List.append_nil]

end

/-! ## Where a list of transactions has ended -/

theorem drawn_wire (ds : List Draw) (len : Nat) (s : State) : (drawn ds len s).wire = s.wire ++ drawEvents ds s := by
  simp [drawn]

theorem drawn_dc (ds : List Draw) (len : Nat) (s : State) : (drawn ds len s).dc = dcAfter s.dc (drawEvents ds s) := by
  simp [drawn]

/-- Without a bulk fill the transfer buffer stands (42_transfer_window.md R144). -/
theorem drawn_noFill {ds : List Draw} (len : Nat) {s : State} (h : ∀ d ∈ ds, noFill d) :
    (drawn ds len s).bufData = s.bufData ∧ (drawn ds len s).bufTag = s.bufTag := by
  simpa [drawn] using settle_noFill h

/-- A fault that ends transactions comes after all of them, and leaves CP (60_exceptions.md R233, R235). -/
theorem finish_faulted_drawn (code : ErrCode) (arg : Word) (ds : List Draw) (s : State) :
    finish (.faulted code arg) { emitAll (drawEvents ds s) (settle ds s) with running := none }
      = { drawn ds 0 s with engine := .halted, errCode := code, faultCp := s.cp, faultArg := arg } := by
  have hcp : s.cp + BitVec.ofNat 32 0 = s.cp := BitVec.add_zero _
  simp only [finish, raise, drawn, advance, emitAll_cp, settle_cp, hcp]

/-! ## The primitives (43_primitives.md) -/

/-- A primitive's transactions meet the window obligations (42_transfer_window.md R148). -/
theorem drawOk_commandDraws {i : Instr} (hp : isPrimitive i = true) (s : State) :
    ∀ d ∈ commandDraws i s, drawOk s d := by
  cases i with
  | fillScreen c => exact drawOk_fillBox
  | drawPixel x y c => exact drawOk_plotPixel
  | drawLine x0 y0 x1 y1 c => exact drawOk_plotAll
  | drawHLine x y w c => exact drawOk_hSpan
  | drawVLine x y h c => exact drawOk_vSpan
  | drawRect x y w h c => exact drawOk_rectDraws
  | fillRect x y w h c => exact drawOk_fillBox
  | drawCircle x0 y0 r c => exact drawOk_plotAll
  | fillCircle x0 y0 r c => exact drawOk_spanAll
  | drawTriangle x1 y1 x2 y2 x3 y3 c => exact drawOk_plotAll
  | fillTriangle x1 y1 x2 y2 x3 y3 c => exact drawOk_plotAll
  | _ => cases hp

/-- A primitive sends no controller command. -/
theorem configEvents_primitive {i : Instr} (hp : isPrimitive i = true) (s : State) : configEvents i s = [] := by
  cases i <;> cases hp <;> rfl

/-- A primitive in either mode. -/
theorem endsIn_primitive {i : Instr} {s : State} (hp : isPrimitive i = true) (hs : drawReady s) :
    endsIn i s (drawn (commandDraws i s) (cmdLen i) s) := by
  refine endsIn_perform (e := .complete (cmdLen i)) hs ?_ (commandEvents_draws (configEvents_primitive hp s) rfl)
  rw [exec_primitive hp, gated_ready _ _ _ hs.engine_eq]

/-! ## DRAW_CHAR (44_text.md R208) -/

section
variable {s : State} {f : Font} {font : Byte} {x y : Word} {fg bg : Color} (hs : drawReady s)

include hs in
/-- A glyph's transactions paint its visible pixels. -/
theorem drawing_glyph (g : Glyph) (cx cy : Int) (len : Nat) :
    Drawing s (drawn (glyphDraws s f g cx cy fg bg) len s) len (glyphPaints s f g cx cy fg bg) := by
  rw [← glyphDraws_pixels]
  exact drawing_drawn len hs drawOk_glyphDraws

include hs in
/-- They add the glyph's frames. -/
theorem frameView_glyph (g : Glyph) (cx cy : Int) (len : Nat) :
    frameView (drawn (glyphDraws s f g cx cy fg bg) len s) = frameView s ++ glyphFrames s f g cx cy fg bg := by
  rw [frameView_drawn _ _ hs.bufUsable, glyphDraws_frames]

variable (hf : fontAt s.par.raw.fonts font = some f)

section
variable {ch : Byte} {g : Glyph} (hg : charLookup f ch = some g) (hr : glyphInRange f g = true)
include hf hg hr

/-- The transactions of DRAW_CHAR of a glyph in range. -/
theorem commandDraws_glyph :
    commandDraws (.drawChar x y ch font fg bg) s = glyphDraws s f g x.toInt y.toInt fg bg := by
  simp only [commandDraws, hf, hg, hr, if_true, coord]

include hs in
/-- DRAW_CHAR in either mode. -/
theorem endsIn_drawChar :
    endsIn (.drawChar x y ch font fg bg) s (drawn (glyphDraws s f g x.toInt y.toInt fg bg) 6 s) :=
  endsIn_perform (e := .complete 6) hs (exec_drawChar hs.engine_eq hf hg hr)
    (commandEvents_draws rfl (commandDraws_glyph hf hg hr))

end

/-! ## DRAW_STRING (44_text.md R209) -/

variable {chars : List Byte}
include hf

/-- The transactions of DRAW_STRING. -/
theorem commandDraws_string :
    commandDraws (.drawString x y font fg bg chars) s = (stringWalk s f fg bg x.toInt y.toInt chars).draws := by
  simp only [commandDraws, hf, coord]

/-- DRAW_STRING performs its transactions, and ends as its walk does. -/
theorem exec_drawString {o : Option Word} (he : s.engine = .ready)
    (hw : (stringWalk s f fg bg x.toInt y.toInt chars).fault = o) :
    exec (.drawString x y font fg bg chars) s
      = .next (perform (stringWalk s f fg bg x.toInt y.toInt chars).draws
          (stringEnding (7 + (chars.length + 1) / 2) o) s) := by
  rw [exec, execDrawString, gated_ready _ _ _ he, drawStringBody, hf, ← hw]
  rfl

include hs

/-- DRAW_STRING in either mode, where its walk meets no glyph out of range. -/
theorem endsIn_drawString (hw : (stringWalk s f fg bg x.toInt y.toInt chars).fault = none) :
    endsIn (.drawString x y font fg bg chars) s
      (drawn (stringWalk s f fg bg x.toInt y.toInt chars).draws (7 + (chars.length + 1) / 2) s) :=
  endsIn_perform (e := .complete _) hs (exec_drawString hf hs.engine_eq hw)
    (commandEvents_draws rfl (commandDraws_string hf))

/-- DRAW_STRING in either mode, where its walk meets one: FONT_FAULT after the characters before it. -/
theorem endsIn_drawString_fault {arg : Word} (hw : (stringWalk s f fg bg x.toInt y.toInt chars).fault = some arg) :
    endsIn (.drawString x y font fg bg chars) s
      { drawn (stringWalk s f fg bg x.toInt y.toInt chars).draws 0 s with
        engine := .halted, errCode := .fontFault, faultCp := s.cp, faultArg := arg } := by
  rw [← finish_faulted_drawn]
  exact endsIn_perform hs (exec_drawString hf hs.engine_eq hw) (commandEvents_draws rfl (commandDraws_string hf))

end

/-! ## INIT (41_config.md R103) -/

section
variable {panel rot : Byte} {hint : BitVec 32} {s : State}

/-- INIT for a known panel whose request is granted sends its events from the new geometry and buffer. -/
theorem exec_init_granted (hp : panel.toNat < 3) (he : s.engine ≠ .halted) (ha : allocAnswer s = true) :
    exec (.init panel rot hint) s
      = .next (launch (configEvents (.init panel rot hint) s) (.initialised 4)
          (allocate hint (applyGeometry ⟨panel.toNat, hp⟩ (normRot rot) s))) := by
  rw [exec, execInit, gated_always _ _ he, initBody, dif_pos hp, initPanel, if_pos ha]
  rfl

/-- Once they are sent it leaves `initEnd`. -/
theorem finish_init (p : Fin 3) (hr : s.running = none) (hsel : s.sel = false) (ha : allocAnswer s = true) :
    finish (.initialised 4)
        { emitAll (configEvents (.init panel rot hint) s) (allocate hint (applyGeometry p (normRot rot) s)) with
          running := none }
      = initEnd p rot hint s := by
  have hsel' : selAfter s.sel (configEvents (.init panel rot hint) s) = s.sel := by
    rw [configEvents, selAfter_append, selAfter_writeCmd, hsel]
  have ha' : allocAnswer (applyGeometry p (normRot rot) s) = true := ha
  rw [finish, emitAll_eq, allocate_sel, applyGeometry_sel, hsel', ← hr]
  simp only [allocate, ha', if_true]
  rfl

/-- INIT in either mode. -/
theorem endsIn_init (hp : panel.toNat < 3) (he : s.engine ≠ .halted) (hr : s.running = none)
    (hx : s.xferBusy = false) (hsel : s.sel = false) (hm : memWf s.fb = true) (ha : allocAnswer s = true) :
    endsIn (.init panel rot hint) s (initEnd ⟨panel.toNat, hp⟩ rot hint s) := by
  rw [← finish_init (panel := panel) _ hr hsel ha]
  exact endsIn_launch (exec_init_granted hp he ha) (commandEvents_config rfl rfl) hx hm rfl

end

/-! ## The commands of one controller command (41_config.md R107, R109, R110) -/

section
variable {s : State} (he : s.engine = .ready) (hr : s.running = none) (hx : s.xferBusy = false) (hsel : s.sel = false)
  (hm : memWf s.fb = true)
include he hr hx hsel hm

/-- SET_ROTATION in either mode. -/
theorem endsIn_setRotation (rot : Byte) : endsIn (.setRotation rot) s (rotationEnd rot s) := by
  have hi : exec (.setRotation rot) s
      = .next (launch (writeCmd s.par.raw cmdMADCTL [perRot s.par.raw.madctl (normRot rot)]) (.rotated 2)
          (applyGeometry s.cfgPanel (normRot rot) s)) := by
    rw [exec, execSetRotation, gated_ready _ _ _ he, madctlWrite]
  have hend := endsIn_launch hi (commandEvents_config rfl rfl) hx hm rfl
  rw [emitAll_writeCmd (applyGeometry s.cfgPanel (normRot rot) s) s.par, ← hr, ← hsel] at hend
  exact hend

/-- A command of two words that sends one controller command and writes no register, in either mode. -/
theorem endsIn_writeCmd {i : Instr} {c : Byte} {args : List Byte}
    (hi : exec i s = .next (gated .readyOnly (opcOf i) (launch (writeCmd s.par.raw c args) (.complete 2)) s))
    (hes : commandEvents i s = writeCmd s.par.raw c args) :
    endsIn i s
      { s with
        cp := s.cp + 2, latch := [], dc := if args = [] then .cmd else .data
        wire := s.wire ++ writeCmd s.par.raw c args } := by
  rw [gated_ready _ _ _ he] at hi
  have hend := endsIn_launch hi hes hx hm rfl
  rw [emitAll_writeCmd, ← hr, ← hsel] at hend
  exact hend

/-- INVERT in either mode. -/
theorem endsIn_invert (on : Bool) :
    endsIn (.invert on) s
      { s with
        cp := s.cp + 2, latch := [], dc := .cmd
        wire := s.wire ++ writeCmd s.par.raw (if on then 0x21 else 0x20) [] } :=
  endsIn_writeCmd he hr hx hsel hm (args := []) rfl (commandEvents_config rfl rfl)

/-- TEARING in either mode; only P_TEON_PARAM puts DC in data mode. -/
theorem endsIn_tearing (on : Bool) :
    endsIn (.tearing on) s
      { s with
        cp := s.cp + 2, latch := []
        dc := if on = true ∧ s.par.raw.teonParam ≠ none then .data else .cmd
        wire := s.wire
          ++ writeCmd s.par.raw (if on then 0x35 else 0x34) (if on then s.par.raw.teonParam.toList else []) } := by
  cases on with
  | false => exact endsIn_writeCmd he hr hx hsel hm (args := []) rfl (commandEvents_config rfl rfl)
  | true =>
    have hend := endsIn_writeCmd he hr hx hsel hm (i := .tearing true) (c := 0x35)
      (args := s.par.raw.teonParam.toList) rfl (commandEvents_config rfl rfl)
    cases hp : s.par.raw.teonParam <;> simpa [hp] using hend

end

/-! ## Every command that sends events -/

/-- Settles O39: each command drains its actions, so `endsIn_drain` gives its end; what the transactions of a character
and a string leave is told of that end. -/
theorem asyncRunCompletes : Obligations.AsyncRunCompletes := by
  refine ⟨fun i s hp hs => ⟨endsIn_primitive hp hs, drawing_drawn _ hs (drawOk_commandDraws hp s)⟩,
    fun x y ch font fg bg f g i s hs hi hf hg hr => ?_, fun x y font fg bg chars f i s hs hi hf => ?_,
    fun panel rot hint s hp he hr hx hsel hm ha => endsIn_init hp he hr hx hsel hm ha,
    fun on rot s he hr hx hsel hm => ⟨endsIn_setRotation he hr hx hsel hm rot, endsIn_invert he hr hx hsel hm on,
      endsIn_tearing he hr hx hsel hm on⟩⟩
  · subst hi
    rw [commandEvents_draws rfl rfl, commandDraws_glyph hf hg hr]
    exact ⟨_, _, endsIn_drawChar hs hf hg hr, rfl, rfl, drawing_glyph hs g _ _ 6, drawn_wire _ _ s, drawn_dc _ _ s,
      frameView_glyph hs g _ _ 6, glyphBuf_drawn s f g _ _ fg bg 6⟩
  · subst hi
    rw [commandEvents_draws rfl rfl, commandDraws_string hf]
    dsimp only
    obtain ⟨hdata, htag⟩ := drawn_noFill
      (if (stringWalk s f fg bg x.toInt y.toInt chars).fault = none then 7 + (chars.length + 1) / 2 else 0)
      (noFill_stringWalk (s := s) (f := f) (fg := fg) (bg := bg) x.toInt y.toInt chars)
    refine ⟨_, rfl, drawing_drawn _ hs (drawOk_stringWalk _ _ _), drawn_wire _ _ s, drawn_dc _ _ s,
      frameView_drawn _ _ hs.bufUsable, hdata, htag, fun hw => ?_, fun arg hw => ?_⟩
    · rw [if_pos hw]
      exact endsIn_drawString hs hf hw
    · rw [hw, if_neg nofun]
      exact endsIn_drawString_fault hs hf hw

end Sys2Proof.Machine
end

section
/-! PROOFS. The decoder and the encoder (30_encoding.md). What the decoder can answer is said once, in
`decode_decodesTo`; the statements on its faults and on what decodes are read off it. -/

namespace Sys2Proof.Machine

/-! ## Headers -/

/-- A word's value, by its bytes. -/
theorem toNat_bytes (w : Word) : w.toNat = 256 * (highByte w).toNat + (lowByte w).toNat := by
  simp only [highByte, lowByte, BitVec.extractLsb'_toNat]
  omega

/-- A header with a zero high byte is its OPC (30_encoding.md R81). -/
theorem header_eq {h : Word} {k : Nat} (hk : (lowByte h).toNat = k) (h0 : highByte h = 0) :
    h = BitVec.ofNat 16 k := by
  apply BitVec.eq_of_toNat_eq
  rw [toNat_bytes, h0, hk, BitVec.toNat_ofNat, Nat.mod_eq_of_lt (by omega)]
  simp

/-- The OPC values of 30_encoding.md R87 are in no row of R84. -/
theorem baseLen_illegal {k : Nat}
    (hk : k = 0x00 ∨ (0x07 ≤ k ∧ k ≤ 0x0F) ∨ (0x1B ≤ k ∧ k ≤ 0x1F) ∨ (0x23 ≤ k ∧ k ≤ 0xFF)) : baseLen k = none := by
  rw [baseLen] <;> omega

/-! ## What the decoder can answer -/

/-- What the header h with the words ops behind it can decode to (30_encoding.md R81 to R88), n being its row's length
up to COUNT: a fault of the header comes before one of the operands (60_exceptions.md R236). -/
inductive DecodesTo (h : Word) (ops : List Word) : Decoded → Prop
  | illegal (hb : baseLen (lowByte h).toNat = none) : DecodesTo h ops (.malformed .illegalCommand h)
  | reservedHeader {n : Nat} (hb : baseLen (lowByte h).toNat = some n) (h0 : highByte h ≠ 0) :
      DecodesTo h ops (reservedAt 0)
  | truncated {n : Nat} (hb : baseLen (lowByte h).toNat = some n) (h0 : highByte h = 0) :
      DecodesTo h ops (truncatedAt (h :: ops))
  | reservedOperand {n : Nat} (k : Nat) (hb : baseLen (lowByte h).toNat = some n) (h0 : highByte h = 0)
      (hn : n ≤ ops.length + 1) : DecodesTo h ops (reservedAt k)
  | command {n : Nat} (i : Instr) (rest : List Word) (hb : baseLen (lowByte h).toNat = some n) (h0 : highByte h = 0)
      (hn : n ≤ ops.length + 1) (hw : wellFormed i = true) (he : h :: ops = encode i ++ rest) :
      DecodesTo h ops (.command i)

/-- The row of the listed OPC k, where the header is k itself. -/
theorem decodesTo_row {h : Word} {ops : List Word} {k n : Nat} {d : Decoded} (hk : (lowByte h).toNat = k)
    (hn : baseLen k = some n) (hd : h = BitVec.ofNat 16 k → highByte h = 0 → DecodesTo h ops d) :
    DecodesTo h ops (listed h d) := by
  rw [listed]
  split
  · exact .reservedHeader (hk ▸ hn) ‹_›
  · have h0 : highByte h = 0 := not_not.mp ‹_›
    exact hd (header_eq hk h0) h0

theorem wordOf_lowByte {w : Word} (h : highByte w = 0) : wordOf 0 (lowByte w) = w := by rw [← h, wordOf_bytes]

/-- The words of a character list are its COUNT word and its packed characters (30_encoding.md R83). -/
theorem count_packChars {n : Word} {rest : List Word} (hl : charWords n.toNat ≤ rest.length)
    (hp : padByte n.toNat rest = 0) :
    n :: rest = BitVec.ofNat 16 (unpackChars n.toNat rest).length
      :: (packChars (unpackChars n.toNat rest) ++ rest.drop (charWords n.toNat)) := by
  rw [unpackChars_length _ _ hl, packChars_unpack _ _ hl hp, List.take_append_drop, BitVec.ofNat_toNat,
    BitVec.setWidth_eq]

/-- A count word's characters fit it (30_encoding.md R82). -/
theorem charsFit_unpack {n : Word} {rest : List Word} (hl : charWords n.toNat ≤ rest.length) :
    charsFit (unpackChars n.toNat rest) = true := by
  rw [charsFit, unpackChars_length _ _ hl]
  exact decide_eq_true n.isLt

section
variable {h : Word} {ops : List Word} {l : Nat} (hb : baseLen (lowByte h).toNat = some l) (h0 : highByte h = 0)
  (hl : l ≤ ops.length + 1)
include hb h0 hl

/-- An operand of which some bits are reserved, or is not (30_encoding.md R88). -/
theorem decodesTo_reserved {p : Prop} [Decidable p] {d : Decoded} (k : Nat) (hd : ¬ p → DecodesTo h ops d) :
    DecodesTo h ops (if p then reservedAt k else d) := by
  split
  · exact .reservedOperand k hb h0 hl
  · exact hd ‹_›

/-- The end of the two text commands: the characters, the font word's reserved byte, the padding byte
(30_encoding.md R86, R88). -/
theorem decodesTo_chars {f n : Word} {rest : List Word} {i : Instr} (j k : Nat)
    (hw : charWords n.toNat ≤ rest.length → wellFormed i = true)
    (he : wordOf 0 (lowByte f) = f →
      n :: rest = BitVec.ofNat 16 (unpackChars n.toNat rest).length
        :: (packChars (unpackChars n.toNat rest) ++ rest.drop (charWords n.toNat)) →
      h :: ops = encode i ++ rest.drop (charWords n.toNat)) :
    DecodesTo h ops
      (if rest.length < charWords n.toNat then truncatedAt (h :: ops)
       else if highByte f ≠ 0 then reservedAt j
       else if padByte n.toNat rest ≠ 0 then reservedAt k
       else .command i) := by
  split
  · exact .truncated hb h0
  · have hlen : charWords n.toNat ≤ rest.length := not_lt.mp ‹_›
    exact decodesTo_reserved hb h0 hl j fun hf => decodesTo_reserved hb h0 hl k fun hp =>
      .command i _ hb h0 hl (hw hlen) (he (wordOf_lowByte (not_not.mp hf)) (count_packChars hlen (not_not.mp hp)))

end

/-- Every row of 30_encoding.md R85 answers as `DecodesTo` says. -/
theorem decode_decodesTo (h : Word) (ops : List Word) : DecodesTo h ops (decode (h :: ops)) := by
  simp only [decode, decodeOps]
  split
  -- an OPC without a row
  case h_21 => exact .illegal (by rw [baseLen] <;> assumption)
  all_goals
    refine decodesTo_row ‹_› rfl fun hh h0 => ?_
    subst hh
  -- DEINIT, GET_GEOMETRY
  case h_2 | h_4 => exact .command _ ops rfl rfl (by simp) rfl rfl
  -- INIT
  case h_1 =>
    split
    next p lo hi rest =>
      obtain ⟨hlo, hhi⟩ := halves_append hi lo
      exact .command _ rest rfl rfl (by simp) rfl (by simp [encode, wordOf_bytes, hlo, hhi])
    next => exact .truncated rfl rfl
  -- SET_ROTATION
  case h_3 =>
    split
    next r rest =>
      refine decodesTo_reserved rfl rfl (by simp) 1 fun hr => .command _ rest rfl rfl (by simp) rfl ?_
      rw [encode, wordOf_lowByte (not_not.mp hr)]
      rfl
    next => exact .truncated rfl rfl
  -- INVERT, TEARING
  case h_5 | h_6 =>
    split
    next f rest =>
      refine decodesTo_reserved rfl rfl (by simp) 1 fun hf => .command _ rest rfl rfl (by simp) rfl ?_
      rw [encode, flag_write f (not_not.mp hf)]
      rfl
    next => exact .truncated rfl rfl
  -- DRAW_CHAR
  case h_18 =>
    split
    next x y cf fg bg rest =>
      exact .command _ rest rfl rfl (by simp) rfl (by simp [encode, wordOf_bytes])
    next => exact .truncated rfl rfl
  -- DRAW_STRING
  case h_19 =>
    split
    next x y f fg bg n rest =>
      refine decodesTo_chars rfl rfl (by simp) 3 _ charsFit_unpack fun hf hn => ?_
      rw [encode, hf, hn]
      rfl
    next => exact .truncated rfl rfl
  -- GET_TEXT_BOUNDS
  case h_20 =>
    split
    next f n rest =>
      refine decodesTo_chars rfl rfl (by simp) 1 _ charsFit_unpack fun hf hn => ?_
      rw [encode, hf, hn]
      rfl
    next => exact .truncated rfl rfl
  -- the primitives: their operand words as they stand
  all_goals
    split
    · exact .command _ _ rfl rfl (by simp) rfl rfl
    · exact .truncated rfl rfl

section
variable {h : Word} {ops : List Word} {d : Decoded} (hd : DecodesTo h ops d)
include hd

/-- An OPC without a row is illegal (30_encoding.md R87). -/
theorem DecodesTo.of_unlisted (hb : baseLen (lowByte h).toNat = none) : d = .malformed .illegalCommand h := by
  cases hd with
  | illegal => rfl
  | _ => simp_all

/-- A header's reserved byte comes before everything else of its row (60_exceptions.md R236). -/
theorem DecodesTo.of_reservedHeader (hb : baseLen (lowByte h).toNat ≠ none) (h0 : highByte h ≠ 0) :
    d = reservedAt 0 := by
  cases hd with
  | reservedHeader => rfl
  | _ => contradiction

/-- With fewer words than the row's length nothing is read (30_encoding.md R86). -/
theorem DecodesTo.of_short {n : Nat} (hb : baseLen (lowByte h).toNat = some n) (h0 : highByte h = 0)
    (hlt : ops.length + 1 < n) : d = truncatedAt (h :: ops) := by
  cases hd with
  | truncated => rfl
  | illegal hb' => simp_all
  | reservedHeader _ h0' => exact absurd h0 h0'
  | reservedOperand _ hb' _ hn | command _ _ hb' _ hn =>
    cases hb.symm.trans hb'
    omega

end

/-! ## The encoder -/

/-- A command's words are as many as its length says (30_encoding.md R85, R86). -/
theorem encode_length (i : Instr) : (encode i).length = cmdLen i := by
  cases i with
  | drawString x y font fg bg chars =>
    obtain ⟨-, hl, -⟩ := Laws.Encoding.drawString x y font fg bg chars
    exact hl
  | getTextBounds font chars =>
    obtain ⟨-, hl, -⟩ := Laws.Encoding.getTextBounds font chars
    exact hl
  | _ => rfl

/-- The COUNT word of a character list that fits it (30_encoding.md R82). -/
theorem count_toNat {chars : List Byte} (h : charsFit chars = true) :
    (BitVec.ofNat 16 chars.length).toNat = chars.length := by
  rw [charsFit, decide_eq_true_eq] at h
  rw [BitVec.toNat_ofNat, Nat.mod_eq_of_lt h]

theorem charWords_le_pack (chars : List Byte) (rest : List Word) :
    charWords chars.length ≤ (packChars chars ++ rest).length := by
  rw [List.length_append, packChars_length]
  exact Nat.le_add_right _ _

/-- The words of a DRAW_STRING after its COUNT word decode to it. -/
theorem decodeString_pack (ws : List Word) (x y : Word) (font : Byte) (fg bg : Color) (chars : List Byte)
    (rest : List Word) :
    decodeString ws x y (wordOf 0 font) fg bg chars.length (packChars chars ++ rest)
      = .command (.drawString x y font fg bg chars) := by
  rw [decodeString, if_neg (charWords_le_pack chars rest).not_gt]
  simp [padByte_pack, unpackChars_pack]

/-- The words of a GET_TEXT_BOUNDS after its COUNT word decode to it. -/
theorem decodeBounds_pack (ws : List Word) (font : Byte) (chars : List Byte) (rest : List Word) :
    decodeBounds ws (wordOf 0 font) chars.length (packChars chars ++ rest) = .command (.getTextBounds font chars) := by
  rw [decodeBounds, if_neg (charWords_le_pack chars rest).not_gt]
  simp [padByte_pack, unpackChars_pack]

/-! ## The rows that have something to check -/

theorem decode_init (w lo hi : Word) (rest : List Word) :
    decode (0x0001 :: w :: lo :: hi :: rest) = .command (.init (lowByte w) (highByte w) (hi ++ lo)) := rfl

theorem decode_setRotation (w : Word) (rest : List Word) :
    decode (0x0003 :: w :: rest) = if highByte w ≠ 0 then reservedAt 1 else .command (.setRotation (lowByte w)) := rfl

theorem decode_invert (w : Word) (rest : List Word) :
    decode (0x0005 :: w :: rest) = if flagReserved w ≠ 0 then reservedAt 1 else .command (.invert (flagBit w)) := rfl

theorem decode_tearing (w : Word) (rest : List Word) :
    decode (0x0006 :: w :: rest) = if flagReserved w ≠ 0 then reservedAt 1 else .command (.tearing (flagBit w)) := rfl

theorem decode_drawChar (x y cf fg bg : Word) (rest : List Word) :
    decode (0x0020 :: x :: y :: cf :: fg :: bg :: rest)
      = .command (.drawChar x y (lowByte cf) (highByte cf) fg bg) := rfl

theorem decode_drawString (x y f fg bg n : Word) (rest : List Word) :
    decode (0x0021 :: x :: y :: f :: fg :: bg :: n :: rest)
      = decodeString (0x0021 :: x :: y :: f :: fg :: bg :: n :: rest) x y f fg bg n.toNat rest := rfl

theorem decode_getTextBounds (f n : Word) (rest : List Word) :
    decode (0x0022 :: f :: n :: rest) = decodeBounds (0x0022 :: f :: n :: rest) f n.toNat rest := rfl

/-! ## The statements -/

/-- Settles O1: most rows read their words back as they stand; bytes, flags, the hint and characters are packed, and
unpacking undoes it. -/
theorem decodeEncode : Obligations.DecodeEncode := by
  intro i rest hw
  cases i with
  | init panel rot hint =>
    exact (decode_init _ _ _ rest).trans (by rw [lowByte_wordOf, highByte_wordOf, hint_split])
  | setRotation rot => exact (decode_setRotation _ rest).trans (by simp)
  | invert on =>
    obtain ⟨hr, hb⟩ := flag_read on
    exact (decode_invert _ rest).trans (by simp [hr, hb])
  | tearing on =>
    obtain ⟨hr, hb⟩ := flag_read on
    exact (decode_tearing _ rest).trans (by simp [hr, hb])
  | drawChar x y ch font fg bg => exact (decode_drawChar ..).trans (by simp)
  | drawString x y font fg bg chars =>
    exact (decode_drawString ..).trans (by rw [count_toNat hw]; exact decodeString_pack ..)
  | getTextBounds font chars =>
    exact (decode_getTextBounds ..).trans (by rw [count_toNat hw]; exact decodeBounds_pack ..)
  | _ => rfl

/-- Settles O2: only the last of the decoder's answers is a command, and it comes with its words. -/
theorem encodeDecode : Obligations.EncodeDecode := by
  rintro (_ | ⟨h, ops⟩) i hd
  · cases hd
  · have hc := decode_decodesTo h ops
    rw [hd] at hc
    cases hc with
    | command _ rest hb h0 hn hw he =>
      rw [he, ← encode_length, List.length_append, List.take_left]
      exact ⟨hw, Nat.le_add_right _ _, rfl⟩

/-- Settles O3: each list of words is evaluated. -/
theorem sampleWords : Obligations.SampleWords := by
  unfold Obligations.SampleWords
  decide

/-- Settles O4: the OPC has no row, and every other answer of the decoder comes from a row. -/
theorem illegalOpcode : Obligations.IllegalOpcode := by
  intro h ops hk
  exact (decode_decodesTo h ops).of_unlisted (baseLen_illegal hk)

/-- Settles O5: the row's length is that of `of_short`; in the text commands the characters behind COUNT are missing. -/
theorem truncatedCommand : Obligations.TruncatedCommand := by
  refine fun h ops n h0 hb => ⟨(decode_decodesTo h ops).of_short hb h0, fun hk hlen hlt => ?_, fun hk hlen hlt => ?_⟩
  · obtain rfl := header_eq hk h0
    match ops with
    | x :: y :: f :: fg :: bg :: n :: rest =>
      refine (decode_drawString ..).trans (if_pos ?_)
      simp only [List.length_cons, List.getD_cons_succ, List.getD_cons_zero] at hlt
      rw [charWords]
      omega
    | [] | [_] | [_, _] | [_, _, _] | [_, _, _, _] | [_, _, _, _, _] => simp at hlen
  · obtain rfl := header_eq hk h0
    match ops with
    | f :: n :: rest =>
      refine (decode_getTextBounds ..).trans (if_pos ?_)
      simp only [List.length_cons, List.getD_cons_succ, List.getD_cons_zero] at hlt
      rw [charWords]
      omega
    | [] | [_] => simp at hlen

/-- Settles O6: the header's byte is that of `of_reservedHeader`; every other field is checked by its own row. -/
theorem reservedFields : Obligations.ReservedFields := by
  refine ⟨fun h ops => (decode_decodesTo h ops).of_reservedHeader,
    fun w rest hw => (decode_setRotation w rest).trans (if_pos hw),
    fun w rest hw => ⟨(decode_invert w rest).trans (if_pos hw), (decode_tearing w rest).trans (if_pos hw)⟩,
    fun x y f fg bg n rest hl => ?_, fun f n rest hl => ?_, decode_init,
    fun w rest hw => (decode_setRotation w rest).trans (if_neg (not_not.mpr hw))⟩
  · have hlen : ¬ rest.length < charWords n.toNat := hl.not_gt
    rw [decode_drawString, decodeString, if_neg hlen]
    exact ⟨fun hf => if_pos hf, fun hf hn hp =>
      (if_neg (not_not.mpr hf)).trans (if_pos (by rwa [padByte, if_pos hn]))⟩
  · have hlen : ¬ rest.length < charWords n.toNat := hl.not_gt
    rw [decode_getTextBounds, decodeBounds, if_neg hlen]
    exact ⟨fun hf => if_pos hf, fun hf hn hp =>
      (if_neg (not_not.mpr hf)).trans (if_pos (by rwa [padByte, if_pos hn]))⟩

end Sys2Proof.Machine
end

section
/-! PROOFS. The circle's walk (43_primitives.md R172), read as one rule on the current point, and FILL_SCREEN as a
FILL_RECT (30_encoding.md R93). -/

namespace Sys2Proof.Machine

/-! ## The circle's walk as a rule on the current point -/

/-- How far p lies outside the circle of radius r about the origin, in squares. -/
def circleError (r : Int) (p : Int × Int) : Int := p.1 * p.1 + p.2 * p.2 - r * r

/-- R172's f at p: the error of the point half a pixel below p's right neighbour, rounded down. -/
def midpoint (r : Int) (p : Int × Int) : Int := circleError r (p.1 + 1, p.2) - p.2

/-- One round of R172: right, and down where the midpoint lies outside. -/
def circleNext (r : Int) (p : Int × Int) : Int × Int := (p.1 + 1, if 0 ≤ midpoint r p then p.2 - 1 else p.2)

/-- R172's loop at the point p, with f, ddF_x and ddF_y at the values they have there. -/
def walkFrom (r : Int) (fuel : Nat) (p : Int × Int) : List (Int × Int) :=
  circleWalk fuel (midpoint r p) (2 * p.1 + 1) (-2 * p.2) p.1 p.2

/-- R172 starts at the top of the circle. -/
theorem circleWalk_start (r : Int) (fuel : Nat) : circleWalk fuel (1 - r) 1 (-2 * r) 0 r = walkFrom r fuel (0, r) := by
  have hf : midpoint r (0, r) = 1 - r := by simp only [midpoint, circleError]; ring
  rw [walkFrom, hf]
  rfl

/-- R172's f, ddF_x and ddF_y keep up with the point. -/
theorem walkFrom_succ {r : Int} {p : Int × Int} (fuel : Nat) (h : p.1 < p.2) :
    walkFrom r (fuel + 1) p = circleNext r p :: walkFrom r fuel (circleNext r p) := by
  rw [walkFrom, circleWalk, if_pos h, walkFrom, circleNext]
  by_cases hm : 0 ≤ midpoint r p
  · have hf : midpoint r p + (-2 * p.2 + 2) + (2 * p.1 + 1 + 2) = midpoint r (p.1 + 1, p.2 - 1) := by
      simp only [midpoint, circleError]; ring
    simp only [if_pos hm, hf]
    congr 2 <;> ring
  · have hf : midpoint r p + (2 * p.1 + 1 + 2) = midpoint r (p.1 + 1, p.2) := by
      simp only [midpoint, circleError]; ring
    simp only [if_neg hm, hf]
    congr 2; ring

/-- The loop ends at the first point with x >= y. -/
theorem walkFrom_done {r : Int} {p : Int × Int} (fuel : Nat) (h : p.2 ≤ p.1) : walkFrom r fuel p = [] := by
  cases fuel with
  | zero => rfl
  | succ fuel => rw [walkFrom, circleWalk, if_neg h.not_gt]

theorem circleNext_fst (r : Int) (p : Int × Int) : (circleNext r p).1 = p.1 + 1 := rfl

theorem circleNext_snd_le (r : Int) (p : Int × Int) : (circleNext r p).2 ≤ p.2 := by
  rw [circleNext]
  split <;> omega

/-- A round takes the loop nearer to its end. -/
theorem circleNext_gap {r : Int} {p : Int × Int} {fuel : Nat} (h : p.2 - p.1 ≤ (fuel + 1 : Nat)) :
    (circleNext r p).2 - (circleNext r p).1 ≤ fuel := by
  have hy := circleNext_snd_le r p
  rw [circleNext_fst]
  omega

/-- As many rounds as y exceeds x are enough (30_encoding.md R91). -/
theorem walkFrom_fuel {r : Int} (k : Nat) {fuel : Nat} {p : Int × Int} (h : p.2 - p.1 ≤ fuel) :
    walkFrom r (fuel + k) p = walkFrom r fuel p := by
  induction fuel generalizing p with
  | zero => rw [walkFrom_done _ (by omega), walkFrom_done _ (by omega)]
  | succ fuel ih =>
    by_cases hp : p.1 < p.2
    · rw [Nat.add_right_comm, walkFrom_succ _ hp, walkFrom_succ _ hp, ih (circleNext_gap h)]
    · rw [walkFrom_done _ (not_lt.mp hp), walkFrom_done _ (not_lt.mp hp)]

/-- Every round goes one step right. -/
theorem walkFrom_fst {r : Int} {fuel k : Nat} {p q : Int × Int} (h : (walkFrom r fuel p)[k]? = some q) :
    q.1 = p.1 + k + 1 := by
  induction fuel generalizing p k with
  | zero => cases h
  | succ fuel ih =>
    by_cases hp : p.1 < p.2
    · rw [walkFrom_succ _ hp] at h
      cases k with
      | zero => cases h; rw [circleNext_fst]; simp
      | succ k => rw [ih h, circleNext_fst]; push_cast; ring
    · rw [walkFrom_done _ (not_lt.mp hp)] at h
      cases h

/-- With enough rounds the last point is the one that ends the loop. -/
theorem walkFrom_getLast {r : Int} {fuel : Nat} {p : Int × Int} (hp : p.1 < p.2) (h : p.2 - p.1 ≤ fuel) :
    ∃ q, (walkFrom r fuel p).getLast? = some q ∧ q.2 ≤ q.1 := by
  induction fuel generalizing p with
  | zero => omega
  | succ fuel ih =>
    rw [walkFrom_succ _ hp]
    by_cases hn : (circleNext r p).1 < (circleNext r p).2
    · obtain ⟨q, hq, hle⟩ := ih hn (circleNext_gap h)
      exact ⟨q, by rw [List.getLast?_cons, hq, Option.getD_some], hle⟩
    · rw [walkFrom_done _ (not_lt.mp hn)]
      exact ⟨_, rfl, not_lt.mp hn⟩

/-! ## Where its points lie -/

/-- A point of the first octant, or the first one past it, within the midpoint bound of the circle of radius r. -/
structure NearCircle (r : Int) (p : Int × Int) : Prop where
  octant : p.1 ≤ p.2 + 1
  snd_nonneg : 0 ≤ p.2
  snd_le : p.2 ≤ r
  inner : -p.2 ≤ circleError r p
  outer : circleError r p ≤ p.2
  outer_strict : p.1 ≤ p.2 → circleError r p < p.2

/-- A round keeps the bound: it goes down exactly where the midpoint lies outside. -/
theorem NearCircle.next {r : Int} {p : Int × Int} (hp : NearCircle r p) (h0 : 0 ≤ p.1) (hlt : p.1 < p.2) :
    NearCircle r (circleNext r p) := by
  obtain ⟨x, y⟩ := p
  obtain ⟨-, -, hle, hin, -, hout⟩ := hp
  have he := hout hlt.le
  have hright : circleError r (x + 1, y) = circleError r (x, y) + (2 * x + 1) := by
    simp only [circleError]; ring
  have hdown : circleError r (x + 1, y - 1) = circleError r (x + 1, y) - (2 * y - 1) := by
    simp only [circleError]; ring
  have hmid : midpoint r (x, y) = circleError r (x + 1, y) - y := rfl
  dsimp only at *
  rw [circleNext]
  split <;> constructor <;> dsimp only <;> omega

theorem walkFrom_near {r : Int} {fuel : Nat} {p q : Int × Int} (hp : NearCircle r p) (h0 : 0 ≤ p.1)
    (hq : q ∈ walkFrom r fuel p) : NearCircle r q := by
  induction fuel generalizing p with
  | zero => cases hq
  | succ fuel ih =>
    by_cases hlt : p.1 < p.2
    · rw [walkFrom_succ _ hlt] at hq
      have hn := hp.next h0 hlt
      obtain rfl | hq := List.mem_cons.mp hq
      · exact hn
      · exact ih hn (by rw [circleNext_fst]; omega) hq
    · rw [walkFrom_done _ (not_lt.mp hlt)] at hq
      cases hq

/-- The top of a circle of positive radius. -/
theorem nearCircle_top {r : Int} (h : 0 < r) : NearCircle r (0, r) := by
  have he : circleError r (0, r) = 0 := by simp only [circleError]; ring
  constructor <;> dsimp only <;> omega

/-- The walk is `walkFrom` the top. -/
theorem circleSteps_eq (r : Int) : circleSteps r = walkFrom r r.toNat (0, r) := circleWalk_start r r.toNat

theorem circleSteps_fst {r : Int} {k : Nat} {p : Int × Int} (h : (circleSteps r)[k]? = some p) : p.1 = k + 1 := by
  rw [circleSteps_eq] at h
  rw [walkFrom_fst h]
  ring

theorem circleSteps_pos {r : Int} {p : Int × Int} (h : p ∈ circleSteps r) : 0 < p.1 := by
  obtain ⟨k, hk⟩ := List.mem_iff_getElem?.mp h
  rw [circleSteps_fst hk]
  omega

theorem circleSteps_near {r : Int} {p : Int × Int} (h : p ∈ circleSteps r) : NearCircle r p := by
  rw [circleSteps_eq] at h
  by_cases hr : 0 < r
  · exact walkFrom_near (nearCircle_top hr) le_rfl h
  · rw [walkFrom_done _ (not_lt.mp hr)] at h
    cases h

/-! ## The points drawn from it -/

/-- Of a list of pieces of the same length m, piece k is the m elements from m k on. -/
theorem take_drop_flatMap {α β : Type} {f : α → List β} {m : Nat} (hf : ∀ a, (f a).length = m) {l : List α} {k : Nat}
    {a : α} (h : l[k]? = some a) : ((l.flatMap f).drop (m * k)).take m = f a := by
  induction l generalizing k with
  | nil => cases h
  | cons b l ih =>
    rw [List.flatMap_cons]
    cases k with
    | zero =>
      cases h
      exact List.take_left' (hf _)
    | succ k =>
      rw [Nat.mul_succ, Nat.add_comm, ← List.drop_drop, List.drop_left' (hf b)]
      exact ih h

theorem natAbs_sub_eq {a b c : Int} : (a - b).natAbs = c.natAbs ↔ a = b + c ∨ a = b - c := by omega

/-- The eight octant points of a step: its distances from the centre, either way round. -/
theorem mem_octants {x0 y0 : Int} {p q : Int × Int} :
    q ∈ octants x0 y0 p ↔
      (q.1 - x0).natAbs = p.1.natAbs ∧ (q.2 - y0).natAbs = p.2.natAbs
        ∨ (q.1 - x0).natAbs = p.2.natAbs ∧ (q.2 - y0).natAbs = p.1.natAbs := by
  obtain ⟨x, y⟩ := q
  simp only [octants, List.mem_cons, List.not_mem_nil, or_false, Prod.mk.injEq, natAbs_sub_eq]
  grind

section
variable {r : Int} (h : 0 ≤ r) (x0 y0 : Int)
include h

theorem circlePoints_eq : circlePoints x0 y0 r
    = [(x0, y0 + r), (x0, y0 - r), (x0 + r, y0), (x0 - r, y0)] ++ (circleSteps r).flatMap (octants x0 y0) := if_pos h

theorem mem_circlePoints {q : Int × Int} : q ∈ circlePoints x0 y0 r ↔
    q = (x0, y0 + r) ∨ q = (x0, y0 - r) ∨ q = (x0 + r, y0) ∨ q = (x0 - r, y0)
      ∨ ∃ p ∈ circleSteps r,
          (q.1 - x0).natAbs = p.1.natAbs ∧ (q.2 - y0).natAbs = p.2.natAbs
            ∨ (q.1 - x0).natAbs = p.2.natAbs ∧ (q.2 - y0).natAbs = p.1.natAbs := by
  simp only [circlePoints_eq h, List.cons_append, List.nil_append, List.mem_cons, List.mem_flatMap, mem_octants]

theorem length_circlePoints : (circlePoints x0 y0 r).length = 8 * (circleSteps r).length + 4 := by
  simp [circlePoints_eq h, List.length_flatMap, octants, Nat.mul_comm]

theorem circlePoints_step {k : Nat} {p : Int × Int} (hp : (circleSteps r)[k]? = some p) :
    ((circlePoints x0 y0 r).drop (8 * k + 4)).take 8 = octants x0 y0 p := by
  rw [circlePoints_eq h]
  exact take_drop_flatMap (f := octants x0 y0) (m := 8) (fun _ => rfl) hp

end

/-- Settles O51 (`circleWalk` is the model's function): the walk is a rule on the current point that keeps the midpoint
bound, and each of its steps has eight points drawn after the four axis points. -/
theorem circleWalk_shape : Obligations.CircleWalk := by
  refine ⟨fun r hr => ⟨fun k => ?_, fun k p => circleSteps_fst, fun hpos => ?_, fun p hp => ?_⟩,
    fun x0 y0 r => ⟨fun hr => if_neg hr.not_ge, fun hr q => mem_circlePoints hr x0 y0,
      fun hr => ⟨length_circlePoints hr x0 y0, ?_, fun k p hp => circlePoints_step hr x0 y0 hp⟩⟩⟩
  · rw [circleWalk_start, circleSteps_eq]
    exact walkFrom_fuel k (by simp [hr])
  · rw [circleSteps_eq]
    exact walkFrom_getLast hpos (by simp [hr])
  · obtain ⟨hoct, hnn, hle, hin, hout, hstrict⟩ := circleSteps_near hp
    exact ⟨circleSteps_pos hp, hoct, hnn, hle, hin, hout, hstrict⟩
  · rw [circlePoints_eq hr]
    rfl

/-! ## FILL_SCREEN as a FILL_RECT -/

/-- A register below 32768 is the same number as a COORD operand (30_encoding.md R82). -/
theorem coord_eq_nat16 {w : Word} (h : w.toNat ≤ 32767) : coord w = nat16 w :=
  BitVec.toInt_eq_toNat_of_lt (by omega)

/-- A drawing command's length shows in CP alone. -/
theorem drawn_add (ds : List Draw) (m n : Nat) (s : State) :
    drawn ds (m + n) s = { drawn ds m s with cp := (drawn ds m s).cp + BitVec.ofNat 32 n } := by
  simp only [drawn, advance, BitVec.ofNat_add, BitVec.add_assoc]

/-- Settles O47: both commands perform one `fillBox`. -/
theorem fillScreenIsFillRect : Obligations.FillScreenIsFillRect := by
  intro c s hs hp hw hh
  refine ⟨drawn (commandDraws (.fillScreen c) s) 2 s, ?_, ?_⟩
  · rw [exec_primitive rfl, gated_ready _ _ _ hs.engine_eq, perform_sync _ hp]
    rfl
  · have hd : commandDraws (.fillRect 0 0 s.cfgWidth s.cfgHeight c) s = commandDraws (.fillScreen c) s := by
      change fillBox s (coord 0) (coord 0) (coord s.cfgWidth) (coord s.cfgHeight) c = _
      rw [coord_eq_nat16 hw, coord_eq_nat16 hh]
      rfl
    rw [exec_primitive rfl, gated_ready _ _ _ hs.engine_eq, hd, perform_sync _ hp]
    exact congrArg _ (drawn_add _ 2 4 s)

end Sys2Proof.Machine
end

section
/-! PROOFS. The configuration commands (41_config.md), each as a whole next state: the buffer's release and request, the
registers, and, where the asynchronous mode does not exist, the controller commands on the wire. -/

namespace Sys2Proof.Machine

/-! ## The release and a refused request (42_transfer_window.md R139) -/

/-- The release of a present buffer. -/
theorem release_present {s : State} (h : s.bufPresent = true) :
    release s
      = { s with
        alloc := s.alloc ++ [.free], bufPresent := false, bufBytes := 0, bufData := [], bufTag := none } := by
  simp only [release, h, if_true]

/-- Without a buffer there is nothing to release. -/
theorem release_absent {s : State} (h : s.bufPresent = false) : release s = s := by
  simp only [release, h, Bool.false_eq_true, if_false]
  rw [← h]

/-- A release leaves no buffer, if an absent one holds nothing (10_state.md R29). -/
theorem release_emptied {s : State}
    (h : s.bufPresent = false → s.bufBytes = 0 ∧ s.bufData = [] ∧ s.bufTag = none) :
    release s
      = { s with
        alloc := if s.bufPresent then s.alloc ++ [.free] else s.alloc
        bufPresent := false, bufBytes := 0, bufData := [], bufTag := none } := by
  cases hp : s.bufPresent with
  | true => exact release_present hp
  | false =>
    obtain ⟨hbytes, hdata, htag⟩ := h hp
    rw [release_absent hp, if_neg Bool.false_ne_true, ← hp, ← hbytes, ← hdata, ← htag]

/-- A refused request is the release, the refusal in the allocator's trace, and one draw. -/
theorem allocate_refused {s : State} (hint : BitVec 32) (ha : allocAnswer s = false) :
    allocate hint s
      = { release s with
        alloc := (release s).alloc ++ [.alloc (allocSize s hint) false]
        allocScript := s.allocScript.tail, draws := s.draws + 1 } := by
  simp only [allocate, ha, Bool.false_eq_true, if_false, release]

/-! ## DEINIT, GET_GEOMETRY and a refused INIT (41_config.md R103, R106, R108) -/

/-- Settles O31: DEINIT is the release, then UNINIT. -/
theorem deinit : Obligations.Deinit := by
  intro s he
  have hexec : exec .deinit s = .next (advance 1 { release s with engine := .uninit }) := by
    rw [exec, execDeinit, gated_always _ _ he]
  constructor
  · intro hp
    rw [hexec, release_present hp]
    rfl
  · intro hp
    rw [hexec, release_absent hp]
    rfl

/-- Settles O33: the gate of R232 opens in every state but HALTED. -/
theorem getGeometry : Obligations.GetGeometry := by
  intro s he
  rw [exec, execGetGeometry, gated_always _ _ he]
  rfl

/-- Settles O30: a refused INIT is the new geometry, a refused request that leaves no buffer, and its error code. -/
theorem initRefused : Obligations.InitRefused := by
  intro panel rot hint s hp he hbuf ha
  have hrefused := allocate_refused (s := applyGeometry ⟨panel.toNat, hp⟩ (normRot rot) s) hint ha
  rw [release_emptied (s := applyGeometry ⟨panel.toNat, hp⟩ (normRot rot) s) hbuf] at hrefused
  rw [exec, execInit, gated_always _ _ he, initBody, dif_pos hp, initPanel, if_neg (by simp [ha]), hrefused]
  rfl

/-! ## The rotation byte (41_config.md R101) -/

theorem normRot_toNat {v : Byte} (h : v.toNat < 4) : (normRot v).toNat = v.toNat := by
  rw [normRot, if_pos h, BitVec.toNat_ofNat]
  exact Nat.mod_eq_of_lt h

theorem normRot_above {v : Byte} (h : 4 ≤ v.toNat) : normRot v = 0 := if_neg (Nat.not_lt.mpr h)

/-- Settles O27: INIT and SET_ROTATION read the rotation byte through NormRot alone. -/
theorem rotationNormalised : Obligations.RotationNormalised := by
  refine ⟨fun v => ⟨normRot_toNat, normRot_above⟩, fun v panel hint s hv => ?_⟩
  have hrot : normRot v = normRot 0 := normRot_above hv
  have hinit : initBody panel v hint = initBody panel 0 hint := by
    funext t
    rw [initBody, hrot, initBody]
  constructor
  · rw [exec, execInit, hinit]
    rfl
  · simp only [exec, execSetRotation, hrot]

/-! ## One controller command without the asynchronous mode (42_transfer_window.md R132, R134, R135) -/

/-- A controller command closes one frame. -/
theorem framesFrom_writeCmd_only (p : Params) (c : Byte) (args : List Byte) (dc : Line) (o : Option Frame) :
    framesFrom dc o (writeCmd p.raw c args) = [(.cmd, c) :: args.map (fun b => (.data, b))] := by
  obtain ⟨l, h⟩ := framesFrom_writeCmd p c args dc o []
  simpa [framesFrom] using h

/-- The frame view gains a controller command's frame with it. -/
theorem frameView_writeCmd {s t : State} (p : Params) (c : Byte) (args : List Byte)
    (h : t.wire = s.wire ++ writeCmd p.raw c args) :
    frameView t = frameView s ++ [(.cmd, c) :: args.map (fun b => (.data, b))] := by
  rw [frameView_append h, newFrames_writeCmd]

/-- TEARING sends one controller command, with P_TEON_PARAM's byte if it turns the signal on and there is one. -/
theorem tearingEvents_eq (p : RawParams) (on : Bool) :
    tearingEvents p on = writeCmd p (if on then 0x35 else 0x34) (if on then p.teonParam.toList else []) := by
  cases on <;> rfl

section
variable {s : State} (hr : s.running = none) (hsel : s.sel = false) (hsync : syncOnly s)
include hr hsel hsync

/-- A controller command runs to its end at once, and besides that appends to the wire and sets DC. -/
theorem launch_writeCmd_sync (c : Byte) (args : List Byte) (e : Ending) :
    launch (writeCmd s.par.raw c args) e s
      = finish e
        { s with wire := s.wire ++ writeCmd s.par.raw c args, dc := if args = [] then .cmd else .data } := by
  rw [launch_sync (allSync_writeCmd hsync c args), emitAll_writeCmd, ← hr, ← hsel]

variable (he : s.engine = .ready)
include he

/-- INVERT's next state. -/
theorem exec_invert_sync (on : Bool) :
    exec (.invert on) s = .next
      { s with
        cp := s.cp + 2, latch := [], dc := .cmd
        wire := s.wire ++ writeCmd s.par.raw (if on then 0x21 else 0x20) [] } := by
  have hend := launch_writeCmd_sync hr hsel hsync (if on then cmdINVON else cmdINVOFF) [] (.complete 2)
  rw [exec, execInvert, gated_ready _ _ _ he, hend]
  rfl

/-- TEARING's next state. -/
theorem exec_tearing_sync (on : Bool) :
    exec (.tearing on) s = .next
      { s with
        cp := s.cp + 2, latch := []
        dc := if on = true ∧ s.par.raw.teonParam ≠ none then .data else .cmd
        wire := s.wire
          ++ writeCmd s.par.raw (if on then 0x35 else 0x34) (if on then s.par.raw.teonParam.toList else []) } := by
  rw [exec, execTearing, gated_ready _ _ _ he, tearingEvents_eq, launch_writeCmd_sync hr hsel hsync]
  cases on with
  | false => rfl
  | true => cases s.par.raw.teonParam <;> simp [finish, advance]

/-- SET_ROTATION's next state. -/
theorem exec_setRotation_sync (rot : Byte) : exec (.setRotation rot) s = .next (rotationEnd rot s) := by
  have hend := launch_writeCmd_sync (s := applyGeometry s.cfgPanel (normRot rot) s) hr hsel hsync cmdMADCTL
    [perRot s.par.raw.madctl (normRot rot)] (.rotated 2)
  rw [exec, execSetRotation, gated_ready _ _ _ he]
  exact congrArg _ hend

end

/-- Settles O32: the geometry, then one MADCTL frame with its parameter byte. -/
theorem setRotation : Obligations.SetRotation := by
  intro rot s he hr hsel hsync
  exact ⟨exec_setRotation_sync hr hsel hsync he rot, framesFrom_writeCmd_only s.par _ _ _ _,
    frameView_writeCmd s.par _ [_] rfl⟩

/-- Settles O34: each command is one controller command, so it adds that command's frame. -/
theorem invertAndTearing : Obligations.InvertAndTearing := by
  intro on s he hr hsel hsync
  refine ⟨⟨_, _, exec_invert_sync hr hsel hsync he on, rfl, framesFrom_writeCmd_only s.par _ _ _ _,
    frameView_writeCmd s.par _ [] rfl⟩, ?_⟩
  have hexec := exec_tearing_sync hr hsel hsync he on
  cases on with
  | false =>
    exact ⟨_, _, _, hexec, rfl, rfl, framesFrom_writeCmd_only s.par 0x34 [] _ _, frameView_writeCmd s.par 0x34 [] rfl⟩
  | true =>
    exact ⟨_, _, _, hexec, rfl, rfl, framesFrom_writeCmd_only s.par 0x35 s.par.raw.teonParam.toList _ _,
      frameView_writeCmd s.par 0x35 s.par.raw.teonParam.toList rfl⟩

/-! ## A granted INIT (41_config.md R103, R104) -/

/-- Settles O29: neither P_INIT_SEQ nor the MADCTL write waits, so INIT runs to `initEnd` at once; the frames its
events close are the ones its pixel writes are read off (42_transfer_window.md R146). -/
theorem initGranted : Obligations.InitGranted := by
  intro panel rot hint s hp he hr hsel hsync ha
  have hes : allSync (configEvents (.init panel rot hint) s) :=
    allSync_append (allSync_initSeq hsync) (allSync_writeCmd hsync _ _)
  refine ⟨?_, newFrames s (configEvents (.init panel rot hint) s), frameView_append rfl, rfl⟩
  rw [exec_init_granted hp he ha, launch_sync hes, finish_init _ hr hsel ha]

end Sys2Proof.Machine
end

section
/-! PROOFS. A Write's pieces (42_transfer_window.md R133, R135), and what each primitive and DRAW_STRING leave where the
asynchronous mode does not exist (43_primitives.md R161 to R175, 44_text.md R209): every one of them runs to `drawn` of
its transactions at once, so that its own part is which pixels and frames those are. -/

namespace Sys2Proof.Machine

/-! ## A Write's pieces (42_transfer_window.md R133, R135) -/

/-- Piece i is the bytes from i x k on, at most k of them; there are as many as n bytes fill, the last one perhaps in
part. -/
theorem pieces_eq_map {k : Nat} (hk : 1 ≤ k) {fuel : Nat} {bs : List Byte} (h : bs.length ≤ fuel) :
    pieces k fuel bs = (List.range ((bs.length + k - 1) / k)).map (fun i => (bs.drop (i * k)).take k) := by
  induction fuel generalizing bs with
  | zero =>
    rw [List.length_eq_zero_iff.mp (Nat.le_zero.mp h), List.length_nil, Nat.div_eq_of_lt (by omega)]
    rfl
  | succ fuel ih =>
    rw [pieces]
    split
    · rename_i hnil
      rw [hnil, List.length_nil, Nat.div_eq_of_lt (by omega)]
      rfl
    · rename_i hne
      have hpos := List.length_pos_iff.mpr hne
      have hcount : (bs.length + k - 1) / k = ((bs.drop k).length + k - 1) / k + 1 := by
        rw [List.length_drop, ← Nat.add_div_right _ hk]
        rcases Nat.le_total k bs.length with hle | hle
        · congr 1
          omega
        · rw [show bs.length - k + k - 1 + k = k - 1 + k by omega, Nat.add_div_right _ hk,
            show bs.length + k - 1 = bs.length - 1 + k by omega, Nat.add_div_right _ hk, Nat.div_eq_of_lt (by omega),
            Nat.div_eq_of_lt (by omega)]
      rw [hcount, List.range_succ_eq_map, List.map_cons, List.map_map, ih (by rw [List.length_drop]; omega),
        Nat.zero_mul, List.drop_zero]
      congr 1
      refine List.map_congr_left fun i _ => ?_
      rw [Function.comp_apply, List.drop_drop, Nat.succ_mul, Nat.add_comm]

/-- A Write's transfers are its pieces. -/
theorem mem_write {p : Params} {bs q : List Byte} {m : XferMode} (h : WireEvent.xfer m q ∈ write p.raw bs) :
    q ∈ pieces p.raw.maxXfer bs.length bs := by
  obtain ⟨r, hr, he⟩ := List.mem_map.mp h
  cases he
  exact hr

/-- Settles O35: the pieces by their index, in the mode chosen from the length of the whole. -/
theorem writePieces : Obligations.WritePieces := by
  intro p bs
  have hk := params_maxXfer p
  refine ⟨?_, xferBytes_write p bs, fun m q hq => pieces_mem hk (mem_write hq)⟩
  rw [write, pieces_eq_map hk (Nat.le_refl _), List.map_map]
  rfl

/-! ## A primitive without the asynchronous mode (43_primitives.md R160) -/

section
variable {i : Instr} {s : State} {c : Color} (hi : isPrimitive i = true) (hs : drawReady s)

include hi hs in
/-- A primitive runs to its end at once. -/
theorem exec_primitive_sync (hp : syncOnly s) : exec i s = .next (drawn (commandDraws i s) (cmdLen i) s) := by
  rw [exec_primitive hi, gated_ready _ _ _ hs.engine_eq, perform_sync _ hp]

include hs in
/-- A primitive that plots points paints the visible ones, by one window a point and through no buffer (R161). -/
theorem drawn_points {pts : List (Int × Int)} (hd : commandDraws i s = plotAll s c pts) :
    Drawing s (drawn (commandDraws i s) (cmdLen i) s) (cmdLen i) (clipped s c pts)
      ∧ buffersKept s (drawn (commandDraws i s) (cmdLen i) s)
      ∧ frameView (drawn (commandDraws i s) (cmdLen i) s) = frameView s ++ pointFrames s c pts := by
  rw [hd, frameView_drawn _ _ hs.bufUsable, plotAll_frames, ← plotAll_pixels]
  exact ⟨drawing_drawn _ hs drawOk_plotAll, buffersKept_drawn isPixel_plotAll, rfl⟩

include hi hs in
/-- A primitive made of bulk fills paints the pixels of its fills by their frames, and leaves the colour in the transfer
buffer if it painted anything (R162 to R164, 42_transfer_window.md R142). -/
theorem drawn_fills {ps : List Paint} {fs : List Frame} (hfill : ∀ d ∈ commandDraws i s, isFill c d)
    (hps : (commandDraws i s).flatMap drawPixels = ps) (hfs : (commandDraws i s).map (drawFrame s) = fs) :
    Drawing s (drawn (commandDraws i s) (cmdLen i) s) (cmdLen i) ps
      ∧ buffersFilled s (drawn (commandDraws i s) (cmdLen i) s) c ps
      ∧ frameView (drawn (commandDraws i s) (cmdLen i) s) = frameView s ++ fs := by
  have hok := drawOk_commandDraws hi s
  rw [← hps, ← hfs]
  exact ⟨drawing_drawn _ hs hok, buffersFilled_drawn hs.bufUsable hfill hok, frameView_drawn _ _ hs.bufUsable⟩

end

/-! ## Points (43_primitives.md R166, R167, R172, R174, R175) -/

/-- A pixel outside the screen, by its coordinates (00_scope.md R13). -/
theorem visible_eq_false {s : State} {x y : Int}
    (h : x < 0 ∨ y < 0 ∨ (s.cfgWidth.toNat : Int) ≤ x ∨ (s.cfgHeight.toNat : Int) ≤ y) : visible s x y = false := by
  rw [Bool.eq_false_iff, ne_eq, visible_iff, nat16, nat16]
  omega

/-- Settles O41: the command plots its one point; where the point is not visible there is no transaction at all. -/
theorem drawPixel : Obligations.DrawPixel := by
  intro x y c s hs hp
  constructor
  · exact ⟨_, exec_primitive_sync rfl hs hp, drawn_points hs (List.flatMap_singleton _ _).symm⟩
  · intro hout
    have hd : commandDraws (.drawPixel x y c) s = [] := by
      rw [commandDraws, plotPixel, coord, coord, visible_eq_false hout]
      rfl
    have ⟨_, hr, _⟩ := hs
    rw [exec_primitive_sync rfl hs hp, hd, drawn_nil _ _ hr]
    rfl

/-- Settles O42: each command plots the points of its walk. -/
theorem pointCommands : Obligations.PointCommands := by
  intro x1 y1 x2 y2 x3 y3 r c s hs hp
  refine ⟨?line, ?circle, ?triangle, ?fan⟩
  case line => exact ⟨_, _, exec_primitive_sync rfl hs hp, rfl, drawn_points hs rfl⟩
  case circle => exact ⟨_, _, exec_primitive_sync rfl hs hp, rfl, drawn_points hs rfl⟩
  case triangle => exact ⟨_, _, exec_primitive_sync rfl hs hp, rfl, drawn_points hs rfl⟩
  case fan => exact ⟨_, _, exec_primitive_sync rfl hs hp, rfl, drawn_points hs rfl⟩

/-! ## Spans (43_primitives.md R168, R169, R170, R173) -/

/-- Clipping goes point by point (R160 (c)). -/
theorem clipped_append (s : State) (c : Color) (ps qs : List (Int × Int)) :
    clipped s c (ps ++ qs) = clipped s c ps ++ clipped s c qs := by
  rw [clipped, List.filter_append, List.map_append, ← clipped, ← clipped]

/-- The outline paints the visible points of its top, bottom, left and right (R170). -/
theorem rectDraws_pixels (s : State) (x y w h : Int) (c : Color) :
    (rectDraws s x y w h c).flatMap drawPixels
      = if 0 < w ∧ 0 < h then
          clipped s c
            (rectPoints x y w 1 ++ rectPoints x (y + h - 1) w 1 ++ rectPoints x y 1 h ++ rectPoints (x + w - 1) y 1 h)
        else [] := by
  rw [rectDraws]
  split
  · simp only [List.flatMap_append, hSpan_pixels, vSpan_pixels, clipped_append]
  · rfl

/-- The outline's frames, side by side. -/
theorem rectDraws_frames (s : State) (x y w h : Int) (c : Color) :
    (rectDraws s x y w h c).map (drawFrame s)
      = if 0 < w ∧ 0 < h then
          boxFrame s x y w 1 c ++ boxFrame s x (y + h - 1) w 1 c ++ boxFrame s x y 1 h c
            ++ boxFrame s (x + w - 1) y 1 h c
        else [] := by
  rw [rectDraws]
  split
  · simp only [List.map_append, hSpan_frames, vSpan_frames]
  · rfl

/-- A list of spans paints the visible points of each, in order (R162). -/
theorem spanAll_pixels (s : State) (c : Color) (ps : List Span) :
    (spanAll s c ps).flatMap drawPixels = ps.flatMap (fun p => clipped s c (rectPoints p.x p.y p.w 1)) := by
  simp only [spanAll, List.flatMap_assoc, hSpan_pixels]

/-- Settles O43: a row, a column, and the outline's four sides are bulk fills. -/
theorem spanCommands : Obligations.SpanCommands := by
  intro x y w h c s hs hp
  refine ⟨?row, ?column, ?outline⟩
  case row =>
    exact ⟨_, _, exec_primitive_sync rfl hs hp, rfl,
      drawn_fills rfl hs isFill_hSpan (hSpan_pixels ..) (hSpan_frames ..)⟩
  case column =>
    exact ⟨_, _, exec_primitive_sync rfl hs hp, rfl,
      drawn_fills rfl hs isFill_vSpan (vSpan_pixels ..) (vSpan_frames ..)⟩
  case outline =>
    exact ⟨_, _, _, exec_primitive_sync rfl hs hp, rfl, rfl,
      drawn_fills rfl hs isFill_rectDraws (rectDraws_pixels ..) (rectDraws_frames ..)⟩

/-- Settles O45: the disc's spans are bulk fills. -/
theorem fillCircle : Obligations.FillCircle := by
  intro x0 y0 r c s hs hp
  exact ⟨_, _, exec_primitive_sync rfl hs hp, rfl,
    drawn_fills rfl hs isFill_spanAll (spanAll_pixels ..) (spanAll_frames ..)⟩

/-! ## Boxes (43_primitives.md R165, R171) -/

/-- Of the whole screen nothing is clipped (00_scope.md R13). -/
theorem clipped_screen (s : State) (c : Color) :
    clipped s c (rectPoints 0 0 s.cfgWidth.toNat s.cfgHeight.toNat)
      = (rectPoints 0 0 s.cfgWidth.toNat s.cfgHeight.toNat).map (fun p => ⟨p.1, p.2, c⟩) := by
  rw [clipped, List.filter_eq_self.mpr]
  intro p hp
  have hwin := mem_windowPoints.mp hp
  rw [visible_iff, nat16, nat16]
  dsimp only at hwin
  omega

/-- Settles O44: either command is one bulk fill of a rectangle. -/
theorem boxCommands : Obligations.BoxCommands := by
  intro x y w h c s hs hp
  constructor
  · exact ⟨_, _, exec_primitive_sync rfl hs hp, rfl,
      drawn_fills rfl hs isFill_fillBox (fillBox_pixels ..) (fillBox_frames ..)⟩
  · exact ⟨_, _, exec_primitive_sync rfl hs hp, rfl,
      drawn_fills rfl hs isFill_fillBox ((fillBox_pixels ..).trans (clipped_screen s c)) (fillBox_frames ..)⟩

/-! ## FILL_RECT inside the screen (43_primitives.md R171, 42_transfer_window.md R137, R143) -/

/-- A rectangle inside the screen is not clipped. -/
theorem fillBox_inside {s : State} {x y w h : Int} (c : Color) (hx : 0 ≤ x) (hy : 0 ≤ y) (hw : 0 < w) (hh : 0 < h)
    (hxw : x + w ≤ nat16 s.cfgWidth) (hyh : y + h ≤ nat16 s.cfgHeight) :
    fillBox s x y w h c = [.fill ⟨x, y, x + w - 1, y + h - 1⟩ c] := by
  simp only [fillBox]
  rw [max_eq_left hx, max_eq_left hy, min_eq_left hxw, min_eq_left hyh, if_neg (by omega), if_neg (by omega)]

/-- A positive EXT operand is its word's value (30_encoding.md R82). -/
theorem toNat_of_toInt_pos {w : Word} (h : 0 < w.toInt) : w.toInt = w.toNat := by
  rw [BitVec.toInt_eq_toNat_cond] at *
  split <;> omega

/-- The pixels of a rectangle with positive extents. -/
theorem windowArea_rect (x y : Int) {w h : Word} (hw : 0 < w.toInt) (hh : 0 < h.toInt) :
    windowArea ⟨x, y, x + w.toInt - 1, y + h.toInt - 1⟩ = w.toNat * h.toNat := by
  rw [windowArea, toNat_of_toInt_pos hw, toNat_of_toInt_pos hh]
  dsimp only
  rw [show x + (w.toNat : Int) - 1 - x + 1 = w.toNat by omega, show y + (h.toNat : Int) - 1 - y + 1 = h.toNat by omega,
    ← Int.natCast_mul, Int.toNat_natCast]

/-- One fill's events are its transaction with R143's chunks for a body. -/
theorem drawEvents_fill {s : State} (w : Window) (c : Color) (h : bufUsable s) :
    drawEvents [.fill w c] s = txn s w (fillChunks s c (windowArea w)) := by
  rw [← eventsOf_drawActions, drawActions_order h]
  simp [drawOrder, txn, eventsOf]

/-- A list of transactions closes their frames and no other. -/
theorem framesFrom_drawEvents_eq {s : State} (ds : List Draw) (dc : Line) (o : Option Frame) (h : bufUsable s) :
    framesFrom dc o (drawEvents ds s) = ds.map (drawFrame s) := by
  simpa [framesFrom] using framesFrom_drawEvents ds s dc o [] h

/-- The first corner of an address range, shifted, as words (42_transfer_window.md R136). -/
theorem trunc16_first (a b : Word) : trunc16 (a.toInt + nat16 b) = a + b := by
  simp [trunc16, nat16, BitVec.ofInt_add]

/-- The last corner, so. -/
theorem trunc16_last (a n b : Word) : trunc16 (a.toInt + n.toInt - 1 + nat16 b) = a + n - 1 + b := by
  simp [trunc16, nat16, Int.sub_eq_add_neg, BitVec.sub_eq_add_neg, BitVec.ofInt_add, BitVec.ofInt_neg]

/-- The frame of a rectangle's fill, its corners as words. -/
theorem drawFrame_rect (s : State) (x y w h : Word) (c : Color) (hw : 0 < w.toInt) (hh : 0 < h.toInt) :
    drawFrame s (.fill ⟨x.toInt, y.toInt, x.toInt + w.toInt - 1, y.toInt + h.toInt - 1⟩ c)
      = windowFrame (x + s.cfgXshift) (x + w - 1 + s.cfgXshift) (y + s.cfgYshift) (y + h - 1 + s.cfgYshift)
          (List.replicate (w.toNat * h.toNat) (wire16 c)).flatten := by
  simp only [drawFrame, drawWindow, drawColors, trunc16_first, trunc16_last, windowArea_rect _ _ hw hh,
    List.flatMap_replicate]

/-- Settles O46: an unclipped rectangle is one fill of its own window, whose order and events are known. -/
theorem fillRectStreams : Obligations.FillRectStreams := by
  intro x y w h c s hs hx hy hw hh hxw hyh
  obtain ⟨-, -, horder⟩ := bufferFill
  have hb := hs.bufUsable
  have hd : commandDraws (.fillRect x y w h c) s
      = [.fill ⟨x.toInt, y.toInt, x.toInt + w.toInt - 1, y.toInt + h.toInt - 1⟩ c] :=
    fillBox_inside c hx hy hw hh hxw hyh
  have harea := windowArea_rect x.toInt y.toInt hw hh
  dsimp only
  constructor
  · rw [horder _ s rfl hs, hd, List.flatMap_singleton, drawOrder, harea]
    rfl
  · intro hp
    refine ⟨_, _, exec_primitive_sync rfl hs hp, drawn_wire _ _ s, ?_, ?_⟩
    · rw [hd, drawEvents_fill _ _ hb, harea]
    · rw [framesFrom_drawEvents_eq _ _ _ hb, hd, List.map_singleton, drawFrame_rect s x y w h c hw hh]

/-! ## DRAW_STRING (44_text.md R209) -/

/-- What a drawing command leaves of the registers and the allocator's trace (10_state.md R23, R26, R32). -/
theorem Drawing.frame {s t : State} {len : Nat} {ps : List Paint} (h : Drawing s t len ps) :
    t.sel = s.sel ∧ t.res0 = s.res0 ∧ t.res1 = s.res1 ∧ geometryOf t = geometryOf s ∧ t.alloc = s.alloc := by
  rw [h.same]
  exact ⟨rfl, rfl, rfl, rfl, rfl⟩

/-- Settles O58: the string performs its walk's transactions, and a fault comes after all of them. -/
theorem drawString : Obligations.DrawString := by
  refine ⟨fun x y font fg bg chars f s hs hp hf => ?sync, fun x y font fg bg chars f s hs hf => ?order⟩
  case sync =>
    have hok := drawOk_stringWalk (s := s) (f := f) (fg := fg) (bg := bg) x.toInt y.toInt chars
    have hnofill := noFill_stringWalk (s := s) (f := f) (fg := fg) (bg := bg) x.toInt y.toInt chars
    constructor
    · intro hw
      have hexec := exec_drawString hf hs.engine_eq hw
      rw [stringEnding, perform_sync _ hp] at hexec
      exact ⟨_, hexec, drawing_drawn _ hs hok, frameView_drawn _ _ hs.bufUsable, drawn_noFill _ hnofill⟩
    · intro arg hw
      have hexec := exec_drawString hf hs.engine_eq hw
      rw [stringEnding, perform_end _ hp, finish_faulted_drawn] at hexec
      have hdraw := drawing_drawn 0 hs hok
      obtain ⟨hsel, hres0, hres1, hgeometry, halloc⟩ := hdraw.frame
      obtain ⟨hdata, htag⟩ := drawn_noFill (s := s) 0 hnofill
      have hframes := framesFrom_drawEvents_eq (stringWalk s f fg bg x.toInt y.toInt chars).draws s.dc none hs.bufUsable
      have ⟨_, _, _, hsel0, _, _, hfits, _⟩ := hs
      refine ⟨_, _, _, hexec, rfl, rfl, rfl, rfl, ?cp, rfl, hdraw.paintLog, drawn_wire _ 0 s, drawn_dc _ 0 s, ?paints,
        hframes, ?view, hdraw.fb, hsel.trans hsel0, hres0, hres1, hgeometry, hdata, htag, halloc⟩
      case cp => exact hdraw.cp.trans (BitVec.add_zero _)
      case paints => rw [hframes, paints_drawFrames _ hfits hok, stringPaints]
      case view => exact (frameView_drawn _ 0 hs.bufUsable).trans (congrArg _ hframes.symm)
  case order =>
    have hexec {o} := exec_drawString (x := x) (y := y) (fg := fg) (bg := bg) (chars := chars) (o := o) hf hs.engine_eq
    simp only [perform, drawActions_order hs.bufUsable] at hexec
    exact ⟨hexec, fun arg => hexec⟩

end Sys2Proof.Machine
end

section
/-! PROOFS. That no primitive faults (43_primitives.md R177), and the spans of the disc (R173), read off the circle's
walk. -/

namespace Sys2Proof.Machine

/-! ## No operand value of a primitive raises a fault -/

@[simp] theorem runActions_errCode (q : List Action) (s : State) : (runActions q s).errCode = s.errCode := by
  simp [runActions]

/-- A stretch of a command that ends by moving CP leaves STATE and the error and fault registers. -/
theorem drain_complete_regs (q : List Action) (len : Nat) (s : State) :
    (drain ⟨q, .complete len⟩ s).engine = s.engine ∧ (drain ⟨q, .complete len⟩ s).errCode = s.errCode
      ∧ (drain ⟨q, .complete len⟩ s).faultCp = s.faultCp ∧ (drain ⟨q, .complete len⟩ s).faultArg = s.faultArg := by
  obtain ⟨-, -, hd⟩ | ⟨rest, -, hd⟩ := drain_cases ⟨q, .complete len⟩ s <;> simp [hd, finish]

/-- Settles O48: where READY accepts it, a primitive performs its transactions and ends by moving CP. -/
theorem noGeometryErrors : Obligations.NoGeometryErrors := by
  intro i s hi hs
  obtain ⟨hengine, herr, hcp, harg⟩ := drain_complete_regs (drawActions (commandDraws i s) s) (cmdLen i) s
  exact ⟨_, by rw [exec_primitive hi, gated_ready _ _ _ hs, perform], hengine.trans hs, herr, hcp, harg⟩

/-! ## The disc -/

/-- The span of row y about the column x0 that reaches u columns to either side. -/
def centredSpan (x0 y u : Int) : Span := ⟨x0 - u, y, 2 * u + 1⟩

theorem mem_discSpansOf {x0 y0 : Int} {p : Int × Int} {q : Span} : q ∈ discSpansOf x0 y0 p ↔
    q = centredSpan x0 (y0 + p.2) p.1 ∨ q = centredSpan x0 (y0 - p.2) p.1
      ∨ q = centredSpan x0 (y0 + p.1) p.2 ∨ q = centredSpan x0 (y0 - p.1) p.2 := by
  simp only [discSpansOf, centredSpan, List.mem_cons, List.not_mem_nil, or_false]

/-- The walk stays within the radius. -/
theorem circleSteps_fst_le {r : Int} {p : Int × Int} (h : p ∈ circleSteps r) : p.1 ≤ r := by
  obtain ⟨-, hnn, hle, -, hout, -⟩ := circleSteps_near h
  rw [circleError] at hout
  nlinarith

/-- Some step reaches the radius: the first one, at (1, r), or at (1, 0) if r = 1. -/
theorem circleSteps_reach {r : Int} (hr : 0 < r) : ∃ p ∈ circleSteps r, p.1 = r ∨ p.2 = r := by
  obtain ⟨fuel, hfuel⟩ : ∃ fuel, r.toNat = fuel + 1 := ⟨r.toNat - 1, by omega⟩
  refine ⟨circleNext r (0, r), ?_, ?_⟩
  · rw [circleSteps_eq, hfuel, walkFrom_succ _ hr]
    exact List.mem_cons_self
  · have hmid : midpoint r (0, r) = 1 - r := by simp only [midpoint, circleError]; ring
    simp only [circleNext, hmid]
    split <;> omega

section
variable {r : Int} (h : 0 ≤ r) (x0 y0 : Int)
include h

theorem discSpans_eq :
    discSpans x0 y0 r = centredSpan x0 y0 r :: (circleSteps r).flatMap (discSpansOf x0 y0) := if_pos h

theorem mem_discSpans {q : Span} : q ∈ discSpans x0 y0 r ↔
    q = centredSpan x0 y0 r ∨ ∃ p ∈ circleSteps r, q ∈ discSpansOf x0 y0 p := by
  rw [discSpans_eq h, List.mem_cons, List.mem_flatMap]

theorem length_discSpans : (discSpans x0 y0 r).length = 4 * (circleSteps r).length + 1 := by
  simp [discSpans_eq h, List.length_flatMap, discSpansOf, Nat.mul_comm]

theorem discSpans_step {k : Nat} {p : Int × Int} (hp : (circleSteps r)[k]? = some p) :
    ((discSpans x0 y0 r).drop (4 * k + 1)).take 4 = discSpansOf x0 y0 p := by
  rw [discSpans_eq h, List.drop_succ_cons]
  exact take_drop_flatMap (f := discSpansOf x0 y0) (m := 4) (fun _ => rfl) hp

/-- Every span is centred, in a row and of a half width within the radius. -/
theorem discSpans_centred {q : Span} (hq : q ∈ discSpans x0 y0 r) :
    ∃ y u, q = centredSpan x0 y u ∧ 0 ≤ u ∧ u ≤ r ∧ y0 - r ≤ y ∧ y ≤ y0 + r := by
  obtain rfl | ⟨p, hp, hq⟩ := (mem_discSpans h x0 y0).mp hq
  · exact ⟨y0, r, rfl, h, le_rfl, by omega, by omega⟩
  · have h1 := circleSteps_pos hp
    have h2 := circleSteps_fst_le hp
    obtain ⟨-, hnn, hle, -⟩ := circleSteps_near hp
    obtain rfl | rfl | rfl | rfl := mem_discSpansOf.mp hq <;> exact ⟨_, _, rfl, by omega⟩

/-- A step (u, v) has a span through each point u columns and v rows, or v columns and u rows, from the centre, and
through those between it and its mirror image. -/
theorem exists_discSpan {p q : Int × Int} (hp : p ∈ circleSteps r)
    (hq : (q.1 - x0).natAbs ≤ p.1.natAbs ∧ (q.2 - y0).natAbs = p.2.natAbs
      ∨ (q.1 - x0).natAbs ≤ p.2.natAbs ∧ (q.2 - y0).natAbs = p.1.natAbs) :
    ∃ d ∈ discSpans x0 y0 r, d.y = q.2 ∧ d.x ≤ q.1 ∧ q.1 < d.x + d.w := by
  have h1 := circleSteps_pos hp
  obtain ⟨-, h2, -⟩ := circleSteps_near hp
  have hmem {d : Span} (hd : d ∈ discSpansOf x0 y0 p) := (mem_discSpans h x0 y0).mpr (.inr ⟨p, hp, hd⟩)
  simp only [natAbs_sub_eq] at hq
  obtain ⟨hx, hy | hy⟩ | ⟨hx, hy | hy⟩ := hq
  · exact ⟨_, hmem (mem_discSpansOf.mpr (.inl rfl)), hy.symm, by simp only [centredSpan]; omega⟩
  · exact ⟨_, hmem (mem_discSpansOf.mpr (.inr (.inl rfl))), hy.symm, by simp only [centredSpan]; omega⟩
  · exact ⟨_, hmem (mem_discSpansOf.mpr (.inr (.inr (.inl rfl)))), hy.symm, by simp only [centredSpan]; omega⟩
  · exact ⟨_, hmem (mem_discSpansOf.mpr (.inr (.inr (.inr rfl)))), hy.symm, by simp only [centredSpan]; omega⟩

/-- The rows y0 + r and y0 - r have a span through the centre's column. -/
theorem exists_discSpan_pole {y : Int} (hy : (y - y0).natAbs = r.natAbs) :
    ∃ d ∈ discSpans x0 y0 r, d.y = y ∧ d.x ≤ x0 ∧ x0 < d.x + d.w := by
  obtain rfl | hr := h.eq_or_lt
  · exact ⟨_, (mem_discSpans h x0 y0).mpr (.inl rfl), by simp only [centredSpan]; omega⟩
  · obtain ⟨p, hp, rfl | rfl⟩ := circleSteps_reach hr
    · exact exists_discSpan h x0 y0 (q := (x0, y)) hp (.inr ⟨by simp, hy⟩)
    · exact exists_discSpan h x0 y0 (q := (x0, y)) hp (.inl ⟨by simp, hy⟩)

/-- The circle lies on the disc. -/
theorem circlePoints_on_discSpans {q : Int × Int} (hq : q ∈ circlePoints x0 y0 r) :
    ∃ d ∈ discSpans x0 y0 r, d.y = q.2 ∧ d.x ≤ q.1 ∧ q.1 < d.x + d.w := by
  have hcentre := (mem_discSpans h x0 y0).mpr (.inl rfl)
  obtain rfl | rfl | rfl | rfl | ⟨p, hp, hq⟩ := (mem_circlePoints h x0 y0).mp hq
  · exact exists_discSpan_pole h x0 y0 (by omega)
  · exact exists_discSpan_pole h x0 y0 (by omega)
  · exact ⟨_, hcentre, rfl, by simp only [centredSpan]; omega⟩
  · exact ⟨_, hcentre, rfl, by simp only [centredSpan]; omega⟩
  · exact exists_discSpan h x0 y0 hp (hq.imp (.imp_left le_of_eq) (.imp_left le_of_eq))

end

/-- A negative radius has no span. -/
theorem radius_nonneg_of_mem_discSpans {x0 y0 r : Int} {q : Span} (hq : q ∈ discSpans x0 y0 r) : 0 ≤ r := by
  by_contra hr
  rw [discSpans, if_neg hr] at hq
  cases hq

/-- Settles O52: the spans are the centre row's and four for each step, all centred; a point of the circle lies on the
centre row's span, on one of its own step or, at the poles, on one of the first step. -/
theorem discShape : Obligations.DiscShape := by
  intro x0 y0 r
  refine ⟨fun p hp => ?bounds, fun q hq => ?circle, fun hr => if_neg hr.not_ge, fun hr =>
    ⟨length_discSpans hr x0 y0, by rw [discSpans_eq hr]; rfl, fun k p hp => discSpans_step hr x0 y0 hp, fun q => ?mem⟩⟩
  case bounds =>
    obtain ⟨y, u, rfl, hu⟩ := discSpans_centred (radius_nonneg_of_mem_discSpans hp) x0 y0 hp
    simp only [centredSpan]
    omega
  case circle =>
    by_cases hr : 0 ≤ r
    · exact circlePoints_on_discSpans hr x0 y0 hq
    · rw [circlePoints, if_neg hr] at hq
      cases hq
  case mem =>
    simp only [mem_discSpans hr, mem_discSpansOf]
    rfl

end Sys2Proof.Machine
end

section
/-! PROOFS. The walks of a line and of the filled triangle's edge (43_primitives.md R167, R175, R176). Both are shown to
be one list, `roundedLine`, which differs between them in the rounding offset alone; what the statements say of a walk
is said once of that list. -/

namespace Sys2Proof.Machine

/-! ## The rounded line -/

/-- How far a line that goes m up over d along has gone up after k along: k m / d, rounded with the offset b. -/
def risen (d m b k : Nat) : Nat := (k * m + b) / d

/-- The remainder of that rounding: R175's num. -/
def risenRem (d m b k : Nat) : Nat := (k * m + b) % d

theorem risen_spec (d m b k : Nat) : risenRem d m b k + d * risen d m b k = k * m + b := Nat.mod_add_div _ _

section
variable {d m b k : Nat} (hd : 0 < d)
include hd

theorem risenRem_lt : risenRem d m b k < d := Nat.mod_lt _ hd

/-- Quotient and remainder are the only ones. -/
theorem risen_unique {q r : Nat} (h : r + d * q = k * m + b) (hr : r < d) : risen d m b k = q ∧ risenRem d m b k = r :=
  (Nat.div_mod_unique hd).mpr ⟨h, hr⟩

/-- The walks start level, with the offset as remainder. -/
theorem risen_zero (hb : b < d) : risen d m b 0 = 0 ∧ risenRem d m b 0 = b :=
  risen_unique hd (by omega) hb

/-- A step along goes one up where the remainder overflows. -/
theorem risen_succ_carry (hm : m ≤ d) (h : d ≤ risenRem d m b k + m) :
    risen d m b (k + 1) = risen d m b k + 1 ∧ risenRem d m b (k + 1) = risenRem d m b k + m - d := by
  have hlt := risenRem_lt (m := m) (b := b) (k := k) hd
  have hspec := risen_spec d m b k
  exact risen_unique hd (by rw [Nat.mul_succ, Nat.succ_mul]; omega) (by omega)

/-- Otherwise it stays level. -/
theorem risen_succ_level (h : risenRem d m b k + m < d) :
    risen d m b (k + 1) = risen d m b k ∧ risenRem d m b (k + 1) = risenRem d m b k + m := by
  have hspec := risen_spec d m b k
  exact risen_unique hd (by rw [Nat.succ_mul]; omega) h

end

/-- Point k of the rounded line from (x0, y0) towards (x1, y1), whose major axis is the first. -/
def roundedPoint (b : Nat) (x0 y0 x1 y1 : Int) (k : Nat) : Int × Int :=
  (x0 + (x1 - x0).sign * k, y0 + (y1 - y0).sign * risen (x1 - x0).natAbs (y1 - y0).natAbs b k)

/-- The rounded line from (x0, y0) to (x1, y1), whose major axis is the first. -/
def roundedLine (b : Nat) (x0 y0 x1 y1 : Int) : List (Int × Int) :=
  (List.range ((x1 - x0).natAbs + 1)).map (roundedPoint b x0 y0 x1 y1)

theorem length_roundedLine (b : Nat) (x0 y0 x1 y1 : Int) :
    (roundedLine b x0 y0 x1 y1).length = (x1 - x0).natAbs + 1 := by
  simp [roundedLine]

theorem roundedLine_getElem? {b : Nat} {x0 y0 x1 y1 : Int} {k : Nat} (hk : k ≤ (x1 - x0).natAbs) :
    (roundedLine b x0 y0 x1 y1)[k]? = some (roundedPoint b x0 y0 x1 y1 k) := by
  rw [roundedLine, List.getElem?_map, List.getElem?_range (by omega), Option.map_some]

/-- R167's loop at point k: err is what lacks to the next rise. -/
theorem lineWalk_eq {d m b : Nat} (hd : 0 < d) (hm : m ≤ d) (x y s : Int) (n k : Nat) :
    lineWalk d m s n (x + k) (y + s * risen d m b k) (d - 1 - risenRem d m b k)
      = (List.range' k n).map (fun i : Nat => (x + i, y + s * risen d m b i)) := by
  induction n generalizing k with
  | zero => rfl
  | succ n ih =>
    rw [lineWalk, List.range'_succ, List.map_cons, ← ih, add_assoc]
    congr 1
    by_cases h : d ≤ risenRem d m b k + m
    · obtain ⟨hq, hr⟩ := risen_succ_carry hd hm h
      rw [if_pos (by omega), hq, hr]
      congr 1
      · push_cast; ring
      · omega
    · obtain ⟨hq, hr⟩ := risen_succ_level hd (not_le.mp h)
      rw [if_neg (by omega), hq, hr]
      congr 1
      omega

/-- R175's loop at point k: num is the remainder. -/
theorem edgeWalk_eq {d m b : Nat} (hd : 0 < d) (hm : m ≤ d) (x y sx sy : Int) (n k : Nat) :
    edgeWalk ⟨0, sy, sx, 0, d, m⟩ n (x + sx * k) (y + sy * risen d m b k) (risenRem d m b k)
      = (List.range' k n).map (fun i : Nat => (x + sx * i, y + sy * risen d m b i)) := by
  induction n generalizing k with
  | zero => rfl
  | succ n ih =>
    rw [edgeWalk, List.range'_succ, List.map_cons, ← ih]
    congr 1
    by_cases h : d ≤ risenRem d m b k + m
    · obtain ⟨hq, hr⟩ := risen_succ_carry hd hm h
      rw [if_pos (by dsimp only; omega), hq, hr]
      congr 1
      · push_cast; ring
      · push_cast; ring
      · dsimp only; omega
    · obtain ⟨hq, hr⟩ := risen_succ_level hd (not_le.mp h)
      rw [if_neg (by dsimp only; omega), hq, hr]
      congr 1
      · push_cast; ring
      · push_cast; ring

section
variable {d m b : Nat} (hm : m ≤ d) (hb : b < d) (x y : Int) (n : Nat)
include hm hb

theorem lineWalk_start (s : Int) :
    lineWalk d m s n x y (d - 1 - b) = (List.range n).map (fun i : Nat => (x + i, y + s * risen d m b i)) := by
  have hd : 0 < d := by omega
  obtain ⟨hq, hr⟩ := risen_zero (m := m) hd hb
  simpa [hq, hr, List.range_eq_range'] using lineWalk_eq (b := b) hd hm x y s n 0

theorem edgeWalk_start (sx sy : Int) :
    edgeWalk ⟨0, sy, sx, 0, d, m⟩ n x y b
      = (List.range n).map (fun i : Nat => (x + sx * i, y + sy * risen d m b i)) := by
  have hd : 0 < d := by omega
  obtain ⟨hq, hr⟩ := risen_zero (m := m) hd hb
  simpa [hq, hr, List.range_eq_range'] using edgeWalk_eq (b := b) hd hm x y sx sy n 0

end

/-- A direction that is the sign of v where v is not 0 will do for it: where the rise is 0, nothing is added. -/
theorem direction_mul_risen {d b : Nat} {s v : Int} (hb : b < d) (hs : v ≠ 0 → s = v.sign) (k : Nat) :
    s * risen d v.natAbs b k = v.sign * risen d v.natAbs b k := by
  by_cases hv : v = 0
  · simp [hv, risen, Nat.div_eq_of_lt hb]
  · rw [hs hv]

/-- A line of one point. -/
theorem roundedLine_self (b : Nat) (x y : Int) : roundedLine b x y x y = [(x, y)] := by
  simp [roundedLine, roundedPoint]

/-- The direction from a to b, as the line's walk and the edge's walk test it, is the sign. -/
theorem direction_eq_sign {a b : Int} (h : b - a ≠ 0) :
    (if a < b then 1 else -1) = (b - a).sign ∧ (if b ≥ a then 1 else -1) = (b - a).sign := by
  obtain hlt | hgt := lt_or_gt_of_ne (a := a) (b := b) (by omega)
  · rw [if_pos hlt, if_pos hlt.le, Int.sign_eq_one_of_pos (by omega)]
    exact ⟨rfl, rfl⟩
  · rw [if_neg (by omega), if_neg (by omega), Int.sign_eq_neg_one_of_neg (by omega)]
    exact ⟨rfl, rfl⟩

/-! ## The walk of a line (43_primitives.md R167) -/

section
variable {x0 y0 x1 y1 : Int} (hm : (y1 - y0).natAbs ≤ (x1 - x0).natAbs)
include hm

theorem majorWalk_eq (hx : x0 ≤ x1) :
    majorWalk x0 y0 x1 y1 = roundedLine (((x1 - x0).natAbs - 1) / 2) x0 y0 x1 y1 := by
  obtain rfl | hlt := hx.eq_or_lt
  · obtain rfl : y1 = y0 := by omega
    simp [majorWalk, lineWalk, roundedLine_self]
  · have hb : ((x1 - x0).natAbs - 1) / 2 < (x1 - x0).natAbs := by omega
    calc majorWalk x0 y0 x1 y1
      _ = lineWalk (x1 - x0).natAbs (y1 - y0).natAbs (if y0 < y1 then 1 else -1) ((x1 - x0).natAbs + 1) x0 y0
            ((x1 - x0).natAbs - 1 - (((x1 - x0).natAbs - 1) / 2 : Nat)) := by
          rw [majorWalk]
          congr 1 <;> omega
      _ = roundedLine (((x1 - x0).natAbs - 1) / 2) x0 y0 x1 y1 := by
          rw [lineWalk_start hm hb, roundedLine]
          refine List.map_congr_left fun k _ => ?_
          rw [roundedPoint, direction_mul_risen hb (fun h => (direction_eq_sign h).1),
            Int.sign_eq_one_of_pos (sub_pos.mpr hlt), one_mul]

theorem orderedWalk_symm : orderedWalk x1 y1 x0 y0 = orderedWalk x0 y0 x1 y1 := by
  obtain hx | rfl | hx := lt_trichotomy x0 x1
  · rw [orderedWalk, if_pos hx, orderedWalk, if_neg hx.not_gt]
  · obtain rfl : y1 = y0 := by omega
    rfl
  · rw [orderedWalk, if_neg hx.not_gt, orderedWalk, if_pos hx]

/-- A line that is not steep keeps its axes. -/
theorem linePoints_gentle : linePoints x0 y0 x1 y1 = orderedWalk x0 y0 x1 y1 :=
  if_neg (by simpa [steep] using hm)

/-- A line that is not steep, from its left end. -/
theorem linePoints_rounded (hx : x0 ≤ x1) :
    linePoints x0 y0 x1 y1 = roundedLine (((x1 - x0).natAbs - 1) / 2) x0 y0 x1 y1 := by
  rw [linePoints_gentle hm, orderedWalk, if_neg hx.not_gt, majorWalk_eq hm hx]

end

/-- A steep line is the transposed one, with the axes swapped. -/
theorem linePoints_steep {x0 y0 x1 y1 : Int} (h : (x1 - x0).natAbs < (y1 - y0).natAbs) :
    linePoints x0 y0 x1 y1 = (linePoints y0 x0 y1 x1).map Prod.swap := by
  rw [linePoints_gentle h.le]
  exact if_pos (decide_eq_true h)

/-- The two directions of a line give one list (R176). -/
theorem linePoints_symm (x0 y0 x1 y1 : Int) : linePoints x1 y1 x0 y0 = linePoints x0 y0 x1 y1 := by
  obtain h | h := lt_or_ge (x1 - x0).natAbs (y1 - y0).natAbs
  · rw [linePoints_steep h, linePoints_steep (by omega), linePoints_gentle h.le, linePoints_gentle (by omega),
      orderedWalk_symm h.le]
  · rw [linePoints_gentle h, linePoints_gentle (by omega), orderedWalk_symm h]

/-- Settles O49: both commands plot one list of points. -/
theorem lineSymmetry : Obligations.LineSymmetry := by
  intro x0 y0 x1 y1 c s
  change execDrawLine x0 y0 x1 y1 c s = execDrawLine x1 y1 x0 y0 c s
  rw [execDrawLine, execDrawLine, linePoints_symm]

/-! ## The walk of the filled triangle's edge (43_primitives.md R175) -/

section
variable {x1 y1 x2 y2 : Int}

/-- An edge that is not steep takes R175's loop with x as the major axis. -/
theorem edgePoints_gentle (hm : (y2 - y1).natAbs ≤ (x2 - x1).natAbs) :
    edgePoints x1 y1 x2 y2
      = edgeWalk ⟨0, if y2 ≥ y1 then 1 else -1, if x2 ≥ x1 then 1 else -1, 0, (x2 - x1).natAbs, (y2 - y1).natAbs⟩
          ((x2 - x1).natAbs + 1) x1 y1 ((x2 - x1).natAbs / 2 : Nat) := by
  rw [edgePoints]
  exact if_pos (Int.ofNat_le.mpr hm)

/-- An edge that is not steep, from v1. -/
theorem edgePoints_rounded (hm : (y2 - y1).natAbs ≤ (x2 - x1).natAbs) :
    edgePoints x1 y1 x2 y2 = roundedLine ((x2 - x1).natAbs / 2) x1 y1 x2 y2 := by
  obtain hx | hx := eq_or_ne (x2 - x1) 0
  · obtain rfl : x2 = x1 := by omega
    obtain rfl : y2 = y1 := by omega
    simp [edgePoints, edgeWalk, roundedLine_self]
  · have hb : (x2 - x1).natAbs / 2 < (x2 - x1).natAbs := by omega
    rw [edgePoints_gentle hm, edgeWalk_start hm hb, roundedLine]
    refine List.map_congr_left fun k _ => ?_
    rw [roundedPoint, direction_mul_risen hb (fun h => (direction_eq_sign h).2), (direction_eq_sign hx).2]

/-- R175's loop with the axes swapped. -/
theorem edgeWalk_swap (a b c e den nadd : Int) (n : Nat) (x y num : Int) :
    edgeWalk ⟨b, a, e, c, den, nadd⟩ n y x num = (edgeWalk ⟨a, b, c, e, den, nadd⟩ n x y num).map Prod.swap := by
  induction n generalizing x y num with
  | zero => rfl
  | succ n ih =>
    simp only [edgeWalk, ih, List.map_cons, Prod.swap_prod_mk]
    split <;> rfl

/-- A steep edge is the transposed one, with the axes swapped. -/
theorem edgePoints_steep (h : (x2 - x1).natAbs < (y2 - y1).natAbs) :
    edgePoints x1 y1 x2 y2 = (edgePoints y1 x1 y2 x2).map Prod.swap := by
  rw [edgePoints_gentle h.le, ← edgeWalk_swap, edgePoints]
  exact if_neg (by omega)

end

/-! ## What the statements say of a walk -/

/-- Twice the area of the triangle of the line's ends and p: how far p lies off the line. -/
def offLine (x0 y0 x1 y1 : Int) (p : Int × Int) : Int := (x1 - x0) * (p.2 - y0) - (y1 - y0) * (p.1 - x0)

/-- The points of l go from (x0, y0) to (x1, y1), one for each step of the major axis, along the true line. -/
structure FollowsLine (x0 y0 x1 y1 : Int) (l : List (Int × Int)) : Prop where
  length : l.length = max (x1 - x0).natAbs (y1 - y0).natAbs + 1
  first : (x0, y0) ∈ l
  last : (x1, y1) ∈ l
  near : ∀ p ∈ l, 2 * (offLine x0 y0 x1 y1 p).natAbs ≤ max (x1 - x0).natAbs (y1 - y0).natAbs

section
variable {x0 y0 x1 y1 : Int} {l : List (Int × Int)}

theorem FollowsLine.reversed (h : FollowsLine x0 y0 x1 y1 l) : FollowsLine x1 y1 x0 y0 l := by
  obtain ⟨hlen, hfirst, hlast, hnear⟩ := h
  have hx : (x0 - x1).natAbs = (x1 - x0).natAbs := by omega
  have hy : (y0 - y1).natAbs = (y1 - y0).natAbs := by omega
  refine ⟨by rw [hx, hy, hlen], hlast, hfirst, fun p hp => ?_⟩
  have ho : offLine x1 y1 x0 y0 p = -offLine x0 y0 x1 y1 p := by simp only [offLine]; ring
  rw [ho, Int.natAbs_neg, hx, hy]
  exact hnear p hp

theorem FollowsLine.transposed (h : FollowsLine x0 y0 x1 y1 l) : FollowsLine y0 x0 y1 x1 (l.map Prod.swap) := by
  obtain ⟨hlen, hfirst, hlast, hnear⟩ := h
  refine ⟨by rw [List.length_map, hlen, max_comm], List.mem_map_of_mem hfirst, List.mem_map_of_mem hlast, ?_⟩
  intro q hq
  obtain ⟨p, hp, rfl⟩ := List.mem_map.mp hq
  have ho : offLine y0 x0 y1 x1 p.swap = -offLine x0 y0 x1 y1 p := by
    simp only [offLine, Prod.fst_swap, Prod.snd_swap]; ring
  rw [ho, Int.natAbs_neg, max_comm]
  exact hnear p hp

end

/-- A point of the rounded line is off by what its remainder differs from the offset. -/
theorem offLine_roundedPoint (b : Nat) (x0 y0 x1 y1 : Int) (k : Nat) :
    offLine x0 y0 x1 y1 (roundedPoint b x0 y0 x1 y1 k)
      = (x1 - x0).sign * (y1 - y0).sign * (b - risenRem (x1 - x0).natAbs (y1 - y0).natAbs b k) := by
  have hx := Int.sign_mul_natAbs (x1 - x0)
  have hy := Int.sign_mul_natAbs (y1 - y0)
  have hspec : (risenRem (x1 - x0).natAbs (y1 - y0).natAbs b k : Int)
      + (x1 - x0).natAbs * risen (x1 - x0).natAbs (y1 - y0).natAbs b k = k * (y1 - y0).natAbs + b := by
    exact_mod_cast risen_spec (x1 - x0).natAbs (y1 - y0).natAbs b k
  simp only [offLine, roundedPoint, add_sub_cancel_left]
  linear_combination -((y1 - y0).sign * risen (x1 - x0).natAbs (y1 - y0).natAbs b k) * hx
    + (x1 - x0).sign * k * hy + (x1 - x0).sign * (y1 - y0).sign * hspec

section
variable {b : Nat} {x0 y0 x1 y1 : Int} (hm : (y1 - y0).natAbs ≤ (x1 - x0).natAbs) (hb : 2 * b ≤ (x1 - x0).natAbs)
include hb

theorem roundedPoint_zero : roundedPoint b x0 y0 x1 y1 0 = (x0, y0) := by
  have hq : risen (x1 - x0).natAbs (y1 - y0).natAbs b 0 = 0 := by
    obtain hd | hd := (x1 - x0).natAbs.eq_zero_or_pos
    · rw [risen, hd, Nat.div_zero]
    · exact (risen_zero hd (by omega)).1
  simp [roundedPoint, hq]

include hm

theorem roundedPoint_last : roundedPoint b x0 y0 x1 y1 (x1 - x0).natAbs = (x1, y1) := by
  have hq : risen (x1 - x0).natAbs (y1 - y0).natAbs b (x1 - x0).natAbs = (y1 - y0).natAbs := by
    obtain hd | hd := (x1 - x0).natAbs.eq_zero_or_pos
    · rw [risen, hd, Nat.div_zero]
      omega
    · exact (risen_unique hd (Nat.add_comm _ _) (by omega)).1
  rw [roundedPoint, hq, Int.sign_mul_natAbs, Int.sign_mul_natAbs, add_sub_cancel, add_sub_cancel]

/-- The offset rounds to the nearest: no point is more than half a pixel off. -/
theorem roundedPoint_near (hb' : (x1 - x0).natAbs ≤ 2 * b + 2) (k : Nat) :
    2 * (offLine x0 y0 x1 y1 (roundedPoint b x0 y0 x1 y1 k)).natAbs ≤ (x1 - x0).natAbs := by
  obtain hd | hd := (x1 - x0).natAbs.eq_zero_or_pos
  · have hx : x1 - x0 = 0 := by omega
    have hy : y1 - y0 = 0 := by omega
    simp [offLine, hx, hy]
  · have hlt := risenRem_lt (m := (y1 - y0).natAbs) (b := b) (k := k) hd
    rw [offLine_roundedPoint, Int.natAbs_mul, Int.natAbs_mul, Int.natAbs_sign, Int.natAbs_sign]
    split <;> split <;> omega

/-- The rounded line goes from end to end. -/
theorem roundedLine_ends :
    (roundedLine b x0 y0 x1 y1).head? = some (x0, y0) ∧ (roundedLine b x0 y0 x1 y1).getLast? = some (x1, y1) := by
  rw [List.head?_eq_getElem?, List.getLast?_eq_getElem?, length_roundedLine, Nat.add_sub_cancel,
    roundedLine_getElem? (Nat.zero_le _), roundedLine_getElem? le_rfl, roundedPoint_zero hb, roundedPoint_last hm hb]
  exact ⟨rfl, rfl⟩

theorem followsLine_roundedLine (hb' : (x1 - x0).natAbs ≤ 2 * b + 2) :
    FollowsLine x0 y0 x1 y1 (roundedLine b x0 y0 x1 y1) where
  length := by rw [length_roundedLine, max_eq_left hm]
  first := List.mem_of_head? (roundedLine_ends hm hb).1
  last := List.mem_of_getLast? (roundedLine_ends hm hb).2
  near p hp := by
    obtain ⟨k, -, rfl⟩ := List.mem_map.mp hp
    rw [max_eq_left hm]
    exact roundedPoint_near hm hb hb' k

end

/-! ## Lines and edges follow the true line -/

theorem followsLine_gentle {x0 y0 x1 y1 : Int} (hm : (y1 - y0).natAbs ≤ (x1 - x0).natAbs) :
    FollowsLine x0 y0 x1 y1 (linePoints x0 y0 x1 y1) := by
  obtain hx | hx := le_total x0 x1
  · rw [linePoints_rounded hm hx]
    exact followsLine_roundedLine hm (by omega) (by omega)
  · rw [linePoints_symm x1 y1, linePoints_rounded (by omega) hx]
    exact (followsLine_roundedLine (by omega) (by omega) (by omega)).reversed

theorem followsLine_linePoints (x0 y0 x1 y1 : Int) : FollowsLine x0 y0 x1 y1 (linePoints x0 y0 x1 y1) := by
  obtain h | h := lt_or_ge (x1 - x0).natAbs (y1 - y0).natAbs
  · rw [linePoints_steep h]
    exact (followsLine_gentle h.le).transposed
  · exact followsLine_gentle h

/-- Point k of a line that is not steep, from its left end. -/
theorem linePoints_getElem? {x0 y0 x1 y1 : Int} (hm : (y1 - y0).natAbs ≤ (x1 - x0).natAbs) (hx : x0 ≤ x1) {k : Nat}
    (hk : k ≤ (x1 - x0).natAbs) :
    (linePoints x0 y0 x1 y1)[k]? = some (x0 + k,
      y0 + (y1 - y0).sign * risen (x1 - x0).natAbs (y1 - y0).natAbs (((x1 - x0).natAbs - 1) / 2) k) := by
  rw [linePoints_rounded hm hx, roundedLine_getElem? hk, roundedPoint]
  obtain rfl | hlt := hx.eq_or_lt
  · obtain rfl : k = 0 := by omega
    simp
  · rw [Int.sign_eq_one_of_pos (by omega), one_mul]

/-- Settles O50: up to its direction and its axes, every line is a rounded line from its left end. -/
theorem lineShape : Obligations.LineShape := by
  intro x0 y0 x1 y1
  obtain ⟨hlen, hfirst, hlast, hnear⟩ := followsLine_linePoints x0 y0 x1 y1
  refine ⟨hlen, hfirst, hlast, hnear, linePoints_symm x0 y0 x1 y1, fun hm hx k hk => linePoints_getElem? hm hx hk,
    fun h hy k hk => ?_⟩
  rw [linePoints_steep h, List.getElem?_map, linePoints_getElem? h.le hy hk]
  rfl

/-- The edge's walk goes from v1 to v2. -/
theorem edgePoints_ends (x1 y1 x2 y2 : Int) :
    (edgePoints x1 y1 x2 y2).head? = some (x1, y1) ∧ (edgePoints x1 y1 x2 y2).getLast? = some (x2, y2) := by
  obtain h | h := lt_or_ge (x2 - x1).natAbs (y2 - y1).natAbs
  · obtain ⟨hhead, hlast⟩ := roundedLine_ends (b := (y2 - y1).natAbs / 2) h.le (by omega)
    rw [edgePoints_steep h, edgePoints_rounded h.le, List.head?_map, List.getLast?_map, hhead, hlast]
    exact ⟨rfl, rfl⟩
  · rw [edgePoints_rounded h]
    exact roundedLine_ends h (by omega)

theorem followsLine_edgePoints (x1 y1 x2 y2 : Int) : FollowsLine x1 y1 x2 y2 (edgePoints x1 y1 x2 y2) := by
  obtain h | h := lt_or_ge (x2 - x1).natAbs (y2 - y1).natAbs
  · rw [edgePoints_steep h, edgePoints_rounded h.le]
    exact (followsLine_roundedLine h.le (by omega) (by omega)).transposed
  · rw [edgePoints_rounded h]
    exact followsLine_roundedLine h (by omega) (by omega)

/-- From each point of the edge the line to v3 is drawn. -/
theorem mem_fanPoints {x1 y1 x2 y2 x3 y3 : Int} {p q : Int × Int} (hp : p ∈ edgePoints x1 y1 x2 y2)
    (hq : q ∈ linePoints p.1 p.2 x3 y3) : q ∈ fanPoints x1 y1 x2 y2 x3 y3 :=
  List.mem_flatMap.mpr ⟨p, hp, hq⟩

/-- Settles O53: the edge's walk is a rounded line, and from each of its points a line to v3 is drawn, which holds the
point itself. -/
theorem triangleEdges : Obligations.TriangleEdges := by
  intro x1 y1 x2 y2 x3 y3
  obtain ⟨hlen, hfirst, hlast, hnear⟩ := followsLine_edgePoints x1 y1 x2 y2
  obtain ⟨hhead, hend⟩ := edgePoints_ends x1 y1 x2 y2
  refine ⟨hlen, hhead, hend, hnear, fun hm k hk => ?gentle, fun h k hk => ?steep,
    fun p hp => mem_fanPoints hp (followsLine_linePoints p.1 p.2 x3 y3).first,
    fun q => mem_fanPoints hfirst, fun q => mem_fanPoints hlast⟩
  case gentle =>
    rw [edgePoints_rounded hm, roundedLine_getElem? hk]
    rfl
  case steep =>
    rw [edgePoints_steep h, edgePoints_rounded h.le, List.getElem?_map, roundedLine_getElem? hk]
    rfl

end Sys2Proof.Machine
end

section
/-! PROOFS. Text (44_text.md): how many frames a glyph takes, what DRAW_CHAR and DRAW_STRING do where no glyph is drawn,
and one round of the string loop and of the measure. -/

namespace Sys2Proof.Machine

/-! ## The frames of a glyph (44_text.md R205, R206, R207) -/

/-- A glyph takes one transaction per buffered window and one per pixel of the other path. -/
theorem glyphDraws_length (s : State) (f : Font) (g : Glyph) (cx cy : Int) (fg bg : Color) :
    (glyphDraws s f g cx cy fg bg).length
      = (if (glyphPaints s f g cx cy fg bg).length = 0 then 0
        else if (glyphPaints s f g cx cy fg bg).length < 1600 then 1
        else (glyphPaints s f g cx cy fg bg).length) := by
  rcases glyphDraws_cases s f g cx cy fg bg with ⟨h, hd⟩ | ⟨h, hlt, hd⟩ | ⟨h, -, hd⟩
  · rw [hd, if_pos h, List.length_nil]
  · rw [hd, if_neg h, if_pos hlt, List.length_singleton]
  · rw [hd, if_neg (by omega), if_neg (by omega), List.length_map]

/-- Settles O55: each transaction closes one frame, and a glyph has as many transactions as its path says. -/
theorem glyphPaths : Obligations.GlyphPaths := by
  intro f g cx cy fg bg s hs
  rw [framesFrom_drawEvents_eq _ _ _ hs.bufUsable, List.length_map, glyphDraws_length]

/-! ## A glyph past the bitmap (44_text.md R202) -/

/-- A non-empty glyph whose last bit lies past the bitmap is out of range (R202). -/
theorem glyphInRange_eq_false {f : Font} {g : Glyph} (hw : 0 < g.width.toNat) (hh : 0 < g.height.toNat)
    (hb : f.bitmap.length ≤ (g.bitmapOffset.toNat * 8 + g.width.toNat * g.height.toNat - 1) / 8) :
    glyphInRange f g = false := by
  rw [glyphInRange, decide_eq_true (Nat.mul_pos hw hh), decide_eq_true hb]
  rfl

/-- DRAW_CHAR of a glyph out of range raises FONT_FAULT with the character (R202, R208). -/
theorem exec_drawChar_outOfRange {x y : Word} {ch font : Byte} {fg bg : Color} {f : Font} {g : Glyph} {s : State}
    (he : s.engine = .ready) (hf : fontAt s.par.raw.fonts font = some f) (hg : charLookup f ch = some g)
    (hr : glyphInRange f g = false) :
    exec (.drawChar x y ch font fg bg) s = .next (raise .fontFault (ch.setWidth 16) s) := by
  rw [exec, execDrawChar, gated_ready _ _ _ he, drawCharBody]
  simp only [hf, hg, hr, Bool.false_eq_true, if_false]

/-- Settles O56: the range check looks at the glyph and the bitmap alone, and comes before any clipping. -/
theorem glyphFault : Obligations.GlyphFault := by
  intro x y ch font fg bg f g s he hf hg hw hh hb
  exact exec_drawChar_outOfRange he hf hg (glyphInRange_eq_false hw hh hb)

/-! ## Characters outside the font (44_text.md R200, R213) -/

/-- A character outside the font's range has no glyph (R200). -/
theorem charLookup_outside {f : Font} {c : Byte} (h : c.toNat < f.first.toNat ∨ f.last.toNat < c.toNat) :
    charLookup f c = none := if_pos h

/-- A command with nothing to do ends at once. -/
theorem drain_nil (e : Ending) {s : State} (hr : s.running = none) : drain ⟨[], e⟩ s = finish e s := by
  have hs : ({ s with running := none } : State) = s := by rw [← hr]
  rw [drain_sync (r := ⟨[], e⟩) nofun]
  simp only [runActions, eventsOf_nil, bufferWrites_nil, emitAll_nil, hs]

/-- One round over a character without a glyph: it is skipped (R200, R209). -/
theorem stringWalk_skip {s : State} {f : Font} {fg bg : Color} {cx cy : Int} {c : Byte} (cs : List Byte)
    (h : charLookup f c = none) : stringWalk s f fg bg cx cy (c :: cs) = stringWalk s f fg bg cx cy cs := by
  rw [stringWalk, h]

/-- A string of such characters draws nothing and meets no fault (R213). -/
theorem stringWalk_outside {s : State} {f : Font} {fg bg : Color} {cx cy : Int} {chars : List Byte}
    (h : ∀ c ∈ chars, c.toNat < f.first.toNat ∨ f.last.toNat < c.toNat) :
    stringWalk s f fg bg cx cy chars = ⟨[], none⟩ := by
  induction chars with
  | nil => rw [stringWalk]
  | cons c cs ih =>
    rw [stringWalk_skip cs (charLookup_outside (h c List.mem_cons_self))]
    exact ih fun d hd => h d (List.mem_cons_of_mem c hd)

/-- Settles O57: there is no transaction, so the command ends at once. -/
theorem noGlyphNoEvent : Obligations.NoGlyphNoEvent := by
  intro x y ch font fg bg f chars s he hr hf
  constructor
  · intro hc
    rw [exec, execDrawChar, gated_ready _ _ _ he, drawCharBody]
    simp only [hf, charLookup_outside hc]
    exact congrArg _ (drain_nil (.complete 6) hr)
  · intro hc
    have hw := stringWalk_outside (s := s) (fg := fg) (bg := bg) (cx := x.toInt) (cy := y.toInt) hc
    rw [exec_drawString hf he (congrArg StringWalk.fault hw), hw]
    exact congrArg _ (drain_nil (.complete _) hr)

/-! ## One round of the string loop (44_text.md R209, R210, R211) -/

section
variable {s : State} {f : Font} {fg bg : Color} {cx cy : Int} {c : Byte} {cs : List Byte}

/-- One round over a character with a glyph, from the cursor (x, y) that the wrap test leaves. -/
theorem stringWalk_round {g : Glyph} {x y : Int} {wrapped : Bool} (hg : charLookup f c = some g)
    (hwrap : wrapped = decide ((s.cfgWidth.toNat : Int) < cx + g.xAdvance.toNat))
    (hx : x = if wrapped then 0 else cx) (hy : y = if wrapped then cy + f.yAdvance.toNat else cy) :
    stringWalk s f fg bg cx cy (c :: cs)
      = if (s.cfgHeight.toNat : Int) < y then ⟨[], none⟩
        else if wrapped = true ∧ c = 0x20 then stringWalk s f fg bg x y cs
        else if glyphInRange f g = true then
          ⟨glyphDraws s f g x y fg bg ++ (stringWalk s f fg bg (x + g.xAdvance.toNat) y cs).draws,
            (stringWalk s f fg bg (x + g.xAdvance.toNat) y cs).fault⟩
        else ⟨[], some (c.setWidth 16)⟩ := by
  subst hwrap hx hy
  rw [stringWalk, hg]
  rfl

/-- Where the walk stops there is no pixel, no frame and no action. -/
theorem string_stopped {o : Option Word} (h : stringWalk s f fg bg cx cy (c :: cs) = ⟨[], o⟩) :
    stringPaints s f fg bg cx cy (c :: cs) = [] ∧ stringFrames s f fg bg cx cy (c :: cs) = []
      ∧ stringActions s f fg bg cx cy (c :: cs) = [] ∧ (stringWalk s f fg bg cx cy (c :: cs)).fault = o := by
  rw [stringPaints, stringFrames, stringActions, h]
  exact ⟨rfl, rfl, rfl, rfl⟩

/-- Where the walk draws a glyph and goes on, the glyph's pixels, frames and actions come before the rest's. -/
theorem string_drawn {g : Glyph} {x y x' : Int}
    (h : stringWalk s f fg bg cx cy (c :: cs)
      = ⟨glyphDraws s f g x y fg bg ++ (stringWalk s f fg bg x' y cs).draws, (stringWalk s f fg bg x' y cs).fault⟩) :
    stringPaints s f fg bg cx cy (c :: cs) = glyphPaints s f g x y fg bg ++ stringPaints s f fg bg x' y cs
      ∧ stringFrames s f fg bg cx cy (c :: cs) = glyphFrames s f g x y fg bg ++ stringFrames s f fg bg x' y cs
      ∧ stringActions s f fg bg cx cy (c :: cs) = glyphActions s f g x y fg bg ++ stringActions s f fg bg x' y cs
      ∧ (stringWalk s f fg bg cx cy (c :: cs)).fault = (stringWalk s f fg bg x' y cs).fault := by
  refine ⟨?paints, ?frames, ?actions, by rw [h]⟩
  case paints => rw [stringPaints, h, List.flatMap_append, glyphDraws_pixels, stringPaints]
  case frames => rw [stringFrames, h, List.map_append, glyphDraws_frames, stringFrames]
  case actions => rw [stringActions, h, List.flatMap_append, glyphDraws_order, stringActions]

end

/-- Settles O59: the four outcomes are the branches of `stringWalk_round`. -/
theorem stringLoop : Obligations.StringLoop := by
  intro s f fg bg cx cy c cs
  refine ⟨stringWalk_skip cs, fun g x y wrapped hg hwrap hx hy => ?_⟩
  have hround := stringWalk_round (fg := fg) (bg := bg) (cs := cs) hg hwrap hx hy
  have hdrawn : wrapped = false ∨ c ≠ 0x20 → ¬(wrapped = true ∧ c = 0x20) := fun h ⟨ht, hspace⟩ =>
    h.elim (fun hw => Bool.false_ne_true (hw.symm.trans ht)) (· hspace)
  refine ⟨fun hbelow => ?below, fun hy hw hc => ?swallowed, fun hy hd hr => ?fault, fun hy hd hr => ?glyph⟩
  case below => exact string_stopped (hround.trans (if_pos hbelow))
  case swallowed => rw [hround, if_neg (not_lt.mpr hy), if_pos ⟨hw, hc⟩]
  case fault =>
    rw [if_neg (not_lt.mpr hy), if_neg (hdrawn hd), if_neg (Bool.eq_false_iff.mp hr)] at hround
    exact string_stopped hround
  case glyph =>
    rw [if_neg (not_lt.mpr hy), if_neg (hdrawn hd), if_pos hr] at hround
    exact string_drawn hround

/-! ## The measure (44_text.md R212) -/

section
variable {f : Font} {cx : Int} {a : Option Box} {c : Byte} {cs : List Byte} {g : Glyph}

/-- One round over a character without a glyph: no advance (R200, R212). -/
theorem boundsWalk_skip (h : charLookup f c = none) : boundsWalk f cx a (c :: cs) = boundsWalk f cx a cs := by
  rw [boundsWalk, h]

/-- One round over a non-empty glyph: its rectangle joins the union, and the cursor advances (R212). -/
theorem boundsWalk_grow (hg : charLookup f c = some g) (hw : 0 < g.width.toNat) (hh : 0 < g.height.toNat) :
    boundsWalk f cx a (c :: cs) = boundsWalk f (cx + g.xAdvance.toNat) (some (growBox a (glyphBox g cx))) cs := by
  rw [boundsWalk, hg]
  simp only [if_pos (And.intro hw hh), nat8]

/-- One round over an empty glyph: only the cursor advances (R212). -/
theorem boundsWalk_empty (hg : charLookup f c = some g) (h : g.width = 0 ∨ g.height = 0) :
    boundsWalk f cx a (c :: cs) = boundsWalk f (cx + g.xAdvance.toNat) a cs := by
  have hempty : ¬(0 < g.width.toNat ∧ 0 < g.height.toNat) := by
    rintro ⟨hw, hh⟩
    rcases h with h | h
    · simp [h] at hw
    · simp [h] at hh
  rw [boundsWalk, hg]
  simp only [if_neg hempty, nat8]

end

/-- A string with no non-empty glyph measures nothing (R213 (a)). -/
theorem boundsWalk_all_empty {f : Font} {cx : Int} {a : Option Box} {chars : List Byte}
    (h : ∀ c ∈ chars, ∀ g, charLookup f c = some g → g.width = 0 ∨ g.height = 0) :
    boundsWalk f cx a chars = a := by
  induction chars generalizing cx with
  | nil => rw [boundsWalk]
  | cons c cs ih =>
    have hrest := fun cx => ih (cx := cx) fun d hd => h d (List.mem_cons_of_mem c hd)
    cases hg : charLookup f c with
    | none => rw [boundsWalk_skip hg, hrest]
    | some g => rw [boundsWalk_empty hg (h c List.mem_cons_self g hg), hrest]

/-- The measure of one non-empty glyph is its size (R213 (b)). -/
theorem boundsResult_glyphBox (g : Glyph) (cx : Int) :
    boundsResult (some (glyphBox g cx)) = (g.width.setWidth 16, g.height.setWidth 16) := by
  simp only [boundsResult, glyphBox, nat8, trunc16, add_sub_cancel_left, BitVec.ofInt_natCast, BitVec.ofNat_toNat]

/-- GET_TEXT_BOUNDS writes the measure to RES0 and RES1 and moves CP (R212). -/
theorem exec_getTextBounds {font : Byte} {chars : List Byte} {f : Font} {s : State} (he : s.engine ≠ .halted)
    (hf : fontAt s.par.raw.fonts font = some f) :
    exec (.getTextBounds font chars) s = .next
      { s with
        cp := s.cp + BitVec.ofNat 32 (3 + (chars.length + 1) / 2), latch := []
        res0 := (boundsResult (boundsWalk f 0 none chars)).1
        res1 := (boundsResult (boundsWalk f 0 none chars)).2 } := by
  rw [exec, execGetTextBounds, gated_always _ _ he, textBoundsBody, hf]
  rfl

/-- Settles O60: the measure's rounds give each clause, and the command only stores the result. -/
theorem textBounds : Obligations.TextBounds := by
  refine ⟨fun font chars f s he hf => ⟨_, _, exec_getTextBounds he hf, rfl⟩,
    fun f cx a c cs => ⟨boundsWalk_skip, fun g hg => ⟨boundsWalk_empty hg, fun hw hh => ?round⟩⟩,
    fun f cx b => ⟨rfl, rfl⟩, fun f chars h => ?empty, fun f c g hg hw hh => ?single,
    fun f c d g k hg hk hgw hgh hkw hkh => ?pair⟩
  case round =>
    have hgrow := boundsWalk_grow (cx := cx) (a := a) (cs := cs) hg hw hh
    exact ⟨fun ha => by rw [hgrow, ha]; rfl, fun b hb => by rw [hgrow, hb]; rfl⟩
  case empty => rw [boundsWalk_all_empty h, boundsResult]
  case single => rw [boundsWalk_grow hg hw hh, boundsWalk, growBox, boundsResult_glyphBox]
  case pair =>
    rw [boundsWalk_grow hg hgw hgh, boundsWalk_grow hk hkw hkh, boundsWalk]
    simp only [growBox, glyphBox, boundsResult, trunc16, offset8, nat8, zero_add]

end Sys2Proof.Machine
end

section
/-! PROOFS. Faults (60_exceptions.md): a fault at the words of a command, HALTED and its one way out, the commands that
READY alone accepts, and that a command but DRAW_STRING faults before it has done anything. -/

namespace Sys2Proof.Machine

/-! ## The step at malformed words, at the end of the stream and in HALTED (R233, R236, R237) -/

/-- Settles O8: with the bus free and no command suspended the step is a fetch, which takes the fault. -/
theorem stepTakesDecodeFault : Obligations.StepTakesDecodeFault := by
  intro s code arg hx hr he hs hc hd
  rw [step_fetches hr hx, fetchStep_malformed he hs hc hd, raise]

/-- Settles O9: the step is a fetch, and there is nothing to fetch. -/
theorem idleAndHaltedStay : Obligations.IdleAndHaltedStay := by
  intro s hx hr h
  rw [step_fetches hr hx, fetchStep_stays h]

/-- In HALTED no command is suspended and the bus is free (R233, 10_state.md R33). -/
theorem halted_quiet {s : State} (h : Inv s) (he : s.engine = .halted) : s.running = none ∧ s.xferBusy = false := by
  obtain ⟨-, -, ⟨-, -, -, hhalted⟩, ⟨hbus, -⟩, -⟩ := h
  obtain ⟨-, -, hr⟩ := hhalted he
  obtain ⟨-, hx, -⟩ := hbus hr
  exact ⟨hr, hx⟩

/-- In HALTED a command changes nothing (R232, R237). -/
theorem exec_halted (i : Instr) {s : State} (he : s.engine = .halted) : exec i s = .next s := by
  obtain ⟨t, ht, -⟩ := exec_gated_outcome i s
  rw [ht, gated_halted _ _ _ he]

/-- In HALTED the engine is not idle. -/
theorem idle_halted {s : State} (he : s.engine = .halted) : idle s = false := by simp [idle, he]

/-- Settles O10: a fetch and every command stay in HALTED, an append asks for an idle engine, and the reset's STATE is
UNINIT. -/
theorem onlyResetLeavesHalted : Obligations.OnlyResetLeavesHalted := by
  intro s h he
  obtain ⟨hr, hx⟩ := halted_quiet h he
  exact ⟨idleAndHaltedStay s hx hr (.inl he), fun i => exec_halted i he, fun ws => append_inUse ws (idle_halted he),
    engineReset s, rfl, rfl⟩

/-! ## NOT_READY (R231, R232) -/

/-- Every command but INIT, DEINIT, GET_GEOMETRY and GET_TEXT_BOUNDS stands in the table's second row (R232). -/
theorem gateOf_readyOnly {i : Instr} (h1 : ∀ p r h, i ≠ .init p r h) (h2 : i ≠ .deinit) (h3 : i ≠ .getGeometry)
    (h4 : ∀ f cs, i ≠ .getTextBounds f cs) : gateOf i = .readyOnly := by
  cases i with
  | init p r h => exact absurd rfl (h1 p r h)
  | deinit => exact absurd rfl h2
  | getGeometry => exact absurd rfl h3
  | getTextBounds f cs => exact absurd rfl (h4 f cs)
  | _ => rfl

/-- The OPC is the header word of the encoding (30_encoding.md R84). -/
theorem encode_headD (i : Instr) : (encode i).headD 0 = opcOf i := by cases i <;> rfl

/-- Settles O12: such a command's gate opens in READY only, and raises NOT_READY in the other two states. -/
theorem notReadyFaults : Obligations.NotReadyFaults := by
  intro i s hs h1 h2 h3 h4
  obtain ⟨t, ht, -⟩ := exec_gated_outcome i s
  rw [ht, gateOf_readyOnly h1 h2 h3 h4, gated_notReady _ _ hs, encode_headD, raise]

/-! ## Precise faults (R235) -/

/-- From s to t a fault with no other effect, or no fault. -/
def FaultsAtOnce (s t : State) : Prop := (∃ code arg, t = raise code arg s) ∨ t.engine ≠ .halted

theorem faultsAtOnce_raise (code : ErrCode) (arg : Word) (s : State) : FaultsAtOnce s (raise code arg s) :=
  .inl ⟨code, arg, rfl⟩

/-- A command that ends by moving CP does not fault, however far its stretch goes. -/
theorem faultsAtOnce_drain {q : List Action} {e : Ending} {n : Nat} {s u : State} (he : endingLen e = some n)
    (hu : u.engine ≠ .halted) : FaultsAtOnce s (drain ⟨q, e⟩ u) := .inr (drain_alive he hu)

section
variable {s : State} (hs : s.engine ≠ .halted)
include hs

/-- INIT: BAD_PANEL comes before the geometry and the buffer are touched (41_config.md R103). -/
theorem initBody_faultsAtOnce (panel rot : Byte) (hint : BitVec 32) : FaultsAtOnce s (initBody panel rot hint s) := by
  rw [initBody]
  split
  · rw [initPanel]
    dsimp only
    split
    · exact faultsAtOnce_drain rfl hs
    · exact .inr EngineState.noConfusion
  · exact faultsAtOnce_raise _ _ s

/-- DRAW_CHAR: the font and the glyph's range are checked before its transactions (44_text.md R202, R208). -/
theorem drawCharBody_faultsAtOnce (x y : Word) (ch font : Byte) (fg bg : Color) :
    FaultsAtOnce s (drawCharBody x y ch font fg bg s) := by
  rw [drawCharBody]
  split
  · exact faultsAtOnce_raise _ _ s
  · split
    · exact faultsAtOnce_drain rfl hs
    · split
      · exact faultsAtOnce_drain rfl hs
      · exact faultsAtOnce_raise _ _ s

/-- GET_TEXT_BOUNDS: the font is checked before RES0 and RES1 are written (44_text.md R212). -/
theorem textBoundsBody_faultsAtOnce (font : Byte) (chars : List Byte) :
    FaultsAtOnce s (textBoundsBody font chars s) := by
  rw [textBoundsBody]
  split
  · exact faultsAtOnce_raise _ _ s
  · exact .inr hs

/-- NOT_READY is a fault with no other effect too (R232). -/
theorem FaultsAtOnce.gated {g : Gate} {opc : Word} {body : State → State} (h : FaultsAtOnce s (body s)) :
    FaultsAtOnce s (gated g opc body s) := by
  obtain ht | ht | ht := gated_outcome (g := g) (opc := opc) (body := body) (s := s) rfl
  · rw [ht]; exact .inr hs
  · rw [ht]; exact faultsAtOnce_raise _ _ s
  · rw [ht]; exact h

/-- Every command but DRAW_STRING faults before its first effect, if at all. -/
theorem exec_faultsAtOnce {i : Instr} {t : State} (hi : ∀ x y font fg bg chars, i ≠ .drawString x y font fg bg chars)
    (h : exec i s = .next t) : FaultsAtOnce s t := by
  cases hp : isPrimitive i with
  | true =>
    cases (exec_primitive hp s).symm.trans h
    exact .gated hs (faultsAtOnce_drain rfl hs)
  | false =>
    cases i with
    | init panel rot hint => cases h; exact .gated hs (initBody_faultsAtOnce hs panel rot hint)
    | deinit => cases h; exact .gated hs (.inr EngineState.noConfusion)
    | setRotation rot => cases h; exact .gated hs (faultsAtOnce_drain rfl hs)
    | getGeometry => cases h; exact .gated hs (.inr hs)
    | invert on => cases h; exact .gated hs (faultsAtOnce_drain rfl hs)
    | tearing on => cases h; exact .gated hs (faultsAtOnce_drain rfl hs)
    | drawChar x y ch font fg bg => cases h; exact .gated hs (drawCharBody_faultsAtOnce hs x y ch font fg bg)
    | drawString x y font fg bg chars => exact absurd rfl (hi x y font fg bg chars)
    | getTextBounds font chars => cases h; exact .gated hs (textBoundsBody_faultsAtOnce hs font chars)
    | _ => cases hp

end

/-- Settles O11: such a command's checks come before its first effect, and past them its ending moves CP. -/
theorem faultsArePrecise : Obligations.FaultsArePrecise := by
  intro i s t hs hi h ht
  obtain ⟨code, arg, rfl⟩ | halive := exec_faultsAtOnce hs hi h
  · rfl
  · exact absurd ht halive

end Sys2Proof.Machine
end
